-- ==== Sys2Proof/Word.lean ====
section
/-! DEFINITION. The words the block is made of, and the small named types its rules speak about
(slots, rings, tags, agents, transmit states, statuses). Widths: spec/00_scope.md R9, spec/10_state.md R22-R37. -/

namespace Sys2Proof

/-- A byte, `UInt8` of R9. -/
abbrev Byte := BitVec 8

/-- `Int16` of R9: a signed 16-bit sample, level or symbol. -/
abbrev Sample := BitVec 16

/-- A 16-bit word whose reading the rule at hand gives: an operation word of format I (R97), an RSSI reading (D44). -/
abbrev Word16 := BitVec 16

/-- `UInt32` of R9: the counters of R23 and R25. -/
abbrev Count32 := BitVec 32

/-- A slot index (R9 glossary: "Slot index: 0 or 1"). -/
inductive Slot where
  | slot0
  | slot1
  deriving DecidableEq, Repr, Inhabited

/-- A pair of registers, one for each slot: `abort[s]`, `abortCount[s]`, `FIFO[s]` (R24, R25, R37). -/
structure PerSlot (α : Type) where
  slot0 : α
  slot1 : α
  deriving DecidableEq, Repr, Inhabited

/-- Register `r[s]` of a pair. -/
def PerSlot.get {α : Type} (p : PerSlot α) : Slot → α
  | .slot0 => p.slot0
  | .slot1 => p.slot1

/-- `r[s] <- x`. -/
def PerSlot.set {α : Type} (p : PerSlot α) (k : Slot) (x : α) : PerSlot α :=
  match k with
  | .slot0 => { p with slot0 := x }
  | .slot1 => { p with slot1 := x }

/-- The three sample rings of R37. -/
inductive SampleRing where
  | txq
  | rxq
  | rssiq
  deriving DecidableEq, Repr, Inhabited

/-- The five ring instances of R37: three sample rings and the two byte FIFOs. -/
inductive RingId where
  | sample (q : SampleRing)
  | fifo (k : Slot)
  deriving DecidableEq, Repr, Inhabited

/-- The two rings the receive consumer may take from (R5, R229). -/
inductive InboundRing where
  | rxq
  | rssiq
  deriving DecidableEq, Repr, Inhabited

/-- The three tag values the block produces (R100). -/
inductive Tag where
  | none
  | slot1
  | slot2
  deriving DecidableEq, Repr, Inhabited

/-- One item of a sample ring: (Int16 sample, Tag) in TXQ and RXQ, (UInt16 reading, Tag) in RSSIQ (R37). -/
structure Item where
  value : Word16
  tag : Tag
  deriving DecidableEq, Repr, Inhabited

/-- The operand of RING_PUT: a ring together with one item of that ring's own item type (R115). -/
inductive PutArg where
  | sample (q : SampleRing) (item : Item)
  | fifo (k : Slot) (b : Byte)
  deriving DecidableEq, Repr, Inhabited

/-- The ring a RING_PUT operand names. -/
def PutArg.ring : PutArg → RingId
  | .sample q _ => .sample q
  | .fifo k _ => .fifo k

/-- The framing states of R22. -/
inductive TxState where
  | idle
  | slot1
  | cach2
  | slot2
  | cach1
  | calibration
  deriving DecidableEq, Repr, Inhabited

/-- The statuses of R82. -/
inductive Status where
  | ok
  | illegalLength
  | ringFull
  | invalidSlot
  | invalidValue
  | unknownCommand
  deriving DecidableEq, Repr, Inhabited

/-- The three agents of R5. -/
inductive Agent where
  | main
  | service
  | receiver
  deriving DecidableEq, Repr, Inhabited

/-- One turn of an agent of R5, or an arrival of bytes on `cmd_in` (R42). Each of these always has a step or lets
the turn pass. The draws of a service step (U10) are its operands. -/
inductive AgentTurn where
  | arrive (bytes : List Byte)
  | command
  | sequencer
  | service (rx rssi : Word16)
  | receive (q : InboundRing)
  deriving DecidableEq, Repr, Inhabited

/-- One element of a schedule: an agent's turn, or an operation word of format I issued by name with the operands its
rule lists (R98, R102; log 3, log 6). -/
inductive Turn where
  | agent (a : AgentTurn)
  | issue (word : Word16) (operands : List Word16)
  deriving DecidableEq, Repr, Inhabited

end Sys2Proof
end

