-- ==== Sys2Proof/Config.lean ====
section
/-! DEFINITION. The configuration of spec/00_scope.md R6: what an implementation fixes, and the free values.
The parameters marked OPEN there are fields; the numbers DOC itself gives are definitions. -/

namespace Sys2Proof

/-- `CACH_BYTES` (R6, DOC §4.2). -/
def cachBytes : Nat := 3

/-- `SLC_BYTES` (R6, DOC §3). -/
def slcBytes : Nat := 12

/-- `SLC_BITS` (R6, DOC §4.2). -/
def slcBits : Nat := 68

/-- `CACH_STEP` (R6, DOC §3). -/
def cachStep : Nat := 3

/-- `TRIM_LIMIT` (R6, DOC §3). -/
def trimLimit : Int := 128

/-- `AT_MODES` (R6, DOC §6). -/
def atModes : Nat := 4

/-- `CTRL_POS` (R6, R167): the stream-bit positions of the seven control bits in the 24-bit CACH fragment. -/
structure CtrlPos where
  accessType : Nat
  tc : Nat
  ls1 : Nat
  ls0 : Nat
  h0 : Nat
  h1 : Nat
  h2 : Nat
  deriving DecidableEq, Repr, Inhabited

/-- The seven positions as a list, in ascending order for the default. -/
def CtrlPos.toList (p : CtrlPos) : List Nat :=
  [p.accessType, p.tc, p.ls1, p.ls0, p.h0, p.h1, p.h2]

/-- The positions R6 and R167 give. -/
def CtrlPos.standard : CtrlPos :=
  { accessType := 0, tc := 4, ls1 := 8, ls0 := 12, h0 := 14, h1 := 18, h2 := 22 }

/-- One known value of the external encoder: `SLOT_TYPE_ENCODE(cc, dataType, frame) = out` (log 10). -/
structure EncodeRow where
  cc : Byte
  dataType : Byte
  frame : List Byte
  out : List Byte
  deriving DecidableEq, Repr, Inhabited

/-- The parameters of R6. A configuration is constant for a whole run (R41). -/
structure Config where
  /-- `BURST_BYTES` -/
  burstBytes : Nat
  /-- `OSR` -/
  osr : Nat
  /-- `PHASE_LEN` -/
  phaseLen : Nat
  /-- `RRC_COEF`, in the storage order of R196 -/
  rrcCoef : List Sample
  /-- `LEVEL_A` -/
  levelA : Sample
  /-- `LEVEL_B` -/
  levelB : Sample
  /-- `LEVEL_C` -/
  levelC : Sample
  /-- `LEVEL_D` -/
  levelD : Sample
  /-- `STARTUP_COUNT` -/
  startupCount : Count32
  /-- `ABORT_COUNT` -/
  abortLimit : Count32
  /-- `N_TX` -/
  nTx : Nat
  /-- `N_RX` -/
  nRx : Nat
  /-- `N_RSSI` -/
  nRssi : Nat
  /-- `N_FIFO` -/
  nFifo : Nat
  /-- `SILENCE_SAMPLE` -/
  silence : Sample
  /-- `RSSI_ENABLED` -/
  rssiEnabled : Bool
  /-- `IDLE_BASE` -/
  idleBase : List Byte
  /-- `IDLE_DATA_TYPE` -/
  idleDataType : Byte
  /-- the known part of `SLOT_TYPE_ENCODE` (log 10) -/
  encodeKnown : List EncodeRow
  /-- `CAL_BURST` -/
  calBurst : List Byte
  /-- `SLC_INTERLEAVE` -/
  slcInterleave : List Nat
  /-- `CTRL_POS` -/
  ctrlPos : CtrlPos
  deriving DecidableEq, Repr, Inhabited

/-- The seventeen payload positions `P` of one 24-bit fragment (R171). -/
def slcFragmentPositions : List Nat :=
  [1, 2, 3, 5, 6, 7, 9, 10, 11, 13, 15, 16, 17, 19, 20, 21, 23]

/-- The default `SLC_INTERLEAVE` of R171: entry `17k + j` is `24k + P[j]`. -/
def slcInterleaveDefault : List Nat :=
  (List.range 4).flatMap fun k => slcFragmentPositions.map fun p => 24 * k + p

/-- FREE VALUE. Byte `i` of what the external slot-type encoder answers where the configuration does not list it
(R4, R6, D22: an opaque collaborator; log 10). -/
opaque Config.freeEncodeByte (cc dataType : Byte) (frame : List Byte) (i : Nat) : Byte

/-- FREE VALUE. The `n`-th turn the environment chooses when no turn has been placed: which agent steps next and with
which draws is not fixed (U10, U11; R5, R69; log 3). -/
opaque Config.freeTurn (n : Nat) : AgentTurn

/-- The configuration State.reset carries (log 2). BURST_BYTES, OSR, STARTUP_COUNT, ABORT_COUNT, IDLE_DATA_TYPE,
SLC_INTERLEAVE and CTRL_POS are R6's own candidates; every other field is a placeholder the spec gives no value for.
DESIGN CHOICE, unsafe: no statement rests on it. -/
def Config.reference : Config where
  burstBytes := 33
  osr := 5
  phaseLen := 1
  rrcCoef := List.replicate 5 16384
  levelA := 300
  levelB := 100
  levelC := -100
  levelD := -300
  startupCount := 20
  abortLimit := 6
  nTx := 64
  nRx := 4
  nRssi := 4
  nFifo := 99
  silence := 0
  rssiEnabled := false
  idleBase := List.replicate 33 0
  idleDataType := 9
  encodeKnown := []
  calBurst := List.replicate 33 0x5F
  slcInterleave := slcInterleaveDefault
  ctrlPos := CtrlPos.standard

end Sys2Proof
end

