-- ==== Sys2Proof/Machine/Bits.lean ====
section
/-! DEFINITION. Bit and arithmetic primitives: stream bits (spec/00_scope.md R8), the integer primitives (R10) and the
byte order of multi-byte results (spec/20_memory.md R63). -/

namespace Sys2Proof.Machine

/-- `ReadBit(p, i) = (p[i div 8] >> (7 − i mod 8)) & 1` (R8). Past the end of `p` there is no byte, and the bit reads 0. -/
def readBit (p : List Byte) (i : Nat) : Bool := (p.getD (i / 8) 0).getLsbD (7 - i % 8)

/-- The byte with the one bit of weight `2^k`. -/
def bitMask (k : Nat) : Byte := 1#8 <<< k

/-- `WriteBit(p, i, b)`: sets stream bit `i` to `b` and leaves the others (R8). -/
def writeBit (p : List Byte) (i : Nat) (b : Bool) : List Byte :=
  let mask := bitMask (7 - i % 8)
  p.modify (i / 8) fun byte => if b then byte ||| mask else byte &&& ~~~mask

/-- OR `b` into stream bit `i`: the bit keeps its value where `b` is 0 (R167). -/
def orBit (p : List Byte) (i : Nat) (b : Bool) : List Byte :=
  p.modify (i / 8) fun byte => if b then byte ||| bitMask (7 - i % 8) else byte

/-- `sat16(v) = min(32767, max(−32768, v))`, as an Int16 (R10). -/
def sat16 (v : Int) : Sample := BitVec.ofInt 16 (min 32767 (max (-32768) v))

/-- `clamp(v, lo, hi) = min(hi, max(lo, v))` (R10). -/
def clamp (v lo hi : Int) : Int := min hi (max lo v)

/-- `asr(v, k) = floor(v / 2^k)`: rounds toward −∞ (R10). -/
def asr (v : Int) (k : Nat) : Int := v / (2 ^ k : Int)

/-- A UInt32 result, most significant byte first (R63). -/
def be32 (v : Count32) : List Byte :=
  [v.extractLsb' 24 8, v.extractLsb' 16 8, v.extractLsb' 8 8, v.extractLsb' 0 8]

end Sys2Proof.Machine
end

