-- ==== Sys2Proof/Machine/ConfigRules.lean ====
section
/-! DEFINITION. What is said of a configuration: which are well-formed (spec/00_scope.md R7), the ring capacities
(spec/10_state.md R37) and the external encoder (R6, spec/44_host_commands.md R244). -/

namespace Sys2Proof

/-- Whether a list of positions has no repeats. -/
def allDistinct : List Nat → Bool
  | [] => true
  | x :: xs => !xs.contains x && allDistinct xs

/-- The 28 control-bit positions of the 96-bit payload: `CTRL_POS + 24k` for k = 0..3 (R7 clause 7). -/
def CtrlPos.payloadPositions (p : CtrlPos) : List Nat :=
  (List.range 4).flatMap fun k => p.toList.map fun c => c + 24 * k

/-- `|LEVEL| ≤ 32767 − TRIM_LIMIT` (R7 clause 3). -/
def levelFits (x : Sample) : Bool := -(32767 - trimLimit) ≤ x.toInt && x.toInt ≤ 32767 - trimLimit

/-- What R6's types say of a configuration: the lengths of the fixed arrays, capacities and control positions in
range. -/
def Config.shapeClauses (c : Config) : List Bool :=
  [c.idleBase.length == c.burstBytes, c.calBurst.length == c.burstBytes, c.slcInterleave.length == slcBits,
   decide (1 ≤ c.nRx), decide (1 ≤ c.nRssi), c.ctrlPos.toList.all fun p => decide (p < 8 * cachBytes)]

/-- What the configuration knows of `SLOT_TYPE_ENCODE` at these arguments, if anything (log 10). -/
def Config.knownOutput (c : Config) (cc dataType : Byte) (frame : List Byte) : Option (List Byte) :=
  (c.encodeKnown.find? fun r => r.cc == cc && r.dataType == dataType && r.frame == frame).map (·.out)

/-- The known outputs have the length of their frames (R7 clause 8); the free ones have it by construction,
`slotTypeEncode`. -/
def Config.encoderFits (c : Config) : Bool :=
  c.encodeKnown.all fun r => (c.knownOutput r.cc r.dataType r.frame).all fun out => out.length == r.frame.length

/-- The nine clauses of R7, in its order. -/
def Config.ruleClauses (c : Config) : List Bool :=
  [-- (1)
   decide (1 ≤ c.osr), decide (1 ≤ c.phaseLen),
   -- (2)
   c.rrcCoef.length == c.osr * c.phaseLen,
   -- (3)
   levelFits c.levelA, levelFits c.levelB, levelFits c.levelC, levelFits c.levelD,
   -- (4)
   decide (4 * c.osr < c.nTx),
   -- (5)
   decide (c.burstBytes ≤ c.nFifo),
   -- (6)
   decide (cachBytes ≤ c.burstBytes),
   -- (7)
   allDistinct c.slcInterleave,
   c.slcInterleave.all fun p => decide (p < 8 * slcBytes) && !c.ctrlPos.payloadPositions.contains p,
   -- (8)
   c.encoderFits,
   -- (9)
   decide (1 ≤ c.abortLimit.toNat)]

/-- R7: a configuration is well-formed iff its clauses hold (and R6's types do). -/
def Config.wf (c : Config) : Bool := (c.shapeClauses ++ c.ruleClauses).all id

/-- `N_q` (R37). -/
def Config.capacity (c : Config) : RingId → Nat
  | .sample .txq => c.nTx
  | .sample .rxq => c.nRx
  | .sample .rssiq => c.nRssi
  | .fifo _ => c.nFifo

/-- Samples in one emitted byte: `4 × OSR` (R190). -/
def Config.batchLen (c : Config) : Nat := 4 * c.osr

/-- `SLOT_TYPE_ENCODE(cc, dataType, frame)`: an external pure function that preserves length (R6, R7 clause 8, R287).
A value the configuration lists is that value; any other is free (log 10). -/
def Config.slotTypeEncode (c : Config) (cc dataType : Byte) (frame : List Byte) : List Byte :=
  match c.knownOutput cc dataType frame with
  | some out => out
  | none => (List.range frame.length).map (Config.freeEncodeByte cc dataType frame)

/-- The idle template a colour code stamps (R32, R244). -/
def Config.idleTemplate (c : Config) (cc : Byte) : List Byte := c.slotTypeEncode cc c.idleDataType c.idleBase

end Sys2Proof
end

