-- ==== Sys2Proof/Machine/State.lean ====
section
/-! DEFINITION. The state of the block: every field of spec/10_state.md, the reasons a step can stop, and reset
(spec/70_reset_and_hazards.md R300). -/

namespace Sys2Proof.Machine

/-- One ring instance (R36). Its capacity is the configuration's (R37, R41). -/
structure RingBuf (α : Type) where
  buf : List α
  head : Nat
  tail : Nat
  full : Bool
  overflow : Bool
  deriving DecidableEq, Repr

/-- What the last internal operation that returns a value returned (log 7). -/
inductive Result where
  /-- nothing has returned a value yet -/
  | none
  /-- RING_CAPACITY, RING_FREE, RING_OCCUPIED, IO_SPACE -/
  | count (n : Nat)
  /-- RING_PUT, RING_TAKE_OVERFLOW, IO_IS_TRANSMITTING -/
  | flag (b : Bool)
  /-- RING_GET on a sample ring -/
  | item (x : Option Item)
  /-- RING_GET on a byte FIFO -/
  | byte (b : Option Byte)
  /-- SYMBOL_MAP -/
  | symbol (x : Sample)
  /-- FIR_STEP -/
  | samples (ys : List Sample)
  /-- MODULATE: the samples paired with their tags -/
  | batch (xs : List Item)
  deriving DecidableEq, Repr

/-- The architectural state. -/
structure State where
  /-- the parameters of R6, constant for a run (R41; log 1) -/
  cfg : Config
  /-- `state` (R22) -/
  txState : TxState
  /-- `frameCount` (R23) -/
  frameCount : Count32
  /-- `abort[0..1]` (R24) -/
  abort : PerSlot Bool
  /-- `abortCount[0..1]` (R25) -/
  abortCount : PerSlot Count32
  /-- `slcLive` (R26) -/
  slcLive : List Byte
  /-- `slcPending` (R27) -/
  slcPending : List Byte
  /-- `cachPtr` (R28) -/
  cachPtr : Byte
  /-- `trim3` (R29) -/
  trim3 : Sample
  /-- `trim1` (R29) -/
  trim1 : Sample
  /-- `atMode` (R30) -/
  atMode : Byte
  /-- `colourCode`, `none` while unwritten (R31) -/
  colourCode : Option Byte
  /-- `idle`, `none` while unwritten (R32) -/
  idle : Option (List Byte)
  /-- `poBuf` (R33) -/
  poBuf : List Byte
  /-- `poTag` (R33) -/
  poTag : List Tag
  /-- `poLen` (R33) -/
  poLen : Nat
  /-- `poPtr` (R33) -/
  poPtr : Nat
  /-- `fir`, oldest symbol first (R34) -/
  fir : List Sample
  /-- `txOn` (R35) -/
  txOn : Bool
  /-- TXQ (R37) -/
  txq : RingBuf Item
  /-- RXQ (R37) -/
  rxq : RingBuf Item
  /-- RSSIQ (R37) -/
  rssiq : RingBuf Item
  /-- FIFO[0], FIFO[1] (R37) -/
  fifo : PerSlot (RingBuf Byte)
  /-- bytes arrived on `cmd_in` and not yet executed (R42, R240; log 8) -/
  cmdIn : List Byte
  /-- responses placed on `rsp_out`, oldest first (R42, R82; log 8) -/
  rspOut : List (List Byte)
  /-- samples driven on `tx_out`, oldest first (R42, R226; log 8) -/
  txOut : List Item
  /-- the model's own: the last returned value (log 7) -/
  result : Result
  /-- the model's own: turns placed and not yet taken, oldest first (log 3) -/
  sched : List Turn
  /-- the model's own: how many free turns were drawn (log 3) -/
  freeCount : Nat
  deriving DecidableEq, Repr

/-- Why the machine stops with a fault. -/
inductive Fault where
  /-- `Fault(IdleTemplateUnset)` with the build's slot index. Raised by BUILD_DATA alone, when the idle branch meets an
  unwritten template (R274). Safe: the spec asks the model to stop there (R275). -/
  | idleTemplateUnset (k : Slot)
  deriving DecidableEq, Repr

/-- Why a step is not taken. -/
inductive Refusal where
  /-- An operation that has no meaning yet. Raised by exec's refused arms alone. Safe: the model stops. -/
  | notModelled (mnemonic : String)
  /-- The configuration breaks R7. Raised by step, before anything runs (R276). Safe: the spec refuses it. -/
  | illFormedConfiguration
  /-- A build or emit step whose enabling condition is false, which "does not exist" (R12, R150). Raised by BUILD_DATA,
  BUILD_CACH, BUILD_CAL and EMIT_BYTE. Safe: no agent takes such a step. -/
  | stepNotEnabled
  /-- An issued word that names no operation: "A model's decoder refuses it" (R97). Raised by step. Safe. -/
  | noSuchOperation
  deriving DecidableEq, Repr

/-- A ring of capacity `n` right after construction; `filler` stands in the storage, whose contents the spec leaves
unspecified (R36, R300; log 9). -/
def RingBuf.fresh {α : Type} (n : Nat) (filler : α) : RingBuf α :=
  { buf := List.replicate n filler, head := 0, tail := 0, full := false, overflow := false }

/-- The state after reset under a configuration `c` (R300; reset is construction). -/
def State.resetWith (c : Config) : State where
  cfg := c
  txState := .idle
  frameCount := 0
  abort := ⟨false, false⟩
  abortCount := ⟨0, 0⟩
  slcLive := List.replicate slcBytes 0
  slcPending := List.replicate slcBytes 0
  cachPtr := 0
  trim3 := 0
  trim1 := 0
  atMode := 0
  colourCode := none
  idle := none
  poBuf := List.replicate c.burstBytes 0
  poTag := List.replicate c.burstBytes .none
  poLen := 0
  poPtr := 0
  fir := List.replicate (c.phaseLen - 1) 0
  txOn := false
  txq := RingBuf.fresh c.nTx ⟨0, .none⟩
  rxq := RingBuf.fresh c.nRx ⟨0, .none⟩
  rssiq := RingBuf.fresh c.nRssi ⟨0, .none⟩
  fifo := ⟨RingBuf.fresh c.nFifo 0, RingBuf.fresh c.nFifo 0⟩
  cmdIn := []
  rspOut := []
  txOut := []
  result := .none
  sched := []
  freeCount := 0

/-- The state after reset, under the configuration named in log 2. -/
def State.reset : State := State.resetWith Config.reference

end Sys2Proof.Machine
end

