-- ==== Sys2Proof/Machine/Flags.lean ====
section
/-! DEFINITION. The block's one-bit values: the empty test of a ring (spec/40_ring_buffers.md R111) and the CACH control
bits (spec/41_framing.md R164-R167). -/

namespace Sys2Proof.Machine

/-- A ring is empty iff `head = tail` and it is not full (R111). -/
def RingBuf.isEmpty {α : Type} (r : RingBuf α) : Bool := r.head == r.tail && !r.full

/-- `Suppressed(m, rx)` (R164). -/
def suppressed (mode : Byte) (rx : Slot) : Bool :=
  mode == 3 || (mode == 1 && rx == .slot0) || (mode == 2 && rx == .slot1)

/-- The seven control bits of a CACH fragment. -/
structure ControlBits where
  accessType : Bool
  tc : Bool
  ls1 : Bool
  ls0 : Bool
  h0 : Bool
  h1 : Bool
  h2 : Bool
  deriving DecidableEq, Repr

/-- `tc = (tx = 1)` (R165). -/
def tcBit (tx : Slot) : Bool := tx == .slot1

/-- `ls1` is true except at cursor 0 (R165). -/
def ls1Bit (cachPtr : Byte) : Bool := cachPtr != 0

/-- `ls0` is true except at cursor 9 (R165). -/
def ls0Bit (cachPtr : Byte) : Bool := cachPtr != 9

/-- The control bits with their parities: `h0 = at ⊕ tc ⊕ ls1`, `h1 = tc ⊕ ls1 ⊕ ls0`, `h2 = at ⊕ tc ⊕ ls0` (R166). -/
def controlBits (accessType tc ls1 ls0 : Bool) : ControlBits where
  accessType := accessType
  tc := tc
  ls1 := ls1
  ls0 := ls0
  h0 := accessType ^^ tc ^^ ls1
  h1 := tc ^^ ls1 ^^ ls0
  h2 := accessType ^^ tc ^^ ls0

/-- OR the control bits into a 3-byte fragment at the configured positions (R167; log 17). -/
def orControlBits (pos : CtrlPos) (bits : ControlBits) (fragment : List Byte) : List Byte :=
  let p0 := orBit fragment pos.accessType bits.accessType
  let p1 := orBit p0 pos.tc bits.tc
  let p2 := orBit p1 pos.ls1 bits.ls1
  let p3 := orBit p2 pos.ls0 bits.ls0
  let p4 := orBit p3 pos.h0 bits.h0
  let p5 := orBit p4 pos.h1 bits.h1
  orBit p5 pos.h2 bits.h2

end Sys2Proof.Machine
end

