-- ==== Sys2Proof/Syntax.lean ====
section
/-! DEFINITION. The operations of DTX-1, one constructor per row of spec/opcode_table.json. -/

namespace Sys2Proof

/-- The operations of the block. A host command (format H, R81) holds its frame's operand bytes, whatever their number:
a wrong number is answered `IllegalLength` (R96), so it is part of the command's meaning. An internal operation
(format I, R97) holds its word's field and the operands its rule lists. -/
inductive Instr where
  /-- `WRITE_SLOT_DATA` (R175) -/
  | writeSlotData (operands : List Byte)
  /-- `WRITE_SHORT_LC` (R170) -/
  | writeShortLc (operands : List Byte)
  /-- `WRITE_ABORT` (R176) -/
  | writeAbort (operands : List Byte)
  /-- `START` (R177) -/
  | start (operands : List Byte)
  /-- `SET_CAL` (R178) -/
  | setCal (operands : List Byte)
  /-- `SET_SYMLVL` (R242) -/
  | setSymlvl (operands : List Byte)
  /-- `SET_AT_SUPP` (R243) -/
  | setAtSupp (operands : List Byte)
  /-- `SET_COLOR_CODE` (R244) -/
  | setColorCode (operands : List Byte)
  /-- `READ_FREE_SPACE` (R245) -/
  | readFreeSpace (operands : List Byte)
  /-- `READ_FRAME_COUNT` (R246) -/
  | readFrameCount (operands : List Byte)
  /-- `POLL_OVERFLOW` (R247) -/
  | pollOverflow (operands : List Byte)
  /-- `BUILD_DATA s` (R153) -/
  | buildData (k : Slot)
  /-- `BUILD_CACH tx, rx` (R160) -/
  | buildCach (tx rx : Slot)
  /-- `BUILD_CAL` (R154) -/
  | buildCal
  /-- `EMIT_BYTE` (R155) -/
  | emitByte
  /-- `MODULATE b, t` (R194) -/
  | modulate (b : Byte) (t : Tag)
  /-- `FIR_STEP x` (R197) -/
  | firStep (x : Sample)
  /-- `SYMBOL_MAP d` (R192) -/
  | symbolMap (d : BitVec 2)
  /-- `RING_CAPACITY q` (R112) -/
  | ringCapacity (q : RingId)
  /-- `RING_FREE q` (R113) -/
  | ringFree (q : RingId)
  /-- `RING_OCCUPIED q` (R114) -/
  | ringOccupied (q : RingId)
  /-- `RING_PUT q, item` (R115) -/
  | ringPut (arg : PutArg)
  /-- `RING_GET q` (R116) -/
  | ringGet (q : RingId)
  /-- `RING_RESET q` (R117) -/
  | ringReset (q : RingId)
  /-- `RING_TAKE_OVERFLOW q` (R118) -/
  | ringTakeOverflow (q : RingId)
  /-- `IO_SPACE` (R221) -/
  | ioSpace
  /-- `IO_IS_TRANSMITTING` (R222) -/
  | ioIsTransmitting
  /-- `IO_SET_TRANSMIT b` (R224) -/
  | ioSetTransmit (b : Bool)
  /-- `IO_PUSH mode, xs, ts` (R223); the batch holds the pairs (xs[i], ts[i]) -/
  | ioPush (mode : Byte) (batch : List Item)
  /-- `IO_SERVICE rx, rssi` (R226) -/
  | ioService (rx rssi : Word16)
  deriving DecidableEq, Repr

end Sys2Proof
end

