-- ==== Sys2Proof/WellFormed.lean ====
section
/-! DEFINITION. Which operations the encodings of spec/30_encoding.md can write down. -/

namespace Sys2Proof

/-- A frame's `len` is one byte, so it names at most 255 operand bytes (R81). -/
def operandsFit (operands : List Byte) : Bool := operands.length ≤ 255

/-- An operation that has an encoding: a host command's operands fit its `len` byte (R81), and a BUILD_CACH field is
one of the two legal values, `tx ≠ rx` (R98, R160). Every other operand is in range by its type. -/
def Instr.wf : Instr → Bool
  | .writeSlotData p => operandsFit p
  | .writeShortLc p => operandsFit p
  | .writeAbort p => operandsFit p
  | .start p => operandsFit p
  | .setCal p => operandsFit p
  | .setSymlvl p => operandsFit p
  | .setAtSupp p => operandsFit p
  | .setColorCode p => operandsFit p
  | .readFreeSpace p => operandsFit p
  | .readFrameCount p => operandsFit p
  | .pollOverflow p => operandsFit p
  | .buildData _ => true
  | .buildCach tx rx => tx ≠ rx
  | .buildCal => true
  | .emitByte => true
  | .modulate _ _ => true
  | .firStep _ => true
  | .symbolMap _ => true
  | .ringCapacity _ => true
  | .ringFree _ => true
  | .ringOccupied _ => true
  | .ringPut _ => true
  | .ringGet _ => true
  | .ringReset _ => true
  | .ringTakeOverflow _ => true
  | .ioSpace => true
  | .ioIsTransmitting => true
  | .ioSetTransmit _ => true
  | .ioPush _ _ => true
  | .ioService _ _ => true

end Sys2Proof
end

