-- ==== Sys2Proof/Decode.lean ====
section
/-! DEFINITION. The decoders of spec/30_encoding.md: host command frames (format H, R81-R96) and internal operation
words (format I, R97-R99), and after them the encoder, written from the same tables. -/

namespace Sys2Proof

/-- Why a decoder rejects: the frame is not complete (R240), more bytes follow the one frame asked for, the opcode is
reserved (R96), or a word, its field or its operands name no operation (R97). -/
inductive Reject where
  | incompleteFrame
  | trailingBytes
  | reservedOpcode (opcode : Byte)
  | unlistedCode
  | illegalField
  | illegalOperands
  deriving DecidableEq, Repr

/-! ## Code points -/

/-- Tag codes (R100). -/
def Tag.code : Tag → Byte
  | .none => 0x00
  | .slot1 => 0x08
  | .slot2 => 0x04

/-- The tag with a code; no other code exists (R100). -/
def tagOfCode (c : Nat) : Option Tag :=
  if c = 0x00 then some .none else if c = 0x08 then some .slot1 else if c = 0x04 then some .slot2 else none

/-- Ring ids (R37). -/
def RingId.code : RingId → Nat
  | .sample .txq => 0
  | .sample .rxq => 1
  | .sample .rssiq => 2
  | .fifo .slot0 => 3
  | .fifo .slot1 => 4

/-- The ring with an id 0..4; no other id exists (R37, R98). -/
def ringOfCode (n : Nat) : Option RingId :=
  if n = 0 then some (.sample .txq)
  else if n = 1 then some (.sample .rxq)
  else if n = 2 then some (.sample .rssiq)
  else if n = 3 then some (.fifo .slot0)
  else if n = 4 then some (.fifo .slot1)
  else none

/-- The slot index as a number. -/
def Slot.index : Slot → Nat
  | .slot0 => 0
  | .slot1 => 1

/-- The slot with an index 0 or 1. -/
def slotOfIndex (n : Nat) : Option Slot :=
  if n = 0 then some .slot0 else if n = 1 then some .slot1 else none

/-! ## Format H -/

/-- The command a host opcode selects (R84), holding its operand bytes; `none` for the reserved opcodes 0x00 and
0x0C..0xFF (R96). -/
def hostCommand (opcode : Byte) (operands : List Byte) : Option Instr :=
  if opcode = 0x01 then some (.writeSlotData operands)
  else if opcode = 0x02 then some (.writeShortLc operands)
  else if opcode = 0x03 then some (.writeAbort operands)
  else if opcode = 0x04 then some (.start operands)
  else if opcode = 0x05 then some (.setCal operands)
  else if opcode = 0x06 then some (.setSymlvl operands)
  else if opcode = 0x07 then some (.setAtSupp operands)
  else if opcode = 0x08 then some (.setColorCode operands)
  else if opcode = 0x09 then some (.readFreeSpace operands)
  else if opcode = 0x0A then some (.readFrameCount operands)
  else if opcode = 0x0B then some (.pollOverflow operands)
  else none

/-- What stands at the front of `cmd_in`. -/
inductive FrameRead where
  /-- fewer than `len + 2` bytes have arrived (R240) -/
  | incomplete
  /-- a complete frame with a reserved opcode (R248), and the bytes behind it -/
  | reserved (opcode : Byte) (rest : List Byte)
  /-- a complete frame of a known command, and the bytes behind it -/
  | command (i : Instr) (rest : List Byte)
  deriving DecidableEq, Repr

/-- Read one frame `opcode, len, operand[0 .. len-1]`: its length comes from byte 1 alone, whatever the opcode (R81). -/
def readFrame : List Byte → FrameRead
  | opcode :: len :: bytes =>
    if bytes.length < len.toNat then .incomplete
    else
      match hostCommand opcode (bytes.take len.toNat) with
      | some i => .command i (bytes.drop len.toNat)
      | none => .reserved opcode (bytes.drop len.toNat)
  | _ => .incomplete

/-! ## Format I -/

/-- An operand that is one byte. -/
def byteOperand (a : Word16) : Option Byte :=
  if a.toNat < 256 then some (a.setWidth 8) else none

/-- An operand that is a tag. -/
def tagOperand (a : Word16) : Option Tag := tagOfCode a.toNat

/-- An operand that is one dibit. -/
def dibitOperand (a : Word16) : Option (BitVec 2) :=
  if a.toNat < 4 then some (a.setWidth 2) else none

/-- A batch of (sample, tag) items, laid out sample, tag, sample, tag, ... (log 6). -/
def batchOperand : List Word16 → Option (List Item)
  | [] => some []
  | [_] => none
  | v :: t :: rest =>
    match tagOperand t, batchOperand rest with
    | some tag, some items => some ({ value := v, tag := tag } :: items)
    | _, _ => none

/-- The item of a RING_PUT, of the ring's own type: a sample or reading with its tag, or a byte (R37, R115). -/
def putOperand (q : RingId) (operands : List Word16) : Option PutArg :=
  match q, operands with
  | .sample r, [v, t] => (tagOperand t).map fun tag => .sample r { value := v, tag := tag }
  | .fifo k, [b] => (byteOperand b).map fun byte => .fifo k byte
  | _, _ => none

/-- An operation whose word has field 0 and which takes no operand. -/
def plainWord (field : Nat) (operands : List Word16) (i : Instr) : Except Reject Instr :=
  if field ≠ 0 then .error .illegalField
  else match operands with
    | [] => .ok i
    | _ => .error .illegalOperands

/-- An operation whose word has field 0 and which takes operands. -/
def operandWord (field : Nat) (read : Option Instr) : Except Reject Instr :=
  if field ≠ 0 then .error .illegalField
  else match read with
    | some i => .ok i
    | none => .error .illegalOperands

/-- An operation whose field is a ring id and which takes no other operand (R99). -/
def ringWord (field : Nat) (operands : List Word16) (make : RingId → Instr) : Except Reject Instr :=
  match ringOfCode field with
  | none => .error .illegalField
  | some q => match operands with
    | [] => .ok (make q)
    | _ => .error .illegalOperands

/-- BUILD_DATA: the field is a slot index (R98). -/
def buildDataWord (field : Nat) (operands : List Word16) : Except Reject Instr :=
  match slotOfIndex field with
  | none => .error .illegalField
  | some k => plainWord 0 operands (.buildData k)

/-- BUILD_CACH: `f[1] = tx`, `f[0] = rx`, legal values 0x02 and 0x01 (R98, R99). -/
def buildCachWord (field : Nat) (operands : List Word16) : Except Reject Instr :=
  if field = 0x02 then plainWord 0 operands (.buildCach .slot1 .slot0)
  else if field = 0x01 then plainWord 0 operands (.buildCach .slot0 .slot1)
  else .error .illegalField

/-- IO_SET_TRANSMIT: `b = f[0]`, `f[7:1]` must be 0 (R99). -/
def setTransmitWord (field : Nat) (operands : List Word16) : Except Reject Instr :=
  if field = 0 then plainWord 0 operands (.ioSetTransmit false)
  else if field = 1 then plainWord 0 operands (.ioSetTransmit true)
  else .error .illegalField

/-- RING_PUT: the field is a ring id, the operand an item of that ring (R98, R115). -/
def ringPutWord (field : Nat) (operands : List Word16) : Except Reject Instr :=
  match ringOfCode field with
  | none => .error .illegalField
  | some q => operandWord 0 ((putOperand q operands).map .ringPut)

/-- The operands of MODULATE: a byte and a tag (R194). -/
def modulateOperands : List Word16 → Option Instr
  | [b, t] => match byteOperand b, tagOperand t with
    | some byte, some tag => some (.modulate byte tag)
    | _, _ => none
  | _ => none

/-- The operand of FIR_STEP: one Int16 symbol (R197). -/
def firStepOperands : List Word16 → Option Instr
  | [x] => some (.firStep x)
  | _ => none

/-- The operand of SYMBOL_MAP: one dibit (R192). -/
def symbolMapOperands : List Word16 → Option Instr
  | [d] => (dibitOperand d).map .symbolMap
  | _ => none

/-- The operands of IO_PUSH: the protocol mode and the batch (R223). -/
def ioPushOperands : List Word16 → Option Instr
  | m :: items => match byteOperand m, batchOperand items with
    | some mode, some batch => some (.ioPush mode batch)
    | _, _ => none
  | [] => none

/-- The operands of IO_SERVICE: the draws `rx` and `rssi` (R226). -/
def ioServiceOperands : List Word16 → Option Instr
  | [rx, rssi] => some (.ioService rx rssi)
  | _ => none

/-- The operation an operation code, a field and the operands name (R98); a code or field not listed names none (R97). -/
def decodeFields (code field : Nat) (operands : List Word16) : Except Reject Instr :=
  if code = 0x80 then buildDataWord field operands
  else if code = 0x81 then buildCachWord field operands
  else if code = 0x82 then plainWord field operands .buildCal
  else if code = 0x83 then plainWord field operands .emitByte
  else if code = 0x84 then operandWord field (modulateOperands operands)
  else if code = 0x85 then operandWord field (firStepOperands operands)
  else if code = 0x86 then operandWord field (symbolMapOperands operands)
  else if code = 0x88 then ringWord field operands .ringCapacity
  else if code = 0x89 then ringWord field operands .ringFree
  else if code = 0x8A then ringWord field operands .ringOccupied
  else if code = 0x8B then ringPutWord field operands
  else if code = 0x8C then ringWord field operands .ringGet
  else if code = 0x8D then ringWord field operands .ringReset
  else if code = 0x8E then ringWord field operands .ringTakeOverflow
  else if code = 0x90 then plainWord field operands .ioSpace
  else if code = 0x91 then plainWord field operands .ioIsTransmitting
  else if code = 0x92 then setTransmitWord field operands
  else if code = 0x93 then operandWord field (ioPushOperands operands)
  else if code = 0x94 then operandWord field (ioServiceOperands operands)
  else .error .unlistedCode

/-- The operation a word `w` names: code `w[15:8]`, field `w[7:0]` (R97). -/
def decodeWord (w : Word16) (operands : List Word16) : Except Reject Instr :=
  decodeFields (w.toNat / 256) (w.toNat % 256) operands

/-! ## The encoder -/

/-- What an operation is written as: a frame for `cmd_in` (R81), or an operation word with its operands (R97, log 6). -/
inductive Encoded where
  | frame (bytes : List Byte)
  | word (w : Word16) (operands : List Word16)
  deriving DecidableEq, Repr

/-- A command frame: opcode, len, operand bytes (R81). -/
def frameOf (opcode : Byte) (operands : List Byte) : Encoded :=
  .frame (opcode :: BitVec.ofNat 8 operands.length :: operands)

/-- An operation word: code in `w[15:8]`, field in `w[7:0]` (R97). -/
def wordOf (code field : Nat) (operands : List Word16) : Encoded :=
  .word (BitVec.ofNat 16 (code * 256 + field)) operands

/-- A tag as an operand. -/
def Tag.word (t : Tag) : Word16 := t.code.setWidth 16

/-- An item as two operands. -/
def Item.words (x : Item) : List Word16 := [x.value, x.tag.word]

/-- The operands of a RING_PUT. -/
def PutArg.words : PutArg → List Word16
  | .sample _ x => x.words
  | .fifo _ b => [b.setWidth 16]

/-- How each operation is written (R85-R95, R98, R99). -/
def encode : Instr → Encoded
  | .writeSlotData p => frameOf 0x01 p
  | .writeShortLc p => frameOf 0x02 p
  | .writeAbort p => frameOf 0x03 p
  | .start p => frameOf 0x04 p
  | .setCal p => frameOf 0x05 p
  | .setSymlvl p => frameOf 0x06 p
  | .setAtSupp p => frameOf 0x07 p
  | .setColorCode p => frameOf 0x08 p
  | .readFreeSpace p => frameOf 0x09 p
  | .readFrameCount p => frameOf 0x0A p
  | .pollOverflow p => frameOf 0x0B p
  | .buildData k => wordOf 0x80 k.index []
  | .buildCach tx rx => wordOf 0x81 (tx.index * 2 + rx.index) []
  | .buildCal => wordOf 0x82 0 []
  | .emitByte => wordOf 0x83 0 []
  | .modulate b t => wordOf 0x84 0 [b.setWidth 16, t.word]
  | .firStep x => wordOf 0x85 0 [x]
  | .symbolMap d => wordOf 0x86 0 [d.setWidth 16]
  | .ringCapacity q => wordOf 0x88 q.code []
  | .ringFree q => wordOf 0x89 q.code []
  | .ringOccupied q => wordOf 0x8A q.code []
  | .ringPut arg => wordOf 0x8B arg.ring.code arg.words
  | .ringGet q => wordOf 0x8C q.code []
  | .ringReset q => wordOf 0x8D q.code []
  | .ringTakeOverflow q => wordOf 0x8E q.code []
  | .ioSpace => wordOf 0x90 0 []
  | .ioIsTransmitting => wordOf 0x91 0 []
  | .ioSetTransmit b => wordOf 0x92 b.toNat []
  | .ioPush mode batch => wordOf 0x93 0 (mode.setWidth 16 :: batch.flatMap Item.words)
  | .ioService rx rssi => wordOf 0x94 0 [rx, rssi]

/-- Decode either form: exactly one complete frame, or one operation word with its operands. Total, and every rejection
has a name. -/
def decode : Encoded → Except Reject Instr
  | .frame bytes => match readFrame bytes with
    | .incomplete => .error .incompleteFrame
    | .reserved opcode _ => .error (.reservedOpcode opcode)
    | .command i [] => .ok i
    | .command _ (_ :: _) => .error .trailingBytes
  | .word w operands => decodeWord w operands

/-! ## The opcode table's words (log 21) -/

/-- How many operand words an operation code takes, `osr` being the configuration's OSR (an IO_PUSH batch has `4 × OSR`
items, R223). -/
def operandWordCount (osr code field : Nat) : Nat :=
  if code = 0x84 then 2
  else if code = 0x85 then 1
  else if code = 0x86 then 1
  else if code = 0x8B then (if field < 3 then 2 else 1)
  else if code = 0x93 then 1 + 2 * (4 * osr)
  else if code = 0x94 then 2
  else 0

/-- The 16-bit word `w` of a table row, high byte first, with every operand bit zero: a frame of `len` zero operand bytes
where the high byte is a host opcode (below 0x80, R84), else an operation word with zero operands (R98). -/
def tableEncoded (osr w : Nat) : Encoded :=
  let high := w / 256 % 256
  let low := w % 256
  if high < 0x80 then .frame (BitVec.ofNat 8 high :: BitVec.ofNat 8 low :: List.replicate low 0)
  else .word (BitVec.ofNat 16 w) (List.replicate (operandWordCount osr high low) 0)

/-- The operation this decoder reads from a row's word, numbered as spec/opcode_table.json numbers it: one 16-bit word
for every row. -/
def decodeTableWord (nbits w : Nat) : Option Instr :=
  if nbits = 16 then
    match decode (tableEncoded Config.reference.osr w) with
    | .ok i => some i
    | .error _ => none
  else none

end Sys2Proof
end

