-- ==== Sys2Proof/Machine/Operands.lean ====
section
/-! DEFINITION. The operand forms of host commands (spec/30_encoding.md R83) and the ranges their rules give. Each is
`none` where the operand is outside its legal set. -/

namespace Sys2Proof.Machine

/-- `sel`: 1 means slot index 0 and 2 means slot index 1 (R83, D31). -/
def slotSelector (b : Byte) : Option Slot :=
  if b = 1 then some .slot0 else if b = 2 then some .slot1 else none

/-- `bool`: 0 = false, 1 = true (R83). -/
def boolOperand (b : Byte) : Option Bool :=
  if b = 0 then some false else if b = 1 then some true else none

/-- `s16`: two bytes, big-endian two's complement (R83). -/
def s16Operand (hi lo : Byte) : Sample := hi ++ lo

/-- `mode`: 0..3 (R91). -/
def modeOperand (b : Byte) : Option Byte := if b.toNat < atModes then some b else none

/-- `cc`: 0..15 (R92). -/
def colourOperand (b : Byte) : Option Byte := if b.toNat ≤ 15 then some b else none

/-- `ring`: 0..4 (R95). -/
def ringOperand (b : Byte) : Option RingId := ringOfCode b.toNat

/-- A trim clamped to ±TRIM_LIMIT (R242). -/
def clampTrim (v : Sample) : Sample := BitVec.ofInt 16 (clamp v.toInt (-trimLimit) trimLimit)

/-- The status byte (R82). -/
def statusCode : Status → Byte
  | .ok => 0x00
  | .illegalLength => 0x01
  | .ringFull => 0x02
  | .invalidSlot => 0x03
  | .invalidValue => 0x04
  | .unknownCommand => 0x05

end Sys2Proof.Machine
end

