-- ==== Sys2Proof/Machine/Ops.lean ====
section
/-! DEFINITION. The named operations over rings, the provisional buffer and the ports, each written once.
There is no addressable memory (spec/20_memory.md R60) and no exception entry or return (spec/60_exceptions.md R270,
R281, R282): the ring primitives stand in memory's place, and the one abnormal stop is a fault of BUILD_DATA (R274). -/

namespace Sys2Proof.Machine

/-! ## Ring primitives (spec/40_ring_buffers.md); `n` is the ring's capacity -/

/-- `RingFree(q)` (R113). -/
def RingBuf.free {α : Type} (n : Nat) (r : RingBuf α) : Nat :=
  if r.full then 0
  else if r.head = r.tail then n
  else if r.tail < r.head then n - (r.head - r.tail)
  else r.tail - r.head

/-- `RingOccupied(q) = N − RingFree(q)` (R114). -/
def RingBuf.occupied {α : Type} (n : Nat) (r : RingBuf α) : Nat := n - r.free n

/-- `RingPut(q, item)`: the ring after, and whether the item was stored (R115). -/
def RingBuf.put {α : Type} (n : Nat) (r : RingBuf α) (x : α) : RingBuf α × Bool :=
  if r.full then ({ r with overflow := true }, false)
  else
    let next := (r.head + 1) % n
    ({ r with buf := r.buf.set r.head x, head := next, full := next == r.tail }, true)

/-- `RingGet(q)`: the oldest item, if any, and the ring after (R116). A cursor outside the storage, which no run reaches
(R61), reads as an empty ring (log 11). -/
def RingBuf.get {α : Type} (n : Nat) (r : RingBuf α) : Option α × RingBuf α :=
  if r.isEmpty then (none, r)
  else
    match r.buf[r.tail]? with
    | none => (none, r)
    | some x => (some x, { r with full := false, tail := (r.tail + 1) % n })

/-- `RingReset(q)`: storage is left as it is (R117). -/
def RingBuf.reset {α : Type} (r : RingBuf α) : RingBuf α :=
  { r with head := 0, tail := 0, full := false, overflow := false }

/-- The ring after `RingTakeOverflow(q)` (R118). -/
def RingBuf.clearOverflow {α : Type} (r : RingBuf α) : RingBuf α := { r with overflow := false }

/-- Put items in order (the loops of R175 and R223). -/
def RingBuf.putAll {α : Type} (n : Nat) (r : RingBuf α) : List α → RingBuf α
  | [] => r
  | x :: xs => RingBuf.putAll n (r.put n x).1 xs

/-- The items `k` gets in a row return, in order (the loop of R153); stops on an empty ring, which R157 excludes
there. -/
def RingBuf.taken {α : Type} (n : Nat) (r : RingBuf α) : Nat → List α
  | 0 => []
  | k + 1 =>
    match (r.get n).1 with
    | none => []
    | some x => x :: RingBuf.taken n (r.get n).2 k

/-- The ring after `k` gets in a row. -/
def RingBuf.afterGets {α : Type} (n : Nat) (r : RingBuf α) : Nat → RingBuf α
  | 0 => r
  | k + 1 => RingBuf.afterGets n (r.get n).2 k

/-! ## Selecting a ring (R37) -/

/-- A sample ring of the state. -/
def State.sampleRing (s : State) : SampleRing → RingBuf Item
  | .txq => s.txq
  | .rxq => s.rxq
  | .rssiq => s.rssiq

/-- Replace a sample ring. -/
def State.withSampleRing (s : State) (q : SampleRing) (r : RingBuf Item) : State :=
  match q with
  | .txq => { s with txq := r }
  | .rxq => { s with rxq := r }
  | .rssiq => { s with rssiq := r }

/-- Replace FIFO[k]. -/
def State.withFifo (s : State) (k : Slot) (r : RingBuf Byte) : State := { s with fifo := s.fifo.set k r }

/-- `RingFree` of the ring with an id. -/
def State.ringFree (s : State) : RingId → Nat
  | .sample q => (s.sampleRing q).free (s.cfg.capacity (.sample q))
  | .fifo k => (s.fifo.get k).free (s.cfg.capacity (.fifo k))

/-- `RingOccupied` of the ring with an id. -/
def State.ringOccupied (s : State) : RingId → Nat
  | .sample q => (s.sampleRing q).occupied (s.cfg.capacity (.sample q))
  | .fifo k => (s.fifo.get k).occupied (s.cfg.capacity (.fifo k))

/-- The overflow flag of the ring with an id. -/
def State.ringOverflow (s : State) : RingId → Bool
  | .sample q => (s.sampleRing q).overflow
  | .fifo k => (s.fifo.get k).overflow

/-- `RingReset` of the ring with an id. -/
def State.resetRing (s : State) : RingId → State
  | .sample q => s.withSampleRing q (s.sampleRing q).reset
  | .fifo k => s.withFifo k (s.fifo.get k).reset

/-- The state after `RingTakeOverflow` of the ring with an id. -/
def State.clearRingOverflow (s : State) : RingId → State
  | .sample q => s.withSampleRing q (s.sampleRing q).clearOverflow
  | .fifo k => s.withFifo k (s.fifo.get k).clearOverflow

/-- `RingPut` of a sample ring. -/
def State.putSample (s : State) (q : SampleRing) (x : Item) : State :=
  s.withSampleRing q ((s.sampleRing q).put (s.cfg.capacity (.sample q)) x).1

/-! ## Ports -/

/-- Place one response on `rsp_out`: the status and, only for `Ok`, result bytes (R82). -/
def State.answer (s : State) (status : Status) (data : List Byte) : State :=
  { s with rspOut := s.rspOut ++ [statusCode status :: data] }

/-- A command that succeeds with no result bytes. -/
def State.answerOk (s : State) : State := s.answer .ok []

/-- A command that fails: its status and no effect (R241). -/
def State.fail (s : State) (status : Status) : State := s.answer status []

/-- `emit(x, t)`: drive `tx_out` (R226). -/
def State.emitOut (s : State) (x : Item) : State := { s with txOut := s.txOut ++ [x] }

/-- `ptt` equals `txOn` (R225). -/
def State.ptt (s : State) : Bool := s.txOn

/-- Record an operation's returned value (log 7). -/
def State.returned (s : State) (r : Result) : State := { s with result := r }

/-! ## The provisional output buffer -/

/-- Fill the front of `poBuf` and `poTag` with a burst and set `poLen` to its length and `poPtr` to 0; what stands
behind the burst stays (R153, R154, R160). -/
def State.loadPo (s : State) (bytes : List Byte) (tags : List Tag) (len : Nat) : State :=
  { s with
    poBuf := bytes ++ s.poBuf.drop bytes.length
    poTag := tags ++ s.poTag.drop tags.length
    poLen := len
    poPtr := 0 }

/-! ## The register map (spec/10_state.md R39) -/

/-- The codes of R22. -/
def txStateCode : TxState → Nat
  | .idle => 0
  | .slot1 => 1
  | .cach2 => 2
  | .slot2 => 3
  | .cach1 => 4
  | .calibration => 5

/-- The value of control field `no`, laid out as R39 gives it: for naming only, no command reads a field by number. Field
11 stands once per ring. DESIGN CHOICE, unsafe (log 27): bits [3:0] of field 9 while `colourCode` is unwritten, which R39
and U4 leave open, are 0 in this view. -/
def State.field (s : State) (no : Nat) (ring : RingId) : Option Nat :=
  match no with
  | 0 => some (txStateCode s.txState)
  | 1 => some s.frameCount.toNat
  | 2 => some ((s.abort.get .slot0).toNat + 2 * (s.abort.get .slot1).toNat)
  | 3 => some (s.abortCount.get .slot0).toNat
  | 4 => some (s.abortCount.get .slot1).toNat
  | 5 => some s.cachPtr.toNat
  | 6 => some s.trim3.toNat
  | 7 => some s.trim1.toNat
  | 8 => some s.atMode.toNat
  | 9 => some (match s.colourCode with | none => 0 | some cc => 16 + cc.toNat)
  | 10 => some s.txOn.toNat
  | 11 => some (s.ringOverflow ring).toNat
  | _ => none

end Sys2Proof.Machine
end

