-- ==== Sys2Proof/Machine/IoContract.lean ====
section
/-! DEFINITION. The hardware I/O contract and the sample-clock service (spec/43_io_contract.md). -/

namespace Sys2Proof.Machine

/-- `IoPush(mode, xs, ts)`: put the batch on TXQ in index order and raise `txOn`; the mode is ignored (R223, R101). -/
def State.ioPush (s : State) (_mode : Byte) (batch : List Item) : State :=
  { s with txq := s.txq.putAll s.cfg.nTx batch, txOn := true }

/-- `MODE_DMR` (R101). -/
def modeDmr : Byte := 0x01

/-- The TX half of a service step: pop TXQ, or lower `txOn` and substitute silence; deliver the item; answer its tag
(R226). -/
def State.serviceTx (s : State) : State × Tag :=
  match s.txq.get s.cfg.nTx with
  | (some x, q) => (({ s with txq := q }).emitOut x, x.tag)
  | (none, q) => (({ s with txq := q, txOn := false }).emitOut ⟨s.cfg.silence, .none⟩, .none)

/-- The RX half: the inbound sample with the popped tag, then the reading if RSSI is enabled (R226, R228). -/
def State.serviceRx (s : State) (rx rssi : Word16) (t : Tag) : State :=
  let s1 := s.putSample .rxq ⟨rx, t⟩
  if s.cfg.rssiEnabled then s1.putSample .rssiq ⟨rssi, .none⟩ else s1

/-- IO_SPACE (R221). -/
def execIoSpace (s : State) : Host.Outcome State Fault Refusal :=
  .next (s.returned (.count (s.ringFree (.sample .txq))))

/-- IO_IS_TRANSMITTING (R222). -/
def execIoIsTransmitting (s : State) : Host.Outcome State Fault Refusal :=
  .next (s.returned (.flag s.txOn))

/-- IO_SET_TRANSMIT (R224). -/
def execIoSetTransmit (b : Bool) (s : State) : Host.Outcome State Fault Refusal :=
  .next { s with txOn := b }

/-- IO_PUSH (R223; log 13). -/
def execIoPush (mode : Byte) (batch : List Item) (s : State) : Host.Outcome State Fault Refusal :=
  .next (s.ioPush mode batch)

/-- IO_SERVICE (R226). -/
def execIoService (rx rssi : Word16) (s : State) : Host.Outcome State Fault Refusal :=
  .next (s.serviceTx.1.serviceRx rx rssi s.serviceTx.2)

end Sys2Proof.Machine
end

