-- ==== Sys2Proof/Machine/Modulator.lean ====
section
/-! DEFINITION. The symbol modulator (spec/42_modulator.md): the 4-level mapper and the polyphase FIR interpolator. -/

namespace Sys2Proof.Machine

/-- Dibit `k` of a byte, most significant pair first (R191). -/
def dibit (b : Byte) (k : Nat) : BitVec 2 := b.extractLsb' (6 - 2 * k) 2

/-- `SymbolMap(d)` (R192). Under R7 clause 3 and trims in ±128 the sum fits Int16 (log 15). -/
def symbolMap (c : Config) (trim3 trim1 : Sample) (d : BitVec 2) : Sample :=
  if d = 0b11#2 then c.levelA + trim3
  else if d = 0b10#2 then c.levelB + trim1
  else if d = 0b00#2 then c.levelC - trim1
  else c.levelD - trim3

/-- The exact accumulator `Σ_t W[t] · RRC_COEF[m + t·OSR]`, t = 0..PHASE_LEN−1, over unbounded integers (R197, R199). -/
def firAcc (c : Config) (w : List Sample) (m : Nat) : Int :=
  ((List.range c.phaseLen).map fun t =>
    (w.getD t 0).toInt * (c.rrcCoef.getD (m + t * c.osr) 0).toInt).sum

/-- The OSR outputs of `FirStep(x)`, in output order j = 1..OSR (R197). -/
def firOut (c : Config) (fir : List Sample) (x : Sample) : List Sample :=
  (List.range c.osr).map fun i => sat16 (asr (firAcc c (fir ++ [x]) (c.osr - (i + 1))) 15)

/-- The delay line after `FirStep(x)`: the newest PHASE_LEN − 1 symbols (R197). -/
def firNext (fir : List Sample) (x : Sample) : List Sample := (fir ++ [x]).tail

/-- The outputs of a list of symbols filtered one after another (R194). -/
def firOutAll (c : Config) (fir : List Sample) : List Sample → List Sample
  | [] => []
  | x :: xs => firOut c fir x ++ firOutAll c (firNext fir x) xs

/-- The delay line after a list of symbols. -/
def firNextAll (fir : List Sample) : List Sample → List Sample
  | [] => fir
  | x :: xs => firNextAll (firNext fir x) xs

/-- The four symbols of a byte before the filter (R191, R192). -/
def byteSymbols (c : Config) (trim3 trim1 : Sample) (b : Byte) : List Sample :=
  [0, 1, 2, 3].map fun k => symbolMap c trim3 trim1 (dibit b k)

/-- The `4 × OSR` tags of a byte: index `2 × OSR` carries its tag, every other NONE (R195). -/
def byteTags (c : Config) (t : Tag) : List Tag :=
  (List.range c.batchLen).map fun i => if i = 2 * c.osr then t else .none

/-- The samples of `Modulate(b, t)`, each paired with its tag (R194). -/
def modulateBatch (s : State) (b : Byte) (t : Tag) : List Item :=
  List.zipWith Item.mk (firOutAll s.cfg s.fir (byteSymbols s.cfg s.trim3 s.trim1 b)) (byteTags s.cfg t)

/-- The delay line after `Modulate(b, t)`, carried to the next byte (R194, R200). -/
def modulateFir (s : State) (b : Byte) : List Sample :=
  firNextAll s.fir (byteSymbols s.cfg s.trim3 s.trim1 b)

/-- MODULATE (R194). -/
def execModulate (b : Byte) (t : Tag) (s : State) : Host.Outcome State Fault Refusal :=
  .next (({ s with fir := modulateFir s b }).returned (.batch (modulateBatch s b t)))

/-- FIR_STEP (R197). -/
def execFirStep (x : Sample) (s : State) : Host.Outcome State Fault Refusal :=
  .next (({ s with fir := firNext s.fir x }).returned (.samples (firOut s.cfg s.fir x)))

/-- SYMBOL_MAP (R192). -/
def execSymbolMap (d : BitVec 2) (s : State) : Host.Outcome State Fault Refusal :=
  .next (s.returned (.symbol (symbolMap s.cfg s.trim3 s.trim1 d)))

end Sys2Proof.Machine
end

