-- ==== Sys2Proof/Machine/Framing.lean ====
section
/-! DEFINITION. The sequencer's build and emit steps (spec/41_framing.md R150-R169). -/

namespace Sys2Proof.Machine

/-! ## The sequencer (R150, R151) -/

/-- The framing state after a build (R151); a build is never enabled in Idle (R152). -/
def nextTxState : TxState → TxState
  | .slot1 => .cach2
  | .cach2 => .slot2
  | .slot2 => .cach1
  | .cach1 => .slot1
  | .calibration => .calibration
  | .idle => .idle

/-- Write the next state, part of every build step (R151). -/
def State.advance (s : State) : State := { s with txState := nextTxState s.txState }

/-- The framing state in which BUILD_DATA k is the build (R151). -/
def dataState : Slot → TxState
  | .slot0 => .slot1
  | .slot1 => .slot2

/-- `RingFree(TXQ) > 4 × OSR` (R150, R155). -/
def State.txRoom (s : State) : Bool := s.cfg.batchLen < s.txq.free s.cfg.nTx

/-- BUILD_DATA k is enabled (R153). -/
def State.dataEnabled (s : State) (k : Slot) : Bool := s.poLen == 0 && s.txState == dataState k

/-- BUILD_CACH tx, rx is enabled: Cach2 builds (1, 0) and Cach1 builds (0, 1) (R151, R160). -/
def State.cachEnabled (s : State) (tx rx : Slot) : Bool :=
  s.poLen == 0 && ((s.txState == .cach2 && tx == .slot1 && rx == .slot0)
    || (s.txState == .cach1 && tx == .slot0 && rx == .slot1))

/-- BUILD_CAL is enabled (R154). -/
def State.calEnabled (s : State) : Bool := s.poLen == 0 && s.txState == .calibration

/-- EMIT_BYTE is enabled (R155). -/
def State.emitEnabled (s : State) : Bool := s.txState != .idle && decide (0 < s.poLen) && s.txRoom

/-- The one sequencer step that is enabled, if any (R150). -/
def State.sequencerStep (s : State) : Option Instr :=
  if s.poLen = 0 then
    match s.txState with
    | .idle => none
    | .slot1 => some (.buildData .slot0)
    | .cach2 => some (.buildCach .slot1 .slot0)
    | .slot2 => some (.buildData .slot1)
    | .cach1 => some (.buildCach .slot0 .slot1)
    | .calibration => some .buildCal
  else if s.emitEnabled then some .emitByte
  else none

/-! ## Data-burst build -/

/-- `DataReady(k)`: unsigned comparisons (R157). -/
def State.dataReady (s : State) (k : Slot) : Bool :=
  s.cfg.burstBytes ≤ (s.fifo.get k).occupied s.cfg.nFifo
    && s.cfg.startupCount ≤ s.frameCount
    && s.cfg.abortLimit ≤ s.abortCount.get k

/-- Untagged burst of `BURST_BYTES` bytes into the provisional buffer (R153, R154, R158). -/
def State.loadBurst (s : State) (bytes : List Byte) : State :=
  s.loadPo bytes (List.replicate s.cfg.burstBytes .none) s.cfg.burstBytes

/-- The data branch: exactly one burst's worth of bytes leaves FIFO[k] (R153). -/
def State.dataBranch (s : State) (k : Slot) : State :=
  let q := s.fifo.get k
  (s.withFifo k (q.afterGets s.cfg.nFifo s.cfg.burstBytes)).loadBurst (q.taken s.cfg.nFifo s.cfg.burstBytes)

/-- The idle branch with its template: the FIFO is reset only when an abort is pending, then the flag is cleared (R158,
C4). -/
def State.idleBranch (s : State) (k : Slot) (template : List Byte) : State :=
  let s1 := if s.abort.get k then s.withFifo k (s.fifo.get k).reset else s
  ({ s1 with abort := s1.abort.set k false }).loadBurst template

/-- BUILD_DATA (R153, R158, R274). -/
def execBuildData (k : Slot) (s : State) : Host.Outcome State Fault Refusal :=
  if s.dataEnabled k then
    if s.dataReady k then .next (s.dataBranch k).advance
    else
      match s.idle with
      | none => .fault (.idleTemplateUnset k)
      | some template => .next (s.idleBranch k template).advance
  else .refused .stepNotEnabled

/-! ## CACH build -/

/-- The counter increments, modulo 2^32 (R161). -/
def State.bumpCounters (s : State) : State :=
  { s with
    frameCount := s.frameCount + 1
    abortCount := ⟨s.abortCount.slot0 + 1, s.abortCount.slot1 + 1⟩ }

/-- Both FIFOs are empty (R162). -/
def State.fifosEmpty (s : State) : Bool :=
  s.ringOccupied (.fifo .slot0) == 0 && s.ringOccupied (.fifo .slot1) == 0

/-- The SLC swap, taken at cursor 0 only (R160, R162). -/
def State.slcSwap (s : State) : State :=
  if s.cachPtr = 0 then
    { s with slcLive := if s.fifosEmpty then List.replicate slcBytes 0 else s.slcPending }
  else s

/-- The access-type bit (R164); `frameCount` is the bumped value. -/
def State.accessType (s : State) (rx : Slot) : Bool :=
  if s.frameCount < s.cfg.startupCount then false
  else if suppressed s.atMode rx then false
  else 0 < s.ringOccupied (.fifo rx)

/-- The three bytes `slcLive[cachPtr .. cachPtr+2]` (R163). -/
def State.fragment (s : State) : List Byte :=
  (List.range cachBytes).map fun k => s.slcLive.getD (s.cachPtr.toNat + k) 0

/-- The tags of the three bytes (R163). -/
def cachTags (rx : Slot) : List Tag :=
  [.none, match rx with | .slot1 => .slot1 | .slot0 => .slot2, .none]

/-- The control bits of this build (R164-R166). -/
def State.cachBits (s : State) (tx rx : Slot) : ControlBits :=
  controlBits (s.accessType rx) (tcBit tx) (ls1Bit s.cachPtr) (ls0Bit s.cachPtr)

/-- `cachPtr <- (cachPtr + CACH_STEP) mod 12` (R163). -/
def nextCachPtr (p : Byte) : Byte := BitVec.ofNat 8 ((p.toNat + cachStep) % slcBytes)

/-- The CACH build after the counters and the swap: fragment, control bits, length, cursor (R160, R163-R167). -/
def State.loadCach (s : State) (tx rx : Slot) : State :=
  { s.loadPo (orControlBits s.cfg.ctrlPos (s.cachBits tx rx) s.fragment) (cachTags rx) cachBytes with
    cachPtr := nextCachPtr s.cachPtr }

/-- BUILD_CACH (R160). -/
def execBuildCach (tx rx : Slot) (s : State) : Host.Outcome State Fault Refusal :=
  if s.cachEnabled tx rx then .next (s.bumpCounters.slcSwap.loadCach tx rx).advance
  else .refused .stepNotEnabled

/-! ## Calibration and emission -/

/-- BUILD_CAL (R154). -/
def execBuildCal (s : State) : Host.Outcome State Fault Refusal :=
  if s.calEnabled then .next (s.loadBurst s.cfg.calBurst).advance
  else .refused .stepNotEnabled

/-- Move the read cursor past one byte; at the end of the burst clear `poLen` and `poPtr` (R155). -/
def State.advancePo (s : State) : State :=
  if s.poLen ≤ s.poPtr + 1 then { s with poPtr := 0, poLen := 0 } else { s with poPtr := s.poPtr + 1 }

/-- The byte at the cursor, modulated and pushed as one batch (R155). -/
def State.emitCurrent (s : State) : State :=
  let b := s.poBuf.getD s.poPtr 0
  let t := s.poTag.getD s.poPtr .none
  (({ s with fir := modulateFir s b }).ioPush modeDmr (modulateBatch s b t)).advancePo

/-- EMIT_BYTE (R155). -/
def execEmitByte (s : State) : Host.Outcome State Fault Refusal :=
  if s.emitEnabled then .next s.emitCurrent else .refused .stepNotEnabled

end Sys2Proof.Machine
end

