-- ==== Sys2Proof/Machine/HostConfig.lean ====
section
/-! DEFINITION. The configuration and read-back host commands (spec/44_host_commands.md R242-R248). Checks in the order
of spec/30_encoding.md R96. -/

namespace Sys2Proof.Machine

/-- SET_SYMLVL (R242). -/
def execSetSymlvl (operands : List Byte) (s : State) : Host.Outcome State Fault Refusal :=
  .next (match operands with
    | [h3, l3, h1, l1] =>
      ({ s with trim3 := clampTrim (s16Operand h3 l3), trim1 := clampTrim (s16Operand h1 l1) }).answerOk
    | _ => s.fail .illegalLength)

/-- SET_AT_SUPP (R243). -/
def execSetAtSupp (operands : List Byte) (s : State) : Host.Outcome State Fault Refusal :=
  .next (match operands with
    | [mode] => match modeOperand mode with
      | none => s.fail .invalidValue
      | some m => ({ s with atMode := m }).answerOk
    | _ => s.fail .illegalLength)

/-- SET_COLOR_CODE (R244). -/
def execSetColorCode (operands : List Byte) (s : State) : Host.Outcome State Fault Refusal :=
  .next (match operands with
    | [code] => match colourOperand code with
      | none => s.fail .invalidValue
      | some cc => ({ s with idle := some (s.cfg.idleTemplate cc), colourCode := some cc }).answerOk
    | _ => s.fail .illegalLength)

/-- READ_FREE_SPACE (R245). -/
def execReadFreeSpace (operands : List Byte) (s : State) : Host.Outcome State Fault Refusal :=
  .next (match operands with
    | [sel] => match slotSelector sel with
      | none => s.fail .invalidSlot
      | some k => s.answer .ok (be32 (BitVec.ofNat 32 (s.ringFree (.fifo k))))
    | _ => s.fail .illegalLength)

/-- READ_FRAME_COUNT (R246). -/
def execReadFrameCount (operands : List Byte) (s : State) : Host.Outcome State Fault Refusal :=
  .next (match operands with
    | [] => s.answer .ok (be32 s.frameCount)
    | _ => s.fail .illegalLength)

/-- POLL_OVERFLOW (R247). -/
def execPollOverflow (operands : List Byte) (s : State) : Host.Outcome State Fault Refusal :=
  .next (match operands with
    | [ring] => match ringOperand ring with
      | none => s.fail .invalidValue
      | some q => (s.clearRingOverflow q).answer .ok [if s.ringOverflow q then 0x01 else 0x00]
    | _ => s.fail .illegalLength)

/-- A frame with a reserved opcode: `UnknownCommand` and no other effect (R248). -/
def answerReserved (s : State) : Host.Outcome State Fault Refusal := .next (s.fail .unknownCommand)

end Sys2Proof.Machine
end

