-- ==== Sys2Proof/Machine/HostFraming.lean ====
section
/-! DEFINITION. The host commands that act on the framing state (spec/41_framing.md R170-R178). Checks in the order of
spec/30_encoding.md R96. -/

namespace Sys2Proof.Machine

/-- Enqueue one burst for slot k, or reset its FIFO where there is no room; leave Idle for Slot1 (R175). -/
def State.writeBurst (s : State) (k : Slot) (payload : List Byte) : State :=
  if (s.fifo.get k).free s.cfg.nFifo < s.cfg.burstBytes then
    (s.withFifo k (s.fifo.get k).reset).fail .ringFull
  else
    ({ s.withFifo k ((s.fifo.get k).putAll s.cfg.nFifo payload) with
        txState := if s.txState = TxState.idle then .slot1 else s.txState }).answerOk

/-- WRITE_SLOT_DATA (R175). -/
def execWriteSlotData (operands : List Byte) (s : State) : Host.Outcome State Fault Refusal :=
  .next (match operands with
    | [] => s.fail .illegalLength
    | sel :: payload =>
      if payload.length ≠ s.cfg.burstBytes then s.fail .illegalLength
      else match slotSelector sel with
        | none => s.fail .invalidSlot
        | some k => s.writeBurst k payload)

/-- The pending payload of 68 input bits: input bit i goes to stream bit `table[i]` of a cleared 12-byte payload
(R170). -/
def scatterSlc (table : List Nat) (d : List Byte) : List Byte :=
  (List.range slcBits).foldl (fun p i => writeBit p (table.getD i 0) (readBit d i)) (List.replicate slcBytes 0)

/-- WRITE_SHORT_LC (R170). -/
def execWriteShortLc (operands : List Byte) (s : State) : Host.Outcome State Fault Refusal :=
  .next (if operands.length ≠ 9 then s.fail .illegalLength
    else ({ s with slcPending := scatterSlc s.cfg.slcInterleave operands }).answerOk)

/-- WRITE_ABORT (R176). -/
def execWriteAbort (operands : List Byte) (s : State) : Host.Outcome State Fault Refusal :=
  .next (match operands with
    | [sel] => match slotSelector sel with
      | none => s.fail .invalidSlot
      | some k => ({ s with abort := s.abort.set k true, abortCount := s.abortCount.set k 0 }).answerOk
    | _ => s.fail .illegalLength)

/-- START (R177). -/
def execStart (operands : List Byte) (s : State) : Host.Outcome State Fault Refusal :=
  .next (match operands with
    | [b] => match boolOperand b with
      | none => s.fail .invalidValue
      | some on => ({ s with
          txState := if on then .slot1 else .idle
          frameCount := 0
          abort := ⟨false, false⟩
          abortCount := ⟨0, 0⟩ }).answerOk
    | _ => s.fail .illegalLength)

/-- SET_CAL (R178). -/
def execSetCal (operands : List Byte) (s : State) : Host.Outcome State Fault Refusal :=
  .next (match operands with
    | [b] => match boolOperand b with
      | none => s.fail .invalidValue
      | some on => ({ s with txState := if on then .calibration else .idle }).answerOk
    | _ => s.fail .illegalLength)

end Sys2Proof.Machine
end

