-- ==== Sys2Proof/Machine/RingOps.lean ====
section
/-! DEFINITION. The ring operations of spec/40_ring_buffers.md R112-R118, each on the ring its id names. Their returned
value is recorded in `result` (log 7). -/

namespace Sys2Proof.Machine

/-- RING_CAPACITY (R112). -/
def execRingCapacity (q : RingId) (s : State) : Host.Outcome State Fault Refusal :=
  .next (s.returned (.count (s.cfg.capacity q)))

/-- RING_FREE (R113). -/
def execRingFree (q : RingId) (s : State) : Host.Outcome State Fault Refusal :=
  .next (s.returned (.count (s.ringFree q)))

/-- RING_OCCUPIED (R114). -/
def execRingOccupied (q : RingId) (s : State) : Host.Outcome State Fault Refusal :=
  .next (s.returned (.count (s.ringOccupied q)))

/-- RING_PUT (R115). -/
def execRingPut (arg : PutArg) (s : State) : Host.Outcome State Fault Refusal :=
  .next (match arg with
    | .sample q x =>
      let put := (s.sampleRing q).put (s.cfg.capacity (.sample q)) x
      (s.withSampleRing q put.1).returned (.flag put.2)
    | .fifo k b =>
      let put := (s.fifo.get k).put (s.cfg.capacity (.fifo k)) b
      (s.withFifo k put.1).returned (.flag put.2))

/-- RING_GET (R116). -/
def execRingGet (q : RingId) (s : State) : Host.Outcome State Fault Refusal :=
  .next (match q with
    | .sample r =>
      let got := (s.sampleRing r).get (s.cfg.capacity (.sample r))
      (s.withSampleRing r got.2).returned (.item got.1)
    | .fifo k =>
      let got := (s.fifo.get k).get (s.cfg.capacity (.fifo k))
      (s.withFifo k got.2).returned (.byte got.1))

/-- RING_RESET (R117). -/
def execRingReset (q : RingId) (s : State) : Host.Outcome State Fault Refusal :=
  .next (s.resetRing q)

/-- RING_TAKE_OVERFLOW (R118). -/
def execRingTakeOverflow (q : RingId) (s : State) : Host.Outcome State Fault Refusal :=
  .next ((s.clearRingOverflow q).returned (.flag (s.ringOverflow q)))

end Sys2Proof.Machine
end

