-- ==== Sys2Proof/Machine/Dispatch.lean ====
section
/-! DEFINITION. One arm per constructor of Instr: each calls its meaning. -/

namespace Sys2Proof.Machine

/-- The meaning of one operation, executed as one indivisible step (spec/20_memory.md R70). -/
def exec (i : Instr) (s : State) : Host.Outcome State Fault Refusal :=
  match i with
  | .writeSlotData operands => Sys2Proof.Machine.execWriteSlotData operands s
  | .writeShortLc operands => Sys2Proof.Machine.execWriteShortLc operands s
  | .writeAbort operands => Sys2Proof.Machine.execWriteAbort operands s
  | .start operands => Sys2Proof.Machine.execStart operands s
  | .setCal operands => Sys2Proof.Machine.execSetCal operands s
  | .setSymlvl operands => Sys2Proof.Machine.execSetSymlvl operands s
  | .setAtSupp operands => Sys2Proof.Machine.execSetAtSupp operands s
  | .setColorCode operands => Sys2Proof.Machine.execSetColorCode operands s
  | .readFreeSpace operands => Sys2Proof.Machine.execReadFreeSpace operands s
  | .readFrameCount operands => Sys2Proof.Machine.execReadFrameCount operands s
  | .pollOverflow operands => Sys2Proof.Machine.execPollOverflow operands s
  | .buildData k => Sys2Proof.Machine.execBuildData k s
  | .buildCach tx rx => Sys2Proof.Machine.execBuildCach tx rx s
  | .buildCal => Sys2Proof.Machine.execBuildCal s
  | .emitByte => Sys2Proof.Machine.execEmitByte s
  | .modulate b t => Sys2Proof.Machine.execModulate b t s
  | .firStep x => Sys2Proof.Machine.execFirStep x s
  | .symbolMap d => Sys2Proof.Machine.execSymbolMap d s
  | .ringCapacity q => Sys2Proof.Machine.execRingCapacity q s
  | .ringFree q => Sys2Proof.Machine.execRingFree q s
  | .ringOccupied q => Sys2Proof.Machine.execRingOccupied q s
  | .ringPut arg => Sys2Proof.Machine.execRingPut arg s
  | .ringGet q => Sys2Proof.Machine.execRingGet q s
  | .ringReset q => Sys2Proof.Machine.execRingReset q s
  | .ringTakeOverflow q => Sys2Proof.Machine.execRingTakeOverflow q s
  | .ioSpace => Sys2Proof.Machine.execIoSpace s
  | .ioIsTransmitting => Sys2Proof.Machine.execIoIsTransmitting s
  | .ioSetTransmit b => Sys2Proof.Machine.execIoSetTransmit b s
  | .ioPush mode batch => Sys2Proof.Machine.execIoPush mode batch s
  | .ioService rx rssi => Sys2Proof.Machine.execIoService rx rssi s

end Sys2Proof.Machine
end

