-- ==== Sys2Proof/Machine/Fetch.lean ====
section
/-! DEFINITION. What one step runs: the next turn of the schedule, and the operation that turn takes (spec/00_scope.md R5,
spec/20_memory.md R69, spec/41_framing.md R150, spec/44_host_commands.md R240). The block executes no stored program
(spec/10_state.md R21): the host's frames and the sequencer's `state`, `poLen` and `poPtr` select what runs. -/

namespace Sys2Proof.Machine

/-- The turn that comes next and the state without it: the oldest placed turn, or a free one (log 3). -/
def State.nextTurn (s : State) : Turn × State :=
  match s.sched with
  | t :: rest => (t, { s with sched := rest })
  | [] => (.agent (Config.freeTurn s.freeCount), { s with freeCount := s.freeCount + 1 })

/-- The main context executes the first complete frame of `cmd_in`; an incomplete one has no effect (R240, R248; log 4). -/
def runCommand (s : State) : Host.Outcome State Fault Refusal :=
  match readFrame s.cmdIn with
  | .incomplete => .next s
  | .reserved _ rest => answerReserved { s with cmdIn := rest }
  | .command i rest => exec i { s with cmdIn := rest }

/-- The main context takes the sequencer's enabled step; with none enabled its turn passes (R150, R152; log 4). -/
def runSequencer (s : State) : Host.Outcome State Fault Refusal :=
  match s.sequencerStep with
  | none => .next s
  | some i => exec i s

/-- The ring an inbound name stands for (R229). -/
def inboundRing : InboundRing → RingId
  | .rxq => .sample .rxq
  | .rssiq => .sample .rssiq

/-- One turn of an agent (R5). -/
def runAgent (a : AgentTurn) (s : State) : Host.Outcome State Fault Refusal :=
  match a with
  | .arrive bytes => .next { s with cmdIn := s.cmdIn ++ bytes }
  | .command => runCommand s
  | .sequencer => runSequencer s
  | .service rx rssi => exec (.ioService rx rssi) s
  | .receive q => exec (.ringGet (inboundRing q)) s

/-- One turn: an agent's, or an issued operation word (R97, log 12). -/
def runTurn (t : Turn) (s : State) : Host.Outcome State Fault Refusal :=
  match t with
  | .agent a => runAgent a s
  | .issue w operands =>
    match decodeWord w operands with
    | .ok i => exec i s
    | .error _ => .refused .noSuchOperation

/-- One step: an ill-formed configuration is refused before anything runs (R7, R276); otherwise the next turn is taken. -/
def runStep (s : State) : Host.Outcome State Fault Refusal :=
  if s.cfg.wf then runTurn s.nextTurn.1 s.nextTurn.2 else .refused .illFormedConfiguration

/-- The turn that runs an encoded operation. -/
def turnOf : Encoded → Turn
  | .frame _ => .agent .command
  | .word w operands => .issue w operands

/-- Set what the sequencer selects a build or emit step by (R21): the framing state, and an empty or non-empty
provisional buffer. Other operations need nothing (log 22). -/
def State.selectStep (s : State) (high low : Nat) : State :=
  if high = 0x80 then
    { s with txState := if low = 0 then .slot1 else .slot2, poLen := 0, poPtr := 0 }
  else if high = 0x81 then
    { s with txState := if low = 2 then .cach2 else .cach1, poLen := 0, poPtr := 0 }
  else if high = 0x82 then { s with txState := .calibration, poLen := 0, poPtr := 0 }
  else if high = 0x83 then
    let s1 := if s.txState = .idle then { s with txState := .slot1 } else s
    if s1.poLen = 0 then { s1 with poLen := cachBytes, poPtr := 0 } else s1
  else s

/-- Place a table row's word where the next step takes it: a frame in front of `cmd_in`, or an issued word, and its turn
in front of the schedule (log 21, log 22). -/
def State.placeWord (s : State) (w : Nat) : State :=
  let e := tableEncoded s.cfg.osr w
  let s1 := { s.selectStep (w / 256 % 256) (w % 256) with sched := turnOf e :: s.sched }
  match e with
  | .frame bytes => { s1 with cmdIn := bytes ++ s.cmdIn }
  | .word _ _ => s1

end Sys2Proof.Machine
end

