-- ==== Sys2Proof/Machine/Step.lean ====
section
/-! DEFINITION. One step of the machine. -/

namespace Sys2Proof.Machine

/-- One step: the next turn is taken, under a well-formed configuration (spec/60_exceptions.md R276). -/
def step (s : State) : Host.Outcome State Fault Refusal := runStep s

/-- `s` with the operation of a table row's word placed so that the very next step runs it (log 21, log 22). -/
def State.withFetchWord (s : State) (nbits w : Nat) : State :=
  if nbits = 16 then s.placeWord w else s

end Sys2Proof.Machine
end

