-- ==== Sys2Proof/Safety.lean ====
section
/-! DEFINITION. What a sound state is: the invariants of spec/10_state.md R43 with the shapes R22-R37 give the fields, and
the boot contract of spec/70_reset_and_hazards.md R306. -/

namespace Sys2Proof.Machine

/-- A ring of capacity `n` (R36, R111): storage of `n` items, cursors in range, and `full` only where the cursors
meet. -/
def RingBuf.Wf {α : Type} (n : Nat) (r : RingBuf α) : Prop :=
  r.buf.length = n ∧ r.head < n ∧ r.tail < n ∧ (r.full = true → r.head = r.tail)

/-- The number of stored items, by the cursors alone. -/
def RingBuf.count {α : Type} (n : Nat) (r : RingBuf α) : Nat :=
  if r.full then n else (r.head + n - r.tail) % n

/-- The stored items, oldest first: what the gets that follow will return (R72). -/
def RingBuf.items {α : Type} (n : Nat) (r : RingBuf α) : List α :=
  (List.range (r.count n)).filterMap fun i => r.buf[(r.tail + i) % n]?

/-- A trim in [−128, 128] (R29). -/
def trimOk (t : Sample) : Prop := -128 ≤ t.toInt ∧ t.toInt ≤ 128

/-- The provisional buffer (R33). -/
def State.PoWf (s : State) : Prop :=
  s.poBuf.length = s.cfg.burstBytes ∧ s.poTag.length = s.cfg.burstBytes
    ∧ (s.poLen = 0 ∨ s.poLen = cachBytes ∨ s.poLen = s.cfg.burstBytes)
    ∧ (s.poLen = 0 → s.poPtr = 0) ∧ (0 < s.poLen → s.poPtr < s.poLen)

/-- The five rings (R36, R37). -/
def State.RingsWf (s : State) : Prop :=
  s.txq.Wf s.cfg.nTx ∧ s.rxq.Wf s.cfg.nRx ∧ s.rssiq.Wf s.cfg.nRssi
    ∧ s.fifo.slot0.Wf s.cfg.nFifo ∧ s.fifo.slot1.Wf s.cfg.nFifo

/-- The registers in their legal sets (R26-R34). -/
def State.RegsWf (s : State) : Prop :=
  (s.cachPtr = 0 ∨ s.cachPtr = 3 ∨ s.cachPtr = 6 ∨ s.cachPtr = 9)
    ∧ trimOk s.trim3 ∧ trimOk s.trim1 ∧ s.atMode.toNat < atModes
    ∧ s.slcLive.length = slcBytes ∧ s.slcPending.length = slcBytes
    ∧ s.fir.length = s.cfg.phaseLen - 1
    ∧ (∀ cc ∈ s.colourCode, cc.toNat ≤ 15)
    ∧ (∀ template ∈ s.idle, template.length = s.cfg.burstBytes)
    ∧ (s.idle.isSome = s.colourCode.isSome)

/-- The invariant of the block: a well-formed configuration and R43. -/
def State.Inv (s : State) : Prop := s.cfg.wf = true ∧ s.RingsWf ∧ s.PoWf ∧ s.RegsWf

/-- The boot contract of R306, steps 1 and 2: a well-formed configuration and a written idle template. -/
def State.Booted (s : State) : Prop := s.cfg.wf = true ∧ s.idle.isSome = true

/-- The next step is one an agent of R5 takes by itself: no operation word has been issued in its place (log 12). -/
def State.AgentNext (s : State) : Prop := ∀ w operands, s.nextTurn.1 ≠ .issue w operands

/-- TXQ keeps at least one free item and has never lost one (R156, R311). -/
def State.TxSafe (s : State) : Prop := s.txq.full = false ∧ s.txq.overflow = false


end Sys2Proof.Machine
end

