-- ==== Sys2Proof/Certificates/Slice0/Obligations.lean ====
section
/-! DEFINITION. The statements for the provers, each from numbered rules of spec/. -/

namespace Sys2Proof.Claims

open Sys2Proof Sys2Proof.Machine

/-- The items a ring holds, oldest first, whatever ring it is: as a number. -/
def stored (s : State) : RingId → Nat
  | .sample q => ((s.sampleRing q).items (s.cfg.capacity (.sample q))).length
  | .fifo k => ((s.fifo.get k).items (s.cfg.capacity (.fifo k))).length

/-- What FIFO[k] holds, oldest first. -/
def queued (s : State) (k : Slot) : List Byte := (s.fifo.get k).items s.cfg.nFifo

/-- What TXQ holds, oldest first. -/
def txItems (s : State) : List Item := s.txq.items s.cfg.nTx

/-- A ring with its cursors at 0 and both flags clear, its storage as it was (R117). -/
def emptied {α : Type} (r : RingBuf α) : RingBuf α :=
  { r with head := 0, tail := 0, full := false, overflow := false }

/-- The operations on one ring (R115-R118), for the refinement to a queue. -/
inductive QueueOp (α : Type) where
  | put (x : α)
  | get
  | reset
  | takeOverflow

/-- What such an operation returns. -/
inductive QueueResult (α : Type) where
  | stored (b : Bool)
  | got (x : Option α)
  | done
  | took (b : Bool)

/-- One operation on a ring of capacity `n`. -/
def ringStep {α : Type} (n : Nat) (r : RingBuf α) : QueueOp α → QueueResult α × RingBuf α
  | .put x => (.stored (r.put n x).2, (r.put n x).1)
  | .get => (.got (r.get n).1, (r.get n).2)
  | .reset => (.done, r.reset)
  | .takeOverflow => (.took r.overflow, r.clearOverflow)

/-- One operation on the abstract queue: a list of at most `n` items and a lost-item latch. -/
def queueStep {α : Type} (n : Nat) (q : List α × Bool) : QueueOp α → QueueResult α × (List α × Bool)
  | .put x => if q.1.length < n then (.stored true, (q.1 ++ [x], q.2)) else (.stored false, (q.1, true))
  | .get => (.got q.1.head?, (q.1.tail, q.2))
  | .reset => (.done, ([], false))
  | .takeOverflow => (.took q.2, (q.1, false))

/-- The results of a sequence of operations on a ring. -/
def ringRun {α : Type} (n : Nat) (r : RingBuf α) : List (QueueOp α) → List (QueueResult α)
  | [] => []
  | op :: ops => (ringStep n r op).1 :: ringRun n (ringStep n r op).2 ops

/-- The results of a sequence of operations on the abstract queue. -/
def queueRun {α : Type} (n : Nat) (q : List α × Bool) : List (QueueOp α) → List (QueueResult α)
  | [] => []
  | op :: ops => (queueStep n q op).1 :: queueRun n (queueStep n q op).2 ops

/-- The words of R98's map. -/
def listedWords : List Nat :=
  [0x8000, 0x8001, 0x8101, 0x8102, 0x8200, 0x8300, 0x8400, 0x8500, 0x8600]
    ++ [0x8800, 0x8801, 0x8802, 0x8803, 0x8804, 0x8900, 0x8901, 0x8902, 0x8903, 0x8904]
    ++ [0x8A00, 0x8A01, 0x8A02, 0x8A03, 0x8A04, 0x8B00, 0x8B01, 0x8B02, 0x8B03, 0x8B04]
    ++ [0x8C00, 0x8C01, 0x8C02, 0x8C03, 0x8C04, 0x8D00, 0x8D01, 0x8D02, 0x8D03, 0x8D04]
    ++ [0x8E00, 0x8E01, 0x8E02, 0x8E03, 0x8E04, 0x9000, 0x9100, 0x9200, 0x9201, 0x9300, 0x9400]

/-- The ring ids of R37. -/
def ringIds : List (Word16 × RingId) :=
  [(0, .sample .txq), (1, .sample .rxq), (2, .sample .rssiq), (3, .fifo .slot0), (4, .fifo .slot1)]

/-- The operations that put on a ring: RING_PUT, the ring's producer of R37. -/
def putsOn (i : Instr) (q : RingId) : Prop :=
  (∃ arg, i = .ringPut arg ∧ arg.ring = q)
    ∨ (q = .sample .txq ∧ (i = .emitByte ∨ ∃ mode batch, i = .ioPush mode batch))
    ∨ ((q = .sample .rxq ∨ q = .sample .rssiq) ∧ ∃ rx rssi, i = .ioService rx rssi)
    ∨ ∃ k sel p, q = .fifo k ∧ i = .writeSlotData (sel :: p) ∧ sel.toNat = k.index + 1

/-- The operations that get from a ring: RING_GET, the ring's consumer of R37. -/
def getsFrom (i : Instr) (q : RingId) : Prop :=
  i = .ringGet q ∨ (q = .sample .txq ∧ ∃ rx rssi, i = .ioService rx rssi) ∨ ∃ k, q = .fifo k ∧ i = .buildData k

/-- The operations that reset a ring: RING_RESET, and what R37's last column names. -/
def resetsRing (i : Instr) (q : RingId) : Prop :=
  i = .ringReset q
    ∨ ∃ k, q = .fifo k ∧ (i = .buildData k ∨ ∃ sel p, i = .writeSlotData (sel :: p) ∧ sel.toNat = k.index + 1)

/-- The operations that take a ring's overflow flag (R118, R247). -/
def takesOverflow (i : Instr) (q : RingId) : Prop :=
  i = .ringTakeOverflow q ∨ ∃ b, i = .pollOverflow [b] ∧ b.toNat = q.code

/-- The build steps (R151). -/
def isBuild (i : Instr) : Prop := (∃ k, i = .buildData k) ∨ (∃ tx rx, i = .buildCach tx rx) ∨ i = .buildCal

/-- The cursors and flags of a ring, whatever its item type (R36). -/
structure RingRegs where
  head : Nat
  tail : Nat
  full : Bool
  overflow : Bool

/-- The cursors and flags of one ring. -/
def ringRegsOf {α : Type} (r : RingBuf α) : RingRegs := ⟨r.head, r.tail, r.full, r.overflow⟩

/-- The cursors and flags of the ring with an id. -/
def ringRegs (s : State) : RingId → RingRegs
  | .sample q => ringRegsOf (s.sampleRing q)
  | .fifo k => ringRegsOf (s.fifo.get k)

/-- A host command, whatever its operands. -/
def isHostCommand (i : Instr) : Prop := ∃ op ops, hostCommand op ops = some i

/-- The idle branch of a data build has a pending abort to serve or not: what it leaves in FIFO[k] (R158). -/
def fifoAfterIdle (s : State) (k : Slot) : RingBuf Byte :=
  if s.abort.get k = true then emptied (s.fifo.get k)
  else s.fifo.get k

/-- R157's condition in the spec's words: a whole burst queued, warmed up, aged out. -/
def dataReady (s : State) (k : Slot) : Prop :=
  s.cfg.burstBytes ≤ (queued s k).length ∧ s.cfg.startupCount.toNat ≤ s.frameCount.toNat
    ∧ s.cfg.abortLimit.toNat ≤ (s.abortCount.get k).toNat

/-- The framing state in which a data build for slot k is due (R151). -/
def dueState : Slot → TxState
  | .slot0 => .slot1
  | .slot1 => .slot2

/-- The state a data build leaves (R151). -/
def stateAfterData : Slot → TxState
  | .slot0 => .cach2
  | .slot1 => .cach1

/-- The prototype impulse response `h`, the stored table reversed (R196). -/
def prototype (c : Config) (m : Nat) : Int := (c.rrcCoef.getD (c.osr * c.phaseLen - 1 - m) 0).toInt

/-- The samples a run of FIR_STEPs returns, from a state on: each step's result behind the ones before it. -/
def firRun (s : State) : List Sample → List Sample
  | [] => []
  | x :: xs =>
    match exec (.firStep x) s with
    | .next t => (match t.result with
      | .samples ys => ys
      | _ => []) ++ firRun t xs
    | _ => []

/-- Symbol `n − q` of a stream that started at reset, 0 before it (R198). -/
def symbolBefore (xs : List Sample) (n q : Nat) : Int := if q ≤ n then (xs.getD (n - q) 0).toInt else 0

/-- Bytes `3k .. 3k+2` of a 12-byte payload. -/
def fragmentAt (p : List Byte) (k : Nat) : List Byte := [p.getD (3 * k) 0, p.getD (3 * k + 1) 0, p.getD (3 * k + 2) 0]

/-- A command's answer that changes nothing else (R241). -/
def answered (s : State) (rsp : List Byte) : State := { s with rspOut := s.rspOut ++ [rsp] }

/-- A UInt32 as four bytes, most significant first (R63). -/
def bigEndian (v : Nat) : List Byte :=
  [BitVec.ofNat 8 (v / 2 ^ 24), BitVec.ofNat 8 (v / 2 ^ 16), BitVec.ofNat 8 (v / 2 ^ 8), BitVec.ofNat 8 v]

/-- The value of a big-endian two's complement `s16` operand (R83). -/
def s16Value (hi lo : Byte) : Int :=
  if hi.toNat < 128 then (256 * hi.toNat + lo.toNat : Int) else (256 * hi.toNat + lo.toNat : Int) - 65536

end Sys2Proof.Claims

open Sys2Proof Sys2Proof.Machine Sys2Proof.Claims

/-! ## Encodings -/

/-- R81, R84-R95, R98, R99: every operation that can be written decodes from its written form, with every operand. The
layout of operand words beside an operation word is the model's choice (log 6). -/
def Obligations.DecodeInvertsEncode : Prop :=
  ∀ i : Instr, i.wf = true → decode (encode i) = .ok i

/-- R81, R97, R98: what decodes is written in one way only. For MODULATE, FIR_STEP, SYMBOL_MAP, RING_PUT, IO_PUSH and
IO_SERVICE this rests on the model's layout of operand words, their order and their upper bits 0 (log 6). -/
def Obligations.EncodeInvertsDecode : Prop :=
  ∀ (e : Encoded) (i : Instr), decode e = .ok i → encode i = e ∧ i.wf = true

/-- R84, R98, R37: the two maps, row by row. Every host opcode selects its command, whatever its operand bytes; every
listed word names its operation. Where a word comes with operand words (MODULATE, FIR_STEP, SYMBOL_MAP, RING_PUT, IO_PUSH,
IO_SERVICE) their layout is the model's choice (log 6). -/
def Obligations.WordsOfTheSpecDecode : Prop :=
  (∀ ops : List Byte, ops.length ≤ 255 →
      let frame (op : Byte) : Encoded := .frame (op :: BitVec.ofNat 8 ops.length :: ops)
      decode (frame 0x01) = .ok (.writeSlotData ops)
      ∧ decode (frame 0x02) = .ok (.writeShortLc ops)
      ∧ decode (frame 0x03) = .ok (.writeAbort ops)
      ∧ decode (frame 0x04) = .ok (.start ops)
      ∧ decode (frame 0x05) = .ok (.setCal ops)
      ∧ decode (frame 0x06) = .ok (.setSymlvl ops)
      ∧ decode (frame 0x07) = .ok (.setAtSupp ops)
      ∧ decode (frame 0x08) = .ok (.setColorCode ops)
      ∧ decode (frame 0x09) = .ok (.readFreeSpace ops)
      ∧ decode (frame 0x0A) = .ok (.readFrameCount ops)
      ∧ decode (frame 0x0B) = .ok (.pollOverflow ops))
    ∧ decode (.word 0x8000 []) = .ok (.buildData .slot0)
    ∧ decode (.word 0x8001 []) = .ok (.buildData .slot1)
    ∧ decode (.word 0x8101 []) = .ok (.buildCach .slot0 .slot1)
    ∧ decode (.word 0x8102 []) = .ok (.buildCach .slot1 .slot0)
    ∧ decode (.word 0x8200 []) = .ok .buildCal
    ∧ decode (.word 0x8300 []) = .ok .emitByte
    ∧ decode (.word 0x8400 [0xB4, 0x08]) = .ok (.modulate 0xB4 .slot1)
    ∧ (∀ x, decode (.word 0x8500 [x]) = .ok (.firStep x))
    ∧ decode (.word 0x8600 [2]) = .ok (.symbolMap 0b10#2)
    ∧ (∀ p ∈ ringIds,
        decode (.word (0x8800 + p.1) []) = .ok (.ringCapacity p.2)
        ∧ decode (.word (0x8900 + p.1) []) = .ok (.ringFree p.2)
        ∧ decode (.word (0x8A00 + p.1) []) = .ok (.ringOccupied p.2)
        ∧ decode (.word (0x8C00 + p.1) []) = .ok (.ringGet p.2)
        ∧ decode (.word (0x8D00 + p.1) []) = .ok (.ringReset p.2)
        ∧ decode (.word (0x8E00 + p.1) []) = .ok (.ringTakeOverflow p.2))
    ∧ (∀ v, decode (.word 0x8B00 [v, 0x08]) = .ok (.ringPut (.sample .txq ⟨v, .slot1⟩))
        ∧ decode (.word 0x8B01 [v, 0x04]) = .ok (.ringPut (.sample .rxq ⟨v, .slot2⟩))
        ∧ decode (.word 0x8B02 [v, 0x00]) = .ok (.ringPut (.sample .rssiq ⟨v, .none⟩)))
    ∧ decode (.word 0x8B03 [0x5F]) = .ok (.ringPut (.fifo .slot0 0x5F))
    ∧ decode (.word 0x8B04 [0x5F]) = .ok (.ringPut (.fifo .slot1 0x5F))
    ∧ decode (.word 0x9000 []) = .ok .ioSpace
    ∧ decode (.word 0x9100 []) = .ok .ioIsTransmitting
    ∧ decode (.word 0x9200 []) = .ok (.ioSetTransmit false)
    ∧ decode (.word 0x9201 []) = .ok (.ioSetTransmit true)
    ∧ (∀ v u, decode (.word 0x9300 [0x01, v, 0x00, u, 0x04]) = .ok (.ioPush 0x01 [⟨v, .none⟩, ⟨u, .slot2⟩]))
    ∧ (∀ rx rssi, decode (.word 0x9400 [rx, rssi]) = .ok (.ioService rx rssi))

/-- R97, R98: a word names an operation exactly when it is listed; any other is refused. -/
def Obligations.ListedWordsAloneDecode : Prop :=
  ∀ w : Word16, (∃ operands i, decodeWord w operands = .ok i) ↔ w.toNat ∈ listedWords

/-- R81, R240: byte 1 alone tells a frame's length, whatever the opcode; the operand bytes are taken verbatim and what
stands behind the frame is left; a shorter input is no frame yet. -/
def Obligations.LenByteFramesTheCommand : Prop :=
  (∀ (op : Byte) (ops rest : List Byte), ops.length ≤ 255 →
      readFrame (op :: BitVec.ofNat 8 ops.length :: (ops ++ rest)) =
        match hostCommand op ops with
        | some i => .command i rest
        | none => .reserved op rest)
    ∧ (∀ (op len : Byte) (bytes : List Byte), bytes.length < len.toNat → readFrame (op :: len :: bytes) = .incomplete)
    ∧ (∀ bytes : List Byte, bytes.length < 2 → readFrame bytes = .incomplete)

/-- R96, R284: opcodes 0x00 and 0x0C to 0xFF are reserved, the codes of operation words among them; no other is. -/
def Obligations.ReservedOpcodesNameNoCommand : Prop :=
  ∀ (op : Byte) (ops : List Byte), hostCommand op ops = none ↔ (op.toNat = 0x00 ∨ 0x0C ≤ op.toNat)

/-! ## What a step runs -/

/-- R240: the step of a `command` turn is the meaning of the first complete frame, in the state with the turn and the
frame taken off. -/
def Obligations.StepRunsTheFirstFrame : Prop :=
  ∀ (s : State) (turns : List Turn) (i : Instr) (rest : List Byte),
    s.cfg.wf = true → s.sched = .agent .command :: turns → readFrame s.cmdIn = .command i rest →
      step s = exec i { s with sched := turns, cmdIn := rest }

/-- R248, R240: a reserved opcode is answered `05` and its frame is dropped, with no other effect; a partial frame has
no effect (the model's turn passes, log 4). -/
def Obligations.StepAnswersReservedAndWaitsForPartial : Prop :=
  (∀ (s : State) (turns : List Turn) (op : Byte) (rest : List Byte),
      s.cfg.wf = true → s.sched = .agent .command :: turns → readFrame s.cmdIn = .reserved op rest →
        step s = .next { s with sched := turns, cmdIn := rest, rspOut := s.rspOut ++ [[0x05]] })
    ∧ (∀ (s : State) (turns : List Turn),
        s.cfg.wf = true → s.sched = .agent .command :: turns → readFrame s.cmdIn = .incomplete →
          step s = .next { s with sched := turns })

/-- R150, R151, R152: which step the sequencer's turn takes. That a turn with no enabled step passes is the model's
choice (log 4). -/
def Obligations.StepRunsTheEnabledSequencerStep : Prop :=
  ∀ (s s' : State) (turns : List Turn),
    s.cfg.wf = true → s.sched = .agent .sequencer :: turns → s' = { s with sched := turns } →
      step s =
        if s.txState = .idle then .next s'
        else if s.poLen = 0 then
          match s.txState with
          | .slot1 => exec (.buildData .slot0) s'
          | .cach2 => exec (.buildCach .slot1 .slot0) s'
          | .slot2 => exec (.buildData .slot1) s'
          | .cach1 => exec (.buildCach .slot0 .slot1) s'
          | _ => exec .buildCal s'
        else if 4 * s.cfg.osr < s.txq.free s.cfg.nTx then exec .emitByte s'
        else .next s'

/-- R5, R97, R226, R229: the other turns. An issued word runs the operation it names and is refused where it names none
(issued words and their refusal are the model's choice, log 12); where no turn is placed, a free one runs (log 3). -/
def Obligations.StepRunsTheOtherTurns : Prop :=
  ∀ (s : State), s.cfg.wf = true →
    (∀ turns rx rssi, s.sched = .agent (.service rx rssi) :: turns →
        step s = exec (.ioService rx rssi) { s with sched := turns })
    ∧ (∀ turns, s.sched = .agent (.receive .rxq) :: turns →
        step s = exec (.ringGet (.sample .rxq)) { s with sched := turns })
    ∧ (∀ turns, s.sched = .agent (.receive .rssiq) :: turns →
        step s = exec (.ringGet (.sample .rssiq)) { s with sched := turns })
    ∧ (∀ turns bytes, s.sched = .agent (.arrive bytes) :: turns →
        step s = .next { s with sched := turns, cmdIn := s.cmdIn ++ bytes })
    ∧ (∀ turns w operands i, s.sched = .issue w operands :: turns → decodeWord w operands = .ok i →
        step s = exec i { s with sched := turns })
    ∧ (∀ turns w operands e, s.sched = .issue w operands :: turns → decodeWord w operands = .error e →
        step s = .refused .noSuchOperation)
    ∧ (s.sched = [] → ∃ a : AgentTurn, step s = runAgent a { s with freeCount := s.freeCount + 1 })

/-- R7, R6, R276: a configuration is well-formed exactly when R7's nine clauses hold and its arrays, capacities and control
positions have the shapes R6's types give them; any other is refused before anything runs. That these shapes are checked
too, and that `step` refuses and `exec` does not look, is the model's choice (log 14). -/
def Obligations.IllFormedConfigurationIsRefused : Prop :=
  (∀ s : State, s.cfg.wf = false → step s = .refused .illFormedConfiguration)
    ∧ (∀ c : Config, c.wf = true ↔
        c.idleBase.length = c.burstBytes ∧ c.calBurst.length = c.burstBytes ∧ c.slcInterleave.length = 68
        ∧ 1 ≤ c.nRx ∧ 1 ≤ c.nRssi ∧ (∀ q ∈ c.ctrlPos.toList, q < 24)
        ∧ 1 ≤ c.osr ∧ 1 ≤ c.phaseLen ∧ c.rrcCoef.length = c.osr * c.phaseLen
        ∧ (∀ l ∈ [c.levelA, c.levelB, c.levelC, c.levelD], |l.toInt| ≤ 32767 - 128)
        ∧ 4 * c.osr < c.nTx ∧ c.burstBytes ≤ c.nFifo ∧ 3 ≤ c.burstBytes
        ∧ c.slcInterleave.Nodup
        ∧ (∀ p ∈ c.slcInterleave, p < 96 ∧ ∀ q ∈ c.ctrlPos.toList, ∀ k < 4, p ≠ q + 24 * k)
        ∧ (∀ cc t f, (c.slotTypeEncode cc t f).length = f.length)
        ∧ 1 ≤ c.abortLimit.toNat)

/-! ## Rings -/

/-- R120: occupancy and free space add up to the capacity, for every ring. -/
def Obligations.OccupiedPlusFreeIsCapacity : Prop :=
  ∀ s : State, s.Inv → ∀ q : RingId,
    s.ringOccupied q + s.ringFree q = s.cfg.capacity q ∧ s.ringOccupied q ≤ s.cfg.capacity q

/-- R72, R115-R118, R121: a ring of any capacity and any sequence of puts, gets, resets and takes from construction on
returns exactly what a bounded first-in first-out queue with a lost-item latch returns. -/
def Obligations.RingsRefineBoundedQueues : Prop :=
  ∀ (α : Type) (n : Nat) (filler : α) (ops : List (QueueOp α)), 1 ≤ n →
    ringRun n (RingBuf.fresh n filler) ops = queueRun n ([], false) ops

/-- R115: a put stores its item behind the others and moves the head; on a full ring only `overflow` changes. Sample rings
first, then the byte FIFOs. -/
def Obligations.RingPutCompletes : Prop :=
  ∀ s : State, s.Inv →
    (∀ (q : SampleRing) (x : Item), ∃ r : RingBuf Item,
      exec (.ringPut (.sample q x)) s =
          .next { s.withSampleRing q r with result := .flag (!(s.sampleRing q).full) }
        ∧ ((s.sampleRing q).full = true → r = { s.sampleRing q with overflow := true })
        ∧ ((s.sampleRing q).full = false →
            r.items (s.cfg.capacity (.sample q)) = (s.sampleRing q).items (s.cfg.capacity (.sample q)) ++ [x]
            ∧ r.overflow = (s.sampleRing q).overflow ∧ r.tail = (s.sampleRing q).tail
            ∧ r.head = ((s.sampleRing q).head + 1) % s.cfg.capacity (.sample q)
            ∧ (r.full = true ↔ r.head = r.tail)
            ∧ r.buf = (s.sampleRing q).buf.set (s.sampleRing q).head x))
    ∧ ∀ (k : Slot) (b : Byte), ∃ r : RingBuf Byte,
        exec (.ringPut (.fifo k b)) s = .next { s with fifo := s.fifo.set k r, result := .flag (!(s.fifo.get k).full) }
        ∧ ((s.fifo.get k).full = true → r = { s.fifo.get k with overflow := true })
        ∧ ((s.fifo.get k).full = false →
            r.items s.cfg.nFifo = queued s k ++ [b] ∧ r.overflow = (s.fifo.get k).overflow
            ∧ r.tail = (s.fifo.get k).tail ∧ r.head = ((s.fifo.get k).head + 1) % s.cfg.nFifo
            ∧ (r.full = true ↔ r.head = r.tail) ∧ r.buf = (s.fifo.get k).buf.set (s.fifo.get k).head b)

/-- R116: a get answers the oldest item and moves the tail, or answers nothing and changes nothing. Sample rings first,
then the byte FIFOs. -/
def Obligations.RingGetCompletes : Prop :=
  ∀ s : State, s.Inv →
    (∀ q : SampleRing, ∃ r : RingBuf Item,
      exec (.ringGet (.sample q)) s =
          .next { s.withSampleRing q r with
            result := .item ((s.sampleRing q).items (s.cfg.capacity (.sample q))).head? }
        ∧ r.items (s.cfg.capacity (.sample q)) = ((s.sampleRing q).items (s.cfg.capacity (.sample q))).tail
        ∧ r.overflow = (s.sampleRing q).overflow ∧ r.buf = (s.sampleRing q).buf ∧ r.head = (s.sampleRing q).head
        ∧ (stored s (.sample q) = 0 → r = s.sampleRing q)
        ∧ (0 < stored s (.sample q) →
            r.full = false ∧ r.tail = ((s.sampleRing q).tail + 1) % s.cfg.capacity (.sample q)))
    ∧ ∀ k : Slot, ∃ r : RingBuf Byte,
        exec (.ringGet (.fifo k)) s = .next { s with fifo := s.fifo.set k r, result := .byte (queued s k).head? }
        ∧ r.items s.cfg.nFifo = (queued s k).tail
        ∧ r.overflow = (s.fifo.get k).overflow ∧ r.buf = (s.fifo.get k).buf ∧ r.head = (s.fifo.get k).head
        ∧ (stored s (.fifo k) = 0 → r = s.fifo.get k)
        ∧ (0 < stored s (.fifo k) → r.full = false ∧ r.tail = ((s.fifo.get k).tail + 1) % s.cfg.nFifo)

/-- R112, R113, R114: the three queries return the capacity, what the stored items leave of it, and their number, and
change nothing else. -/
def Obligations.RingQueriesComplete : Prop :=
  ∀ (s : State) (q : RingId), s.Inv →
    exec (.ringCapacity q) s = .next { s with result := .count (s.cfg.capacity q) }
    ∧ exec (.ringFree q) s = .next { s with result := .count (s.cfg.capacity q - stored s q) }
    ∧ exec (.ringOccupied q) s = .next { s with result := .count (stored s q) }

/-- R117: a reset sets the cursors to 0 and clears `full` and `overflow`, leaves the storage and every other ring and
register, and the ring is empty. -/
def Obligations.RingResetCompletes : Prop :=
  (∀ (s : State) (q : SampleRing),
      exec (.ringReset (.sample q)) s =
        .next (s.withSampleRing q (emptied (s.sampleRing q))))
    ∧ (∀ (s : State) (k : Slot),
        exec (.ringReset (.fifo k)) s =
          .next { s with fifo := s.fifo.set k (emptied (s.fifo.get k)) })
    ∧ (∀ (s t : State) (q : RingId), exec (.ringReset q) s = .next t → stored t q = 0)

/-- R118: a take returns the flag and clears it, changing nothing else; a take right after it returns false. -/
def Obligations.TakeOverflowCompletes : Prop :=
  (∀ (s : State) (q : SampleRing),
      exec (.ringTakeOverflow (.sample q)) s =
        .next { s.withSampleRing q { s.sampleRing q with overflow := false } with
          result := .flag (s.sampleRing q).overflow })
    ∧ (∀ (s : State) (k : Slot),
        exec (.ringTakeOverflow (.fifo k)) s =
          .next { s with fifo := s.fifo.set k { s.fifo.get k with overflow := false }, result := .flag (s.fifo.get k).overflow })
    ∧ (∀ (s t : State) (q : RingId), exec (.ringTakeOverflow q) s = .next t →
        ∃ u, exec (.ringTakeOverflow q) t = .next u ∧ u.result = .flag false)

/-! ## The modulator -/

/-- R192: the four levels; under R7 and R29 each sum fits Int16. -/
def Obligations.SymbolMapCompletes : Prop :=
  ∀ (s : State) (d : BitVec 2), s.Inv →
    ∃ x : Sample, exec (.symbolMap d) s = .next { s with result := .symbol x }
      ∧ x.toInt =
        if d = 0b11#2 then s.cfg.levelA.toInt + s.trim3.toInt
        else if d = 0b10#2 then s.cfg.levelB.toInt + s.trim1.toInt
        else if d = 0b00#2 then s.cfg.levelC.toInt - s.trim1.toInt
        else s.cfg.levelD.toInt - s.trim3.toInt

/-- R197: one step of the filter. Output j (1..OSR) is the saturated floor of the exact sum over the window `fir ++ [x]`,
and the window without its oldest symbol is kept. -/
def Obligations.FirStepCompletes : Prop :=
  ∀ (s : State) (x : Sample), s.Inv →
    ∃ ys : List Sample,
      exec (.firStep x) s = .next { s with fir := (s.fir ++ [x]).drop 1, result := .samples ys }
      ∧ ys.length = s.cfg.osr
      ∧ ∀ j, 1 ≤ j → j ≤ s.cfg.osr →
          (ys.getD (j - 1) 0).toInt =
            min 32767 (max (-32768)
              ((∑ t ∈ Finset.range s.cfg.phaseLen,
                ((s.fir ++ [x]).getD t 0).toInt * (s.cfg.rrcCoef.getD ((s.cfg.osr - j) + t * s.cfg.osr) 0).toInt).fdiv
                  (2 ^ 15)))

/-- R196, R198: from a zero delay line, a run of FIR_STEPs is zero-stuffing by OSR and convolution with the prototype
response `h`: output p of symbol n is the saturated floor of `Σ_q h[q·OSR + p] · x[n − q]`. -/
def Obligations.FilterIsPolyphaseConvolution : Prop :=
  ∀ (s : State) (xs : List Sample) (n p : Nat), s.cfg.wf = true → s.fir = List.replicate (s.cfg.phaseLen - 1) 0 →
    n < xs.length → p < s.cfg.osr →
      (firRun s xs).length = xs.length * s.cfg.osr
      ∧ ((firRun s xs).getD (n * s.cfg.osr + p) 0).toInt =
          min 32767 (max (-32768)
            ((∑ q ∈ Finset.range s.cfg.phaseLen, prototype s.cfg (q * s.cfg.osr + p) * symbolBefore xs n q).fdiv (2 ^ 15)))

/-- R199: the exact accumulator is at most `PHASE_LEN · 2^30` in magnitude, whatever the window and the table. -/
def Obligations.AccumulatorIsBounded : Prop :=
  ∀ (c : Config) (w : List Sample) (m : Nat), |firAcc c w m| ≤ c.phaseLen * 2 ^ 30

/-- R191, R194, R195: MODULATE maps the byte's four dibits as SYMBOL_MAP does, most significant pair first, and filters
them as four FIR_STEPs one after another do, into `4 × OSR` samples, of which index `2 × OSR` alone carries the byte's tag.
It changes only `fir` and its result (the field `result` is the model's, log 7). -/
def Obligations.ModulateCompletes : Prop :=
  ∀ (s : State) (b : Byte) (t : Tag), s.Inv →
    ∃ (x0 x1 x2 x3 : Sample) (batch : List Item),
      exec (.symbolMap (BitVec.ofNat 2 (b.toNat / 64))) s = .next { s with result := .symbol x0 }
      ∧ exec (.symbolMap (BitVec.ofNat 2 (b.toNat / 16))) s = .next { s with result := .symbol x1 }
      ∧ exec (.symbolMap (BitVec.ofNat 2 (b.toNat / 4))) s = .next { s with result := .symbol x2 }
      ∧ exec (.symbolMap (BitVec.ofNat 2 b.toNat)) s = .next { s with result := .symbol x3 }
      ∧ exec (.modulate b t) s =
          .next { s with fir := (s.fir ++ [x0, x1, x2, x3]).drop 4, result := .batch batch }
      ∧ batch.map (·.value) = firRun s [x0, x1, x2, x3]
      ∧ batch.length = 4 * s.cfg.osr
      ∧ ∀ i < 4 * s.cfg.osr, (batch.map (·.tag))[i]? = some (if i = 2 * s.cfg.osr then t else .none)

/-! ## Builds and emission -/

/-- R153, R157, R151: a data build that is ready takes exactly one burst, oldest bytes first, untagged, and leaves the
rest queued. -/
def Obligations.DataBranchTakesOneBurst : Prop :=
  ∀ (s : State) (k : Slot), s.Inv → s.poLen = 0 → s.txState = dueState k → dataReady s k →
    ∃ r : RingBuf Byte,
      exec (.buildData k) s =
        .next { s with
          fifo := s.fifo.set k r
          poBuf := (queued s k).take s.cfg.burstBytes
          poTag := List.replicate s.cfg.burstBytes .none
          poLen := s.cfg.burstBytes
          poPtr := 0
          txState := stateAfterData k }
      ∧ r.items s.cfg.nFifo = (queued s k).drop s.cfg.burstBytes ∧ r.overflow = (s.fifo.get k).overflow

/-- R158, R157, R151: a data build that is not ready sends the idle template; it resets FIFO[k] exactly when an abort is
pending, and clears the flag. -/
def Obligations.IdleBranchSendsTheTemplate : Prop :=
  ∀ (s : State) (k : Slot) (template : List Byte), s.Inv → s.poLen = 0 → s.txState = dueState k →
    ¬ dataReady s k → s.idle = some template →
      exec (.buildData k) s =
        .next { s with
          fifo := s.fifo.set k (fifoAfterIdle s k)
          abort := s.abort.set k false
          poBuf := template
          poTag := List.replicate s.cfg.burstBytes .none
          poLen := s.cfg.burstBytes
          poPtr := 0
          txState := stateAfterData k }

/-- R274, R277: an enabled data build that is not ready and meets an unwritten template faults with its slot, and no other
operation, state or condition faults. -/
def Obligations.FaultsExactlyOnTheUnwrittenTemplate : Prop :=
  ∀ (i : Instr) (s : State) (f : Fault), s.Inv →
    (exec i s = .fault f ↔
      ∃ k, i = .buildData k ∧ f = .idleTemplateUnset k ∧ s.poLen = 0 ∧ s.txState = dueState k
        ∧ ¬ dataReady s k ∧ s.idle = none)

/-- R12, R150, R153-R155, R160: exactly when a build or emit step is not enabled, and that no other operation is ever
refused (a refusal for a step that does not exist is the model's choice, log 5). -/
def Obligations.DisabledStepsAreRefused : Prop :=
  (∀ (s : State) (k : Slot), exec (.buildData k) s = .refused .stepNotEnabled ↔ ¬(s.poLen = 0 ∧ s.txState = dueState k))
    ∧ (∀ (s : State) (tx rx : Slot), exec (.buildCach tx rx) s = .refused .stepNotEnabled ↔
        ¬(s.poLen = 0 ∧ ((s.txState = .cach2 ∧ tx = .slot1 ∧ rx = .slot0) ∨ (s.txState = .cach1 ∧ tx = .slot0 ∧ rx = .slot1))))
    ∧ (∀ s : State, exec .buildCal s = .refused .stepNotEnabled ↔ ¬(s.poLen = 0 ∧ s.txState = .calibration))
    ∧ (∀ s : State, exec .emitByte s = .refused .stepNotEnabled ↔
        ¬(s.txState ≠ .idle ∧ 0 < s.poLen ∧ 4 * s.cfg.osr < s.txq.free s.cfg.nTx))
    ∧ (∀ (i : Instr) (s : State) (r : Refusal), exec i s = .refused r →
        r = .stepNotEnabled ∧ ((∃ k, i = .buildData k) ∨ (∃ tx rx, i = .buildCach tx rx) ∨ i = .buildCal ∨ i = .emitByte))

/-- R160-R167: a CACH build. Counters first, the swap at cursor 0, then three bytes at the old cursor with the control
bits ORed in at the configured positions, their tags, and the cursor's advance. -/
def Obligations.CachBuildCompletes : Prop :=
  ∀ (s : State) (tx rx : Slot) (accessType tc ls1 ls0 : Bool) (live : List Byte), s.Inv → s.poLen = 0 →
    ((s.txState = .cach2 ∧ tx = .slot1 ∧ rx = .slot0) ∨ (s.txState = .cach1 ∧ tx = .slot0 ∧ rx = .slot1)) →
    (accessType = true ↔
      s.cfg.startupCount.toNat ≤ (s.frameCount.toNat + 1) % 2 ^ 32 ∧ queued s rx ≠ []
        ∧ ¬(s.atMode = 3 ∨ (s.atMode = 1 ∧ rx = .slot0) ∨ (s.atMode = 2 ∧ rx = .slot1))) →
    (tc = true ↔ tx = .slot1) → (ls1 = true ↔ s.cachPtr ≠ 0) → (ls0 = true ↔ s.cachPtr ≠ 9) →
    (live =
      if s.cachPtr ≠ 0 then s.slcLive
      else if queued s .slot0 = [] ∧ queued s .slot1 = [] then List.replicate 12 0
      else s.slcPending) →
    ∃ out : List Byte,
      exec (.buildCach tx rx) s =
        .next { s with
          frameCount := s.frameCount + 1
          abortCount := ⟨s.abortCount.slot0 + 1, s.abortCount.slot1 + 1⟩
          slcLive := live
          poBuf := out ++ s.poBuf.drop 3
          poTag := [.none, if rx = .slot1 then .slot1 else .slot2, .none] ++ s.poTag.drop 3
          poLen := 3
          poPtr := 0
          cachPtr := BitVec.ofNat 8 ((s.cachPtr.toNat + 3) % 12)
          txState := if tx = .slot1 then .slot2 else .slot1 }
      ∧ out.length = 3
      ∧ ∀ p < 24, readBit out p =
          (readBit live (8 * s.cachPtr.toNat + p)
            || (accessType && p == s.cfg.ctrlPos.accessType) || (tc && p == s.cfg.ctrlPos.tc)
            || (ls1 && p == s.cfg.ctrlPos.ls1) || (ls0 && p == s.cfg.ctrlPos.ls0)
            || ((accessType ^^ tc ^^ ls1) && p == s.cfg.ctrlPos.h0)
            || ((tc ^^ ls1 ^^ ls0) && p == s.cfg.ctrlPos.h1)
            || ((accessType ^^ tc ^^ ls0) && p == s.cfg.ctrlPos.h2))

/-- R167: at R6's positions the control bits are the masks the rule prints. -/
def Obligations.StandardControlBitsAreTheMasks : Prop :=
  ∀ (b0 b1 b2 : Byte) (v : ControlBits),
    orControlBits CtrlPos.standard v [b0, b1, b2] =
      [b0 ||| (if v.accessType then 0x80 else 0) ||| (if v.tc then 0x08 else 0),
       b1 ||| (if v.ls1 then 0x80 else 0) ||| (if v.ls0 then 0x08 else 0) ||| (if v.h0 then 0x02 else 0),
       b2 ||| (if v.h1 then 0x20 else 0) ||| (if v.h2 then 0x02 else 0)]

/-- R154: the calibration burst, untagged; no counter, FIFO, abort flag or cursor changes. -/
def Obligations.CalibrationBuildCompletes : Prop :=
  ∀ s : State, s.Inv → s.poLen = 0 → s.txState = .calibration →
    exec .buildCal s =
      .next { s with
        poBuf := s.cfg.calBurst
        poTag := List.replicate s.cfg.burstBytes .none
        poLen := s.cfg.burstBytes
        poPtr := 0 }

/-- R155, R223, R156: an emit modulates the byte at the cursor, every put of its batch succeeds, in order, and the cursor
moves; the last byte empties the buffer. -/
def Obligations.EmitByteCompletes : Prop :=
  ∀ s : State, s.Inv → s.txState ≠ .idle → 0 < s.poLen → 4 * s.cfg.osr < s.txq.free s.cfg.nTx →
    ∃ (r : RingBuf Item) (batch : List Item) (fir : List Sample),
      (∃ (b : Byte) (t : Tag), s.poBuf[s.poPtr]? = some b ∧ s.poTag[s.poPtr]? = some t
        ∧ exec (.modulate b t) s = .next { s with fir := fir, result := .batch batch })
      ∧ exec .emitByte s =
        .next { s with
          fir := fir
          txq := r
          txOn := true
          poPtr := if s.poPtr + 1 = s.poLen then 0 else s.poPtr + 1
          poLen := if s.poPtr + 1 = s.poLen then 0 else s.poLen }
      ∧ r.items s.cfg.nTx = txItems s ++ batch ∧ r.overflow = s.txq.overflow ∧ r.full = false

/-- R159: before warm-up every data build sends the idle template, whatever is queued, and keeps the queue where no abort
is pending. -/
def Obligations.StartupGuardSendsIdle : Prop :=
  ∀ (s t : State) (k : Slot), s.Inv → s.frameCount.toNat < s.cfg.startupCount.toNat → exec (.buildData k) s = .next t →
    some t.poBuf = s.idle ∧ (s.abort.get k = false → queued t k = queued s k)

/-- R169, R158, R176: an abort followed at once by that slot's data build sends the idle template and empties the FIFO,
and no flag stays. -/
def Obligations.AbortThenBuildDropsTheQueue : Prop :=
  ∀ (s s1 t : State) (k : Slot) (sel : Byte), s.Inv → sel.toNat = k.index + 1 →
    exec (.writeAbort [sel]) s = .next s1 → exec (.buildData k) s1 = .next t →
      some t.poBuf = s.idle ∧ queued t k = [] ∧ t.abort.get k = false

/-- R151, R179: a sequencer turn with an empty buffer moves the framing state once around the cycle; with a burst in the
buffer it leaves the state. -/
def Obligations.SequencerFollowsTheCycle : Prop :=
  ∀ (s t : State) (turns : List Turn), s.sched = .agent .sequencer :: turns → step s = .next t →
    t.txState =
      if s.poLen ≠ 0 then s.txState
      else match s.txState with
        | .idle => .idle
        | .slot1 => .cach2
        | .cach2 => .slot2
        | .slot2 => .cach1
        | .cach1 => .slot1
        | .calibration => .calibration

/-- R180, R152: only `START 0` and `SET_CAL 0` write Idle, and only `START 1`, `SET_CAL 1` and WRITE_SLOT_DATA leave it. -/
def Obligations.OnlyCommandsEnterOrLeaveIdle : Prop :=
  ∀ (i : Instr) (s t : State), exec i s = .next t →
    (t.txState = .idle → s.txState ≠ .idle → i = .start [0] ∨ i = .setCal [0])
    ∧ (s.txState = .idle → t.txState ≠ .idle →
        i = .start [1] ∨ i = .setCal [1] ∨ ∃ sel p, i = .writeSlotData (sel :: p) ∧ p.length = s.cfg.burstBytes)

/-- R172, R173: the scattered payload survives the control bits. Whatever control bits the four builds OR in, reading
stream bit `SLC_INTERLEAVE[i]` of the twelve emitted bytes returns input bit i. -/
def Obligations.ShortLinkControlRoundTrips : Prop :=
  ∀ (c : Config) (d : List Byte) (v : Nat → ControlBits), c.wf = true → d.length = 9 →
    ∀ i < 68,
      readBit ((List.range 4).flatMap fun k =>
          orControlBits c.ctrlPos (v k) (fragmentAt (scatterSlc c.slcInterleave d) k)) (c.slcInterleave.getD i 0)
        = readBit d i

/-! ## Host commands -/

/-- R170, R172: the 68 input bits go to their table positions, every other bit of the pending payload is 0, bits 68..71
are ignored; the live payload is not touched. A frame of another length is refused. -/
def Obligations.WriteShortLcCompletes : Prop :=
  ∀ (s : State) (d : List Byte), s.Inv →
    (d.length ≠ 9 → exec (.writeShortLc d) s = .next (answered s [0x01]))
    ∧ (d.length = 9 → ∃ p : List Byte,
        exec (.writeShortLc d) s = .next { answered s [0x00] with slcPending := p }
        ∧ p.length = 12
        ∧ (∀ i < 68, readBit p (s.cfg.slcInterleave.getD i 0) = readBit d i)
        ∧ (∀ j < 96, j ∉ s.cfg.slcInterleave → readBit p j = false))

/-- R175, R96: one burst for slot `sel − 1`: length first, then the selector, then room. With room every byte is queued in
order and Idle is left for Slot1; without it the FIFO is reset and nothing starts. -/
def Obligations.WriteSlotDataCompletes : Prop :=
  ∀ (s : State), s.Inv →
    exec (.writeSlotData []) s = .next (answered s [0x01])
    ∧ ∀ (sel : Byte) (p : List Byte),
      (p.length ≠ s.cfg.burstBytes → exec (.writeSlotData (sel :: p)) s = .next (answered s [0x01]))
      ∧ (p.length = s.cfg.burstBytes → sel ≠ 1 → sel ≠ 2 →
          exec (.writeSlotData (sel :: p)) s = .next (answered s [0x03]))
      ∧ (∀ k : Slot, p.length = s.cfg.burstBytes → sel.toNat = k.index + 1 →
          (s.cfg.nFifo - (queued s k).length < s.cfg.burstBytes →
            exec (.writeSlotData (sel :: p)) s =
              .next { answered s [0x02] with fifo := s.fifo.set k (emptied (s.fifo.get k)) })
          ∧ (s.cfg.burstBytes ≤ s.cfg.nFifo - (queued s k).length → ∃ r : RingBuf Byte,
              exec (.writeSlotData (sel :: p)) s =
                .next { answered s [0x00] with
                  fifo := s.fifo.set k r
                  txState := if s.txState = .idle then .slot1 else s.txState }
              ∧ r.items s.cfg.nFifo = queued s k ++ p ∧ r.overflow = (s.fifo.get k).overflow))

/-- R176, R96: WRITE_ABORT on every operand list. -/
def Obligations.WriteAbortCompletes : Prop :=
  ∀ (s : State) (ops : List Byte), exec (.writeAbort ops) s = .next (
    if ops = [1] then { answered s [0x00] with
      abort := ⟨true, s.abort.slot1⟩, abortCount := ⟨0, s.abortCount.slot1⟩ }
    else if ops = [2] then { answered s [0x00] with
      abort := ⟨s.abort.slot0, true⟩, abortCount := ⟨s.abortCount.slot0, 0⟩ }
    else if ops.length = 1 then answered s [0x03]
    else answered s [0x01])

/-- R177, R96: START on every operand list. -/
def Obligations.StartCompletes : Prop :=
  ∀ (s : State) (ops : List Byte), exec (.start ops) s = .next (
    if ops = [0] ∨ ops = [1] then { answered s [0x00] with
      txState := if ops = [1] then .slot1 else .idle
      frameCount := 0
      abort := ⟨false, false⟩
      abortCount := ⟨0, 0⟩ }
    else if ops.length = 1 then answered s [0x04]
    else answered s [0x01])

/-- R178, R96: SET_CAL on every operand list. -/
def Obligations.SetCalCompletes : Prop :=
  ∀ (s : State) (ops : List Byte), exec (.setCal ops) s = .next (
    if ops = [0] ∨ ops = [1] then { answered s [0x00] with
      txState := if ops = [1] then .calibration else .idle }
    else if ops.length = 1 then answered s [0x04]
    else answered s [0x01])

/-- R242, R83: the trims are clamped to ±128. -/
def Obligations.SetSymlvlCompletes : Prop :=
  (∀ (s : State) (ops : List Byte), ops.length ≠ 4 → exec (.setSymlvl ops) s = .next (answered s [0x01]))
    ∧ ∀ (s : State) (a b c d : Byte), ∃ t3 t1 : Sample,
        exec (.setSymlvl [a, b, c, d]) s = .next { answered s [0x00] with trim3 := t3, trim1 := t1 }
        ∧ t3.toInt = min 128 (max (-128) (s16Value a b)) ∧ t1.toInt = min 128 (max (-128) (s16Value c d))

/-- R243, R96: SET_AT_SUPP on every operand list. -/
def Obligations.SetAtSuppCompletes : Prop :=
  ∀ (s : State) (ops : List Byte), exec (.setAtSupp ops) s = .next (
    match ops with
    | [m] => if m.toNat ≤ 3 then { answered s [0x00] with atMode := m } else answered s [0x04]
    | _ => answered s [0x01])

/-- R244, R96: SET_COLOR_CODE on every operand list; the template is what the external encoder answers, `BURST_BYTES`
bytes under a well-formed configuration. -/
def Obligations.SetColorCodeCompletes : Prop :=
  (∀ (s : State) (ops : List Byte), exec (.setColorCode ops) s = .next (
      match ops with
      | [cc] =>
        if cc.toNat ≤ 15 then { answered s [0x00] with
          idle := some (s.cfg.slotTypeEncode cc s.cfg.idleDataType s.cfg.idleBase), colourCode := some cc }
        else answered s [0x04]
      | _ => answered s [0x01]))
    ∧ ∀ (s : State) (cc : Byte), s.cfg.wf = true →
        (s.cfg.slotTypeEncode cc s.cfg.idleDataType s.cfg.idleBase).length = s.cfg.burstBytes

/-- R245, R93: the free byte count of FIFO[sel − 1], big-endian, and no change (a count of 2^32 or more is truncated,
log 24). -/
def Obligations.ReadFreeSpaceCompletes : Prop :=
  ∀ (s : State) (ops : List Byte), s.Inv → exec (.readFreeSpace ops) s = .next (answered s (
    if ops = [1] then 0x00 :: bigEndian (s.cfg.nFifo - (queued s .slot0).length)
    else if ops = [2] then 0x00 :: bigEndian (s.cfg.nFifo - (queued s .slot1).length)
    else if ops.length = 1 then [0x03]
    else [0x01]))

/-- R246, R94: the frame count, big-endian, and no change. -/
def Obligations.ReadFrameCountCompletes : Prop :=
  ∀ (s : State) (ops : List Byte), exec (.readFrameCount ops) s = .next (answered s (
    if ops = [] then 0x00 :: bigEndian s.frameCount.toNat else [0x01]))

/-- R247, R95: the flag of the ring with the id, cleared by the read; nothing else changes. -/
def Obligations.PollOverflowCompletes : Prop :=
  ∀ (s : State) (ops : List Byte), exec (.pollOverflow ops) s = .next (
    let bit (v : Bool) : List Byte := [0x00, if v then 0x01 else 0x00]
    if ops = [0] then { answered s (bit s.txq.overflow) with txq := { s.txq with overflow := false } }
    else if ops = [1] then { answered s (bit s.rxq.overflow) with rxq := { s.rxq with overflow := false } }
    else if ops = [2] then { answered s (bit s.rssiq.overflow) with rssiq := { s.rssiq with overflow := false } }
    else if ops = [3] then { answered s (bit s.fifo.slot0.overflow) with
      fifo := ⟨{ s.fifo.slot0 with overflow := false }, s.fifo.slot1⟩ }
    else if ops = [4] then { answered s (bit s.fifo.slot1.overflow) with
      fifo := ⟨s.fifo.slot0, { s.fifo.slot1 with overflow := false }⟩ }
    else if ops.length = 1 then answered s [0x04]
    else answered s [0x01])

/-- R241, R251, R82: every host command completes in its step with exactly one response; one whose status is not `Ok`
carries no result bytes and changes nothing else, but that `RingFull` resets the FIFO
it names. -/
def Obligations.FailingCommandsChangeNothing : Prop :=
  ∀ (i : Instr) (s : State), isHostCommand i →
    ∃ (t : State) (status : Byte) (data : List Byte),
      exec i s = .next t ∧ t.rspOut = s.rspOut ++ [status :: data]
      ∧ (status ≠ 0x00 → data = [])
      ∧ (status ≠ 0x00 → status ≠ 0x02 → t = answered s [status])
      ∧ (status = 0x02 → ∃ k sel p, i = .writeSlotData (sel :: p) ∧ sel.toNat = k.index + 1
          ∧ t = { answered s [0x02] with fifo := s.fifo.set k (emptied (s.fifo.get k)) })

/-- R249, R252: what no host command writes. -/
def Obligations.HostCommandsLeaveTheSignalPath : Prop :=
  ∀ (i : Instr) (s t : State), isHostCommand i → exec i s = .next t →
    t.cachPtr = s.cachPtr ∧ t.slcLive = s.slcLive
    ∧ t.poBuf = s.poBuf ∧ t.poTag = s.poTag ∧ t.poLen = s.poLen ∧ t.poPtr = s.poPtr
    ∧ t.fir = s.fir ∧ t.txOn = s.txOn ∧ t.txOut = s.txOut ∧ t.cfg = s.cfg
    ∧ ∀ q : SampleRing, t.sampleRing q = { s.sampleRing q with overflow := (t.sampleRing q).overflow }

/-! ## The I/O contract -/

/-- R226, R228, R234: one sample-clock service step: the oldest TXQ item goes out, or silence and `txOn` falls; the inbound
sample is put to RXQ under the same tag, as RING_PUT does, and the reading to RSSIQ if enabled; nothing else changes. -/
def Obligations.ServiceStepCompletes : Prop :=
  ∀ (s : State) (rx rssi : Word16), s.Inv →
    ∃ (q rxq' rssiq' : RingBuf Item) (out : Item),
      exec (.ioService rx rssi) s =
        .next { s with
          txq := q
          txOut := s.txOut ++ [out]
          txOn := if txItems s = [] then false else s.txOn
          rxq := rxq'
          rssiq := rssiq' }
      ∧ out = (txItems s).headD ⟨s.cfg.silence, .none⟩
      ∧ q.items s.cfg.nTx = (txItems s).tail ∧ q.overflow = s.txq.overflow
      ∧ (txItems s = [] → q = s.txq)
      ∧ (∃ u, exec (.ringPut (.sample .rxq ⟨rx, out.tag⟩)) s = .next u ∧ rxq' = u.rxq)
      ∧ (∃ u, exec (.ringPut (.sample .rssiq ⟨rssi, .none⟩)) s = .next u
          ∧ rssiq' = if s.cfg.rssiEnabled then u.rssiq else s.rssiq)

/-- R221, R222, R224, R225: the contract calls. -/
def Obligations.ContractCallsComplete : Prop :=
  ∀ s : State, s.Inv →
    exec .ioSpace s = .next { s with result := .count (s.cfg.nTx - (txItems s).length) }
    ∧ exec .ioIsTransmitting s = .next { s with result := .flag s.ptt }
    ∧ ∀ b, ∃ t, exec (.ioSetTransmit b) s = .next t ∧ t = { s with txOn := b } ∧ t.ptt = b

/-- R223, R115: a pushed batch goes to TXQ in order, whole where there is room for it, and `txOn` rises; the mode does not
matter. Where the batch is longer than the room, the items that fit are stored, the others are lost and `overflow` latches.
A batch of any length, and so the second case, is the model's choice (log 13). -/
def Obligations.PushStoresTheBatchInOrder : Prop :=
  ∀ (s : State) (mode : Byte) (batch : List Item), s.Inv →
    ∃ r : RingBuf Item,
      exec (.ioPush mode batch) s = .next { s with txq := r, txOn := true }
      ∧ exec (.ioPush modeDmr batch) s = .next { s with txq := r, txOn := true }
      ∧ (batch.length ≤ s.txq.free s.cfg.nTx →
          r.items s.cfg.nTx = txItems s ++ batch ∧ r.overflow = s.txq.overflow)
      ∧ (s.txq.free s.cfg.nTx < batch.length →
          r.items s.cfg.nTx = txItems s ++ batch.take (s.txq.free s.cfg.nTx) ∧ r.overflow = true ∧ r.full = true)

/-- R227, R233, R155: a step an agent takes by itself (log 12) delivers TXQ's oldest item to `tx_out`, or silence from an
empty TXQ, or nothing. Where it delivers nothing, TXQ keeps its items in order; behind them stands nothing new, or exactly
the batch MODULATE returns for the byte at the cursor, the cursor then being past that byte. -/
def Obligations.OutputStreamIsConserved : Prop :=
  ∀ s t : State, s.Inv → s.TxSafe → s.AgentNext → step s = .next t →
    (∃ x, t.txOut = s.txOut ++ [x] ∧ txItems s = x :: txItems t)
    ∨ (t.txOut = s.txOut ++ [⟨s.cfg.silence, .none⟩] ∧ txItems s = [] ∧ txItems t = [])
    ∨ (t.txOut = s.txOut ∧ txItems t = txItems s)
    ∨ (t.txOut = s.txOut ∧ s.poPtr < s.poLen ∧ ∃ (b : Byte) (tag : Tag) (batch : List Item),
        s.poBuf[s.poPtr]? = some b ∧ s.poTag[s.poPtr]? = some tag
        ∧ exec (.modulate b tag) s = .next { s with fir := t.fir, result := .batch batch }
        ∧ txItems t = txItems s ++ batch ∧ batch.length = 4 * s.cfg.osr
        ∧ (t.poPtr, t.poLen) = if s.poPtr + 1 = s.poLen then (0, 0) else (s.poPtr + 1, s.poLen))

/-- R156, R311: no step an agent takes by itself, so none but an issued word (log 12), fills TXQ or loses an item on it. -/
def Obligations.TxqNeverOverflows : Prop :=
  ∀ s t : State, s.Inv → s.TxSafe → s.AgentNext → step s = .next t → t.TxSafe

/-! ## The whole machine -/

/-- R43: every step of every turn keeps the invariants. -/
def Obligations.EveryStepKeepsTheInvariant : Prop :=
  ∀ s t : State, s.Inv → step s = .next t → t.Inv

/-- R43, R300: they hold at reset, under every well-formed configuration, and TXQ is sound there. That State.reset itself
meets them rests on the configuration the model chose for it (log 2). -/
def Obligations.ResetMeetsTheInvariant : Prop :=
  (∀ c : Config, c.wf = true → (State.resetWith c).Inv ∧ (State.resetWith c).TxSafe) ∧ State.reset.Inv

/-- R300: what reset leaves in the registers the spec gives a value, under every configuration. -/
def Obligations.ResetValuesAreTheSpecs : Prop :=
  ∀ c : Config, ∀ s : State, s = State.resetWith c →
    s.txState = .idle ∧ s.frameCount = 0 ∧ s.abort = ⟨false, false⟩ ∧ s.abortCount = ⟨0, 0⟩
    ∧ s.slcLive = List.replicate 12 0 ∧ s.slcPending = List.replicate 12 0 ∧ s.cachPtr = 0
    ∧ s.trim3 = 0 ∧ s.trim1 = 0 ∧ s.atMode = 0 ∧ s.colourCode = none ∧ s.idle = none
    ∧ s.poLen = 0 ∧ s.poPtr = 0 ∧ s.fir = List.replicate (c.phaseLen - 1) 0 ∧ s.ptt = false
    ∧ (∀ q, (s.sampleRing q).head = 0 ∧ (s.sampleRing q).tail = 0 ∧ (s.sampleRing q).full = false
        ∧ (s.sampleRing q).overflow = false)
    ∧ ∀ k, (s.fifo.get k).head = 0 ∧ (s.fifo.get k).tail = 0 ∧ (s.fifo.get k).full = false
        ∧ (s.fifo.get k).overflow = false

/-- R304, R301: what the host and the channel observe right after reset, under every well-formed configuration, and that the
sequencer has no step there. For an N_FIFO of 2^32 or more the count READ_FREE_SPACE returns is truncated by the model's
reading (log 24). -/
def Obligations.ObservationsAfterReset : Prop :=
  ∀ (c : Config) (s : State), c.wf = true → s = State.resetWith c →
    exec (.readFrameCount []) s = .next (answered s [0, 0, 0, 0, 0])
    ∧ exec (.readFreeSpace [1]) s = .next (answered s (0x00 :: bigEndian c.nFifo))
    ∧ exec (.readFreeSpace [2]) s = .next (answered s (0x00 :: bigEndian c.nFifo))
    ∧ (∀ r : Byte, r.toNat ≤ 4 → exec (.pollOverflow [r]) s = .next (answered s [0x00, 0x00]))
    ∧ (∀ rx rssi, ∃ t, exec (.ioService rx rssi) s = .next t ∧ t.txOut = [⟨c.silence, .none⟩] ∧ t.ptt = false)
    ∧ s.sequencerStep = none

/-- R305, R306, R275: once the boot contract holds it stays, and no step faults. -/
def Obligations.BootedMachineNeverFaults : Prop :=
  ∀ s : State, s.Booted → (∀ f, step s ≠ .fault f) ∧ ∀ t, step s = .next t → t.Booted

/-- R22-R38, R41, R76: each register is written only by the operations its rule names, and the configuration by none. For a ring
these are its puts, gets, resets and takes, by the operations R37 names and the ring operations themselves. -/
def Obligations.RegistersHaveOnlyTheirWriters : Prop :=
  ∀ (i : Instr) (s t : State), exec i s = .next t →
    t.cfg = s.cfg
    ∧ (t.frameCount ≠ s.frameCount → (∃ tx rx, i = .buildCach tx rx) ∨ ∃ p, i = .start p)
    ∧ (t.abort ≠ s.abort → (∃ k, i = .buildData k) ∨ (∃ p, i = .writeAbort p) ∨ ∃ p, i = .start p)
    ∧ (t.abortCount ≠ s.abortCount → (∃ tx rx, i = .buildCach tx rx) ∨ (∃ p, i = .writeAbort p) ∨ ∃ p, i = .start p)
    ∧ (t.slcLive ≠ s.slcLive → s.cachPtr = 0 ∧ ∃ tx rx, i = .buildCach tx rx)
    ∧ (t.slcPending ≠ s.slcPending → ∃ p, i = .writeShortLc p)
    ∧ (t.cachPtr ≠ s.cachPtr → ∃ tx rx, i = .buildCach tx rx)
    ∧ (t.trim3 ≠ s.trim3 ∨ t.trim1 ≠ s.trim1 → ∃ p, i = .setSymlvl p)
    ∧ (t.atMode ≠ s.atMode → ∃ p, i = .setAtSupp p)
    ∧ (t.idle ≠ s.idle ∨ t.colourCode ≠ s.colourCode → ∃ p, i = .setColorCode p)
    ∧ (t.fir ≠ s.fir → i = .emitByte ∨ (∃ b u, i = .modulate b u) ∨ ∃ x, i = .firStep x)
    ∧ (t.txOn ≠ s.txOn → i = .emitByte ∨ (∃ m b, i = .ioPush m b) ∨ (∃ b, i = .ioSetTransmit b) ∨ ∃ a b, i = .ioService a b)
    ∧ (t.txState ≠ s.txState → isBuild i ∨ (∃ p, i = .start p) ∨ (∃ p, i = .setCal p)
        ∨ (s.txState = .idle ∧ t.txState = .slot1 ∧ ∃ p, i = .writeSlotData p))
    ∧ (t.poBuf ≠ s.poBuf ∨ t.poTag ≠ s.poTag → isBuild i)
    ∧ (t.poLen ≠ s.poLen ∨ t.poPtr ≠ s.poPtr → isBuild i ∨ i = .emitByte)
    ∧ (∀ q, (t.sampleRing q).buf ≠ (s.sampleRing q).buf → putsOn i (.sample q))
    ∧ (∀ k, (t.fifo.get k).buf ≠ (s.fifo.get k).buf → putsOn i (.fifo k))
    ∧ ∀ q, ((ringRegs t q).head ≠ (ringRegs s q).head → putsOn i q ∨ resetsRing i q)
        ∧ ((ringRegs t q).tail ≠ (ringRegs s q).tail → getsFrom i q ∨ resetsRing i q)
        ∧ ((ringRegs t q).full ≠ (ringRegs s q).full → putsOn i q ∨ getsFrom i q ∨ resetsRing i q)
        ∧ ((ringRegs t q).overflow ≠ (ringRegs s q).overflow → putsOn i q ∨ resetsRing i q ∨ takesOverflow i q)
end

