-- ==== Sys2Proof/Laws/Bits.lean ====
section
/-! SUPPORT. Stream bits (spec/00_scope.md R8): what a write or an OR changes, and what it leaves. -/

namespace Sys2Proof.Machine

theorem bitMask_getLsbD (k j : Nat) (hj : j < 8) : (bitMask k).getLsbD j = decide (j = k) := by
  simp only [bitMask, BitVec.getLsbD_shiftLeft, BitVec.getLsbD_one]
  by_cases h : j = k
  · subst h; simp [hj]
  · simp [h, hj]; omega

@[simp] theorem length_writeBit (p : List Byte) (i : Nat) (b : Bool) : (writeBit p i b).length = p.length := by
  simp [writeBit]

@[simp] theorem length_orBit (p : List Byte) (i : Nat) (b : Bool) : (orBit p i b).length = p.length := by simp [orBit]

/-- Reading a bit of a list one of whose bytes was changed. -/
theorem readBit_modify (p : List Byte) (i j : Nat) (f : Byte → Byte) (hi : i < 8 * p.length) :
    readBit (p.modify (i / 8) f) j =
      if j / 8 = i / 8 then (f (p.getD (i / 8) 0)).getLsbD (7 - j % 8) else readBit p j := by
  have hlt : i / 8 < p.length := by omega
  unfold readBit
  split
  · rename_i h
    rw [h]
    simp [List.getD_eq_getElem?_getD, List.getElem?_eq_getElem hlt]
  · rename_i h
    congr 1
    simp [List.getD_eq_getElem?_getD, Ne.symm h]

/-- The bit written reads back; every other bit is as before (R8). -/
theorem readBit_writeBit (p : List Byte) (i j : Nat) (b : Bool) (hi : i < 8 * p.length) :
    readBit (writeBit p i b) j = if j = i then b else readBit p j := by
  rw [writeBit, readBit_modify p i j _ hi]
  by_cases h : j / 8 = i / 8
  · rw [if_pos h]
    have hm := bitMask_getLsbD (7 - i % 8) (7 - j % 8) (by omega)
    have he : (7 - j % 8 = 7 - i % 8) ↔ j = i := by omega
    have h8 : 7 - j % 8 < 8 := by omega
    rw [readBit, h]
    cases b <;>
      simp only [if_true, if_false, Bool.false_eq_true, BitVec.getLsbD_or, BitVec.getLsbD_and, BitVec.getLsbD_not, hm, he,
        h8, decide_true] <;>
      by_cases hji : j = i <;> simp [hji]
  · rw [if_neg h, if_neg (by rintro rfl; exact h rfl)]

/-- ORing a bit in keeps every other bit (R167). -/
theorem readBit_orBit (p : List Byte) (i j : Nat) (b : Bool) (hi : i < 8 * p.length) :
    readBit (orBit p i b) j = (readBit p j || (b && j == i)) := by
  rw [orBit, readBit_modify p i j _ hi]
  by_cases h : j / 8 = i / 8
  · rw [if_pos h]
    have hm := bitMask_getLsbD (7 - i % 8) (7 - j % 8) (by omega)
    have he : (7 - j % 8 = 7 - i % 8) ↔ j = i := by omega
    rw [readBit, h]
    cases b <;> simp only [if_true, if_false, Bool.false_eq_true, BitVec.getLsbD_or, hm, he] <;>
      by_cases hji : j = i <;> simp [hji]
  · rw [if_neg h]
    have : (j == i) = false := by simp; rintro rfl; exact h rfl
    simp [this]

@[simp] theorem length_orControlBits (pos : CtrlPos) (v : ControlBits) (p : List Byte) :
    (orControlBits pos v p).length = p.length := by simp [orControlBits]

/-- The control bits are ORed in at their positions and nowhere else (R167). -/
theorem readBit_orControlBits (pos : CtrlPos) (v : ControlBits) (p : List Byte) (j : Nat) (hp : p.length = 3)
    (hpos : ∀ i ∈ pos.toList, i < 24) :
    readBit (orControlBits pos v p) j =
      (readBit p j || (v.accessType && j == pos.accessType) || (v.tc && j == pos.tc) || (v.ls1 && j == pos.ls1)
        || (v.ls0 && j == pos.ls0) || (v.h0 && j == pos.h0) || (v.h1 && j == pos.h1) || (v.h2 && j == pos.h2)) := by
  simp only [CtrlPos.toList, List.mem_cons, List.not_mem_nil, or_false, forall_eq_or_imp, forall_eq] at hpos
  obtain ⟨h1, h2, h3, h4, h5, h6, h7⟩ := hpos
  simp only [orControlBits]
  repeat rw [readBit_orBit _ _ _ _ (by (try simp only [length_orBit]); omega)]

/-- `sat16` bounds its operand (R10). -/
theorem toInt_sat16 (v : Int) : (sat16 v).toInt = min 32767 (max (-32768) v) := by
  rw [sat16, BitVec.toInt_ofInt, Int.bmod_eq_of_le (by omega) (by omega)]

/-- `asr` is the floor of the quotient (R10). -/
theorem asr_eq_fdiv (v : Int) (k : Nat) : asr v k = v.fdiv (2 ^ k) := by
  rw [asr, Int.fdiv_eq_ediv_of_nonneg]; positivity

end Sys2Proof.Machine
end

