-- ==== Sys2Proof/Laws/Ring.lean ====
section
/-! SUPPORT. What each ring operation can do, said once, over a ring that is well-formed (spec/40_ring_buffers.md). -/

namespace Sys2Proof.Machine

variable {α : Type} {n : Nat} {r : RingBuf α}

/-- An index below `2n`, reduced modulo `n`. -/
theorem wrap_index (n a : Nat) (h : a < 2 * n) : a % n = if a < n then a else a - n := by
  split
  · exact Nat.mod_eq_of_lt ‹_›
  · rw [Nat.mod_eq_sub_mod (by omega), Nat.mod_eq_of_lt (by omega)]

/-! ## Counting -/

/-- A cursor's successor. -/
theorem wrap_succ (n a : Nat) (h : a < n) : (a + 1) % n = if a + 1 = n then 0 else a + 1 := by
  split
  · simp [‹a + 1 = n›]
  · exact Nat.mod_eq_of_lt (by omega)

/-- The number of stored items, by cases on the cursors. -/
theorem RingBuf.count_eq (hw : r.Wf n) :
    r.count n = if r.full then n else if r.tail ≤ r.head then r.head - r.tail else r.head + n - r.tail := by
  obtain ⟨-, hh, ht, -⟩ := hw
  unfold RingBuf.count
  split
  · rfl
  · rw [wrap_index n _ (by omega)]
    split <;> split <;> omega

theorem RingBuf.count_le (hw : r.Wf n) : r.count n ≤ n := by
  have := hw.2.1
  have := hw.2.2.1
  rw [count_eq hw]
  split
  · exact le_refl n
  · split <;> omega

/-- `RingFree` is what the stored items leave of the capacity. -/
theorem RingBuf.free_eq (hw : r.Wf n) : r.free n = n - r.count n := by
  rw [count_eq hw]
  obtain ⟨-, hh, ht, -⟩ := hw
  unfold RingBuf.free
  split
  · omega
  · split
    · split <;> omega
    · split <;> split <;> omega

theorem RingBuf.occupied_eq (hw : r.Wf n) : r.occupied n = r.count n := by
  have := count_le hw
  rw [RingBuf.occupied, free_eq hw]
  omega

theorem RingBuf.free_eq_zero_iff (hw : r.Wf n) : r.free n = 0 ↔ r.full = true := by
  have h := count_eq hw
  have := hw.2.1
  have := hw.2.2.1
  rw [free_eq hw, h]
  cases r.full
  · simp only [Bool.false_eq_true, if_false, iff_false]
    split <;> omega
  · simp

/-- An item stands at every index a stored item has. -/
theorem RingBuf.items_eq_map (hw : r.Wf n) (i : Nat) : r.buf[(r.tail + i) % n]?.isSome := by
  have : (r.tail + i) % n < r.buf.length := by rw [hw.1]; exact Nat.mod_lt _ (by have := hw.2.1; omega)
  simp [this]

/-- A filtered map that drops nothing keeps its length. -/
theorem length_filterMap_isSome {β γ : Type} (l : List β) (f : β → Option γ) (h : ∀ x, (f x).isSome) :
    (l.filterMap f).length = l.length := by
  induction l with
  | nil => rfl
  | cons x xs ih =>
    obtain ⟨y, hy⟩ := Option.isSome_iff_exists.mp (h x)
    simp [hy, ih]

theorem RingBuf.length_items (hw : r.Wf n) : (r.items n).length = r.count n := by
  rw [RingBuf.items, length_filterMap_isSome _ _ (items_eq_map hw), List.length_range]

/-- Occupancy is the number of items that gets will return. -/
theorem RingBuf.occupied_eq_length (hw : r.Wf n) : r.occupied n = (r.items n).length := by
  rw [occupied_eq hw, length_items hw]

theorem RingBuf.length_items_le (hw : r.Wf n) : (r.items n).length ≤ n := by
  rw [length_items hw]; exact count_le hw

theorem RingBuf.free_eq_length (hw : r.Wf n) : r.free n = n - (r.items n).length := by
  rw [free_eq hw, length_items hw]

/-! ## Empty and full -/

theorem RingBuf.isEmpty_iff (hw : r.Wf n) : r.isEmpty = true ↔ r.items n = [] := by
  rw [← List.length_eq_zero_iff, length_items hw, count_eq hw, RingBuf.isEmpty]
  have := hw.2.1
  have := hw.2.2.1
  cases r.full
  · simp only [Bool.not_false, Bool.and_true, beq_iff_eq, Bool.false_eq_true, if_false]
    split <;> omega
  · simp only [Bool.not_true, Bool.and_false, Bool.false_eq_true, if_true, false_iff]
    omega

theorem RingBuf.full_iff (hw : r.Wf n) : r.full = true ↔ (r.items n).length = n := by
  rw [length_items hw, count_eq hw]
  have := hw.2.1
  have := hw.2.2.1
  cases r.full
  · simp only [Bool.false_eq_true, if_false, false_iff]
    split <;> omega
  · simp

/-! ## Construction, reset, overflow -/

theorem RingBuf.fresh_wf (x : α) (h : 1 ≤ n) : (RingBuf.fresh n x).Wf n :=
  ⟨List.length_replicate, h, h, fun _ => rfl⟩

theorem RingBuf.reset_wf (hw : r.Wf n) : r.reset.Wf n :=
  ⟨hw.1, by have := hw.2.1; simp only [RingBuf.reset]; omega, by have := hw.2.1; simp only [RingBuf.reset]; omega, fun _ => rfl⟩

theorem RingBuf.items_of_cursors_zero (r : RingBuf α) (n : Nat) (hf : r.full = false) (h : r.head = r.tail) :
    r.items n = [] := by
  have : r.count n = 0 := by simp [RingBuf.count, hf, h]
  simp [RingBuf.items, this]

theorem RingBuf.items_fresh (n : Nat) (x : α) : (RingBuf.fresh n x).items n = [] := items_of_cursors_zero _ _ rfl rfl

theorem RingBuf.items_reset (n : Nat) (r : RingBuf α) : r.reset.items n = [] := items_of_cursors_zero _ _ rfl rfl

theorem RingBuf.clearOverflow_wf (hw : r.Wf n) : r.clearOverflow.Wf n := hw

theorem RingBuf.items_clearOverflow (n : Nat) (r : RingBuf α) : r.clearOverflow.items n = r.items n := rfl

/-! ## Put -/

/-- A put on a full ring changes nothing but `overflow` (R115). -/
theorem RingBuf.put_full (n : Nat) (r : RingBuf α) (x : α) (h : r.full = true) :
    r.put n x = ({ r with overflow := true }, false) := by simp [RingBuf.put, h]

theorem RingBuf.put_wf (x : α) (hw : r.Wf n) : (r.put n x).1.Wf n := by
  unfold RingBuf.put
  obtain ⟨hb, hh, ht, hf⟩ := hw
  split
  · exact ⟨hb, hh, ht, hf⟩
  · refine ⟨by simp [hb], Nat.mod_lt _ (by omega), ht, fun h => by simpa using h⟩

/-- A put on a ring that is not full stores its item behind the others (R115, R121). -/
theorem RingBuf.put_notFull (x : α) (hw : r.Wf n) (h : r.full = false) :
    (r.put n x).2 = true ∧ (r.put n x).1.overflow = r.overflow ∧ (r.put n x).1.items n = r.items n ++ [x] := by
  refine ⟨by simp [RingBuf.put, h], by simp [RingBuf.put, h], ?_⟩
  have hc' := count_eq (put_wf x hw)
  have hc := count_eq hw
  obtain ⟨hb, hh, ht, -⟩ := hw
  have hput : (r.put n x).1 = { r with buf := r.buf.set r.head x, head := (r.head + 1) % n, full := (r.head + 1) % n == r.tail } := by
    simp [RingBuf.put, h]
  rw [hput] at hc' ⊢
  simp only [h, Bool.false_eq_true, if_false] at hc
  simp only [beq_iff_eq] at hc'
  rw [wrap_succ n _ hh] at hc' ⊢
  have hsucc : RingBuf.count n { r with buf := r.buf.set r.head x, head := if r.head + 1 = n then 0 else r.head + 1, full := (if r.head + 1 = n then 0 else r.head + 1) == r.tail } = r.count n + 1 := by
    rw [hc', hc]
    split_ifs <;> omega
  have hlt : r.count n < n := by rw [hc]; split <;> omega
  rw [RingBuf.items, RingBuf.items, hsucc, List.range_succ, List.filterMap_append]
  congr 1
  · refine List.filterMap_congr fun i hi => ?_
    rw [List.mem_range] at hi
    clear hc' hsucc hput
    show (r.buf.set r.head x)[(r.tail + i) % n]? = r.buf[(r.tail + i) % n]?
    rw [List.getElem?_set_ne]
    rw [wrap_index n _ (by omega)]
    split <;> split at hc <;> omega
  · have : (r.tail + r.count n) % n = r.head := by
      rw [wrap_index n _ (by omega)]
      split <;> split at hc <;> omega
    simp [this, hb, hh]

/-! ## Get -/

/-- A get from an empty ring answers nothing and changes nothing (R116). -/
theorem RingBuf.get_empty (hw : r.Wf n) (h : r.items n = []) : r.get n = (none, r) := by
  simp [RingBuf.get, (isEmpty_iff hw).mpr h]

/-- A get from a ring that is not empty answers the oldest item and leaves the others (R116, R121). -/
theorem RingBuf.get_cons {x : α} {xs : List α} (hw : r.Wf n) (h : r.items n = x :: xs) :
    (r.get n).1 = some x ∧ (r.get n).2.Wf n ∧ (r.get n).2.items n = xs ∧ (r.get n).2.full = false
      ∧ (r.get n).2.overflow = r.overflow ∧ (r.get n).2.buf = r.buf ∧ (r.get n).2.head = r.head := by
  have hne : r.isEmpty = false := by
    rw [← Bool.not_eq_true, isEmpty_iff hw, h]; simp
  have hlen := length_items hw
  rw [h, List.length_cons] at hlen
  have hc := count_eq hw
  obtain ⟨hb, hh, ht, hf⟩ := hw
  have hat : r.buf[r.tail]? = some x := by
    have h0 := h
    rw [RingBuf.items, ← hlen, List.range_succ_eq_map, List.filterMap_cons] at h0
    have hlt : r.tail < r.buf.length := by omega
    rw [Nat.add_zero, Nat.mod_eq_of_lt ht] at h0
    rw [List.getElem?_eq_getElem hlt] at h0 ⊢
    simp only [List.cons.injEq] at h0
    rw [h0.1]
  have hget : r.get n = (some x, { r with full := false, tail := (r.tail + 1) % n }) := by
    simp [RingBuf.get, hne, hat]
  rw [hget]
  have hw' : RingBuf.Wf n { r with full := false, tail := (r.tail + 1) % n } :=
    ⟨hb, hh, Nat.mod_lt _ (by omega), fun h => by simp at h⟩
  refine ⟨rfl, hw', ?_, rfl, rfl, rfl, rfl⟩
  have hc' := count_eq hw'
  simp only [Bool.false_eq_true, if_false] at hc'
  rw [wrap_succ n _ ht] at hc' ⊢
  have hcnt : RingBuf.count n { r with full := false, tail := if r.tail + 1 = n then 0 else r.tail + 1 } = xs.length := by
    rw [hc']
    cases hfull : r.full
    · simp only [RingBuf.isEmpty, hfull, Bool.not_false, Bool.and_true, beq_eq_false_iff_ne] at hne
      simp only [hfull, Bool.false_eq_true, if_false] at hc
      split at hc <;> split_ifs <;> omega
    · have := hf hfull
      simp only [hfull, if_true] at hc
      split_ifs <;> omega
  have h0 := h
  rw [RingBuf.items, ← hlen, List.range_succ_eq_map, List.filterMap_cons, Nat.add_zero, Nat.mod_eq_of_lt ht, hat] at h0
  simp only [List.cons.injEq, true_and, List.filterMap_map] at h0
  rw [← h0, RingBuf.items, hcnt]
  refine List.filterMap_congr fun i hi => ?_
  have := count_le ⟨hb, hh, ht, hf⟩
  rw [List.mem_range] at hi
  simp only [Function.comp]
  rw [wrap_index n (r.tail + (i + 1)) (by omega)]
  split_ifs with h1 h2 <;> (first | omega | (rw [wrap_index n _ (by omega)]; split_ifs <;> congr 1 <;> omega))

theorem RingBuf.get_wf (hw : r.Wf n) : (r.get n).2.Wf n := by
  cases h : r.items n with
  | nil => rw [get_empty hw h]; exact hw
  | cons x xs => exact (get_cons hw h).2.1

/-! ## One put and one get, in one statement each -/

/-- Everything a put can do (R115). -/
theorem RingBuf.put_spec (x : α) (hw : r.Wf n) :
    (r.put n x).2 = !r.full
      ∧ (r.full = true → (r.put n x).1 = { r with overflow := true })
      ∧ (r.full = false →
          (r.put n x).1.items n = r.items n ++ [x] ∧ (r.put n x).1.overflow = r.overflow ∧ (r.put n x).1.tail = r.tail
          ∧ (r.put n x).1.head = (r.head + 1) % n ∧ ((r.put n x).1.full = true ↔ (r.put n x).1.head = (r.put n x).1.tail)
          ∧ (r.put n x).1.buf = r.buf.set r.head x) := by
  cases hf : r.full with
  | true => simp [put_full n r x hf, hf]
  | false =>
    obtain ⟨h1, h2, h3⟩ := put_notFull x hw hf
    refine ⟨by simp [h1], by simp, fun _ => ⟨h3, h2, ?_⟩⟩
    simp [RingBuf.put, hf]

/-- Everything a get can do (R116). -/
theorem RingBuf.get_spec (hw : r.Wf n) :
    (r.get n).1 = (r.items n).head? ∧ (r.get n).2.items n = (r.items n).tail ∧ (r.get n).2.overflow = r.overflow
      ∧ (r.get n).2.buf = r.buf ∧ (r.get n).2.head = r.head
      ∧ ((r.items n).length = 0 → (r.get n).2 = r)
      ∧ (0 < (r.items n).length → (r.get n).2.full = false ∧ (r.get n).2.tail = (r.tail + 1) % n) := by
  cases h : r.items n with
  | nil => simp [get_empty hw h, h]
  | cons x xs =>
    obtain ⟨h1, h2, h3, h4, h5, h6, h7⟩ := get_cons hw h
    refine ⟨by simp [h1], by simp [h3], h5, h6, h7, by simp, fun _ => ⟨h4, ?_⟩⟩
    revert h1
    unfold RingBuf.get
    split
    · simp
    · split <;> simp

/-! ## Many puts, many gets -/

theorem RingBuf.putAll_wf (xs : List α) (hw : r.Wf n) : (r.putAll n xs).Wf n := by
  induction xs generalizing r with
  | nil => exact hw
  | cons x xs ih => exact ih (put_wf x hw)

/-- Everything many puts can do: as many items as there is room for are stored, in order, and `overflow` latches where
one is lost (R115, R121). -/
theorem RingBuf.putAll_spec (xs : List α) (hw : r.Wf n) :
    (r.putAll n xs).items n = r.items n ++ xs.take (r.free n)
      ∧ (r.putAll n xs).overflow = (r.overflow || decide (r.free n < xs.length)) := by
  induction xs generalizing r with
  | nil => simp [RingBuf.putAll]
  | cons x xs ih =>
    have := ih (put_wf x hw)
    rw [RingBuf.putAll, this.1, this.2]
    cases hf : r.full
    · obtain ⟨-, ho, hi⟩ := put_notFull x hw hf
      have hpos : r.free n ≠ 0 := by rw [Ne, free_eq_zero_iff hw, hf]; decide
      have hfree : r.free n = ((r.put n x).1.free n) + 1 := by
        rw [free_eq_length (put_wf x hw), hi]
        rw [free_eq_length hw] at hpos ⊢
        simp only [List.length_append, List.length_cons, List.length_nil]
        omega
      rw [hi, ho, hfree]
      simp
    · have h0 : r.free n = 0 := (free_eq_zero_iff hw).mpr hf
      rw [put_full n r x hf]
      have : (RingBuf.free n { r with overflow := true }) = 0 := h0
      simp [this, h0, RingBuf.items, RingBuf.count]

/-- With room for them all, every item of a batch is stored, in order (R223, R175). -/
theorem RingBuf.putAll_room (xs : List α) (hw : r.Wf n) (h : (r.items n).length + xs.length ≤ n) :
    (r.putAll n xs).items n = r.items n ++ xs ∧ (r.putAll n xs).overflow = r.overflow := by
  have hr : xs.length ≤ r.free n := by rw [free_eq_length hw]; omega
  obtain ⟨hi, ho⟩ := putAll_spec xs hw
  rw [hi, ho, List.take_of_length_le hr, decide_eq_false (by omega), Bool.or_false]
  exact ⟨rfl, rfl⟩

theorem RingBuf.afterGets_wf (k : Nat) (hw : r.Wf n) : (r.afterGets n k).Wf n := by
  induction k generalizing r with
  | zero => exact hw
  | succ k ih => exact ih (get_wf hw)

/-- Gets in a row return the oldest items in order and leave the rest (R72, R153). -/
theorem RingBuf.gets_spec (k : Nat) (hw : r.Wf n) :
    r.taken n k = (r.items n).take k ∧ (r.afterGets n k).items n = (r.items n).drop k
      ∧ (r.afterGets n k).overflow = r.overflow := by
  induction k generalizing r with
  | zero => simp [RingBuf.taken, RingBuf.afterGets]
  | succ k ih =>
    cases h : r.items n with
    | nil =>
      have hg := get_empty hw h
      have := ih hw
      simp only [RingBuf.taken, RingBuf.afterGets, hg, this.2.1, this.2.2, h]
      simp
    | cons x xs =>
      obtain ⟨h1, h2, h3, -, h5, -⟩ := get_cons hw h
      have := ih h2
      simp only [RingBuf.taken, RingBuf.afterGets, h1, this.1, this.2.1, this.2.2, h3, h5]
      simp

end Sys2Proof.Machine
end

