-- ==== Sys2Proof/Laws/Config.lean ====
section
/-! SUPPORT. What a well-formed configuration gives (spec/00_scope.md R6, R7), clause by clause. -/

namespace Sys2Proof

theorem allDistinct_iff (l : List Nat) : allDistinct l = true ↔ l.Nodup := by
  induction l with
  | nil => simp [allDistinct]
  | cons x xs ih => simp [allDistinct, ih]

/-- The clauses of R7 (and R6's types) as propositions. -/
structure Config.Clauses (c : Config) : Prop where
  idleBase : c.idleBase.length = c.burstBytes
  calBurst : c.calBurst.length = c.burstBytes
  tableLength : c.slcInterleave.length = 68
  nRx : 1 ≤ c.nRx
  nRssi : 1 ≤ c.nRssi
  ctrlPos : ∀ p ∈ c.ctrlPos.toList, p < 24
  osr : 1 ≤ c.osr
  phaseLen : 1 ≤ c.phaseLen
  coef : c.rrcCoef.length = c.osr * c.phaseLen
  levels : ∀ l ∈ [c.levelA, c.levelB, c.levelC, c.levelD], -(32767 - 128) ≤ l.toInt ∧ l.toInt ≤ 32767 - 128
  nTx : 4 * c.osr < c.nTx
  nFifo : c.burstBytes ≤ c.nFifo
  burst : 3 ≤ c.burstBytes
  tableNodup : c.slcInterleave.Nodup
  tableRange : ∀ p ∈ c.slcInterleave, p < 96
  tableFree : ∀ p ∈ c.slcInterleave, ∀ q ∈ c.ctrlPos.toList, ∀ k < 4, p ≠ q + 24 * k
  encoder : ∀ cc t f, (c.slotTypeEncode cc t f).length = f.length
  abortLimit : 1 ≤ c.abortLimit.toNat

/-- The clauses side by side. -/
theorem Config.wf_eq (c : Config) : (c.wf = true) =
    (c.idleBase.length == c.burstBytes ∧ c.calBurst.length == c.burstBytes ∧ c.slcInterleave.length == slcBits
      ∧ decide (1 ≤ c.nRx) ∧ decide (1 ≤ c.nRssi) ∧ (c.ctrlPos.toList.all fun p => decide (p < 8 * cachBytes))
      ∧ decide (1 ≤ c.osr) ∧ decide (1 ≤ c.phaseLen) ∧ c.rrcCoef.length == c.osr * c.phaseLen
      ∧ levelFits c.levelA ∧ levelFits c.levelB ∧ levelFits c.levelC ∧ levelFits c.levelD
      ∧ decide (4 * c.osr < c.nTx) ∧ decide (c.burstBytes ≤ c.nFifo) ∧ decide (cachBytes ≤ c.burstBytes)
      ∧ allDistinct c.slcInterleave
      ∧ (c.slcInterleave.all fun p => decide (p < 8 * slcBytes) && !c.ctrlPos.payloadPositions.contains p)
      ∧ c.encoderFits
      ∧ decide (1 ≤ c.abortLimit.toNat)) := by
  simp only [wf, shapeClauses, ruleClauses, List.cons_append, List.nil_append, List.all_cons, List.all_nil, id,
    Bool.and_true, Bool.and_eq_true]

/-- A known output belongs to a row of the table with these arguments. -/
theorem Config.knownOutput_some {c : Config} {cc t : Byte} {f out : List Byte} (h : c.knownOutput cc t f = some out) :
    ∃ r ∈ c.encodeKnown, r.cc = cc ∧ r.dataType = t ∧ r.frame = f := by
  obtain ⟨r, hr, -⟩ := Option.map_eq_some_iff.mp h
  have hp := List.find?_some hr
  simp only [Bool.and_eq_true, beq_iff_eq] at hp
  exact ⟨r, List.mem_of_find?_eq_some hr, hp.1.1, hp.1.2, hp.2⟩

/-- The check of R7 clause 8 says that the external encoder preserves length, whatever its arguments (R287). -/
theorem Config.encoderFits_iff (c : Config) :
    c.encoderFits = true ↔ ∀ cc t f, (c.slotTypeEncode cc t f).length = f.length := by
  simp only [encoderFits, List.all_eq_true, Option.all_eq_true, beq_iff_eq, slotTypeEncode]
  constructor
  · intro h cc t f
    split
    · rename_i out ho
      obtain ⟨r, hm, rfl, rfl, rfl⟩ := knownOutput_some ho
      exact h r hm out ho
    · simp
  · intro h r _ out ho
    simpa [ho] using h r.cc r.dataType r.frame

theorem Config.wf_iff (c : Config) : c.wf = true ↔ c.Clauses := by
  have hfree : ∀ p, c.ctrlPos.payloadPositions.contains p = false ↔ ∀ q ∈ c.ctrlPos.toList, ∀ k < 4, p ≠ q + 24 * k := by
    intro p
    rw [← Bool.not_eq_true, List.contains_iff_mem]
    simp only [CtrlPos.payloadPositions, List.mem_flatMap, List.mem_range, List.mem_map, not_exists, not_and]
    exact ⟨fun h q hq k hk e => h k hk q hq e.symm, fun h k hk q hq e => h q hq k hk e.symm⟩
  have hwf := Config.wf_eq c
  constructor
  · intro h
    rw [hwf] at h
    simp only [List.all_eq_true, Bool.and_eq_true, beq_iff_eq, decide_eq_true_eq, allDistinct_iff, levelFits,
      Bool.not_eq_true', hfree, encoderFits_iff] at h
    obtain ⟨h1, h2, h3, h4, h5, h6, h7, h8, h9, hA, hB, hC, hD, h10, h11, h12, h13, h14, h15, h16⟩ := h
    exact ⟨h1, h2, h3, h4, h5, h6, h7, h8, h9, by
      intro l hl
      simp only [List.mem_cons, List.not_mem_nil, or_false] at hl
      rcases hl with rfl | rfl | rfl | rfl
      exacts [hA, hB, hC, hD], h10, h11, h12, h13, fun p hp => (h14 p hp).1, fun p hp => (h14 p hp).2, h15, h16⟩
  · intro h
    have hl := h.levels
    simp only [List.mem_cons, List.not_mem_nil, or_false, forall_eq_or_imp, forall_eq] at hl
    rw [hwf]
    simp only [List.all_eq_true, Bool.and_eq_true, beq_iff_eq, decide_eq_true_eq, allDistinct_iff, levelFits,
      Bool.not_eq_true', hfree, encoderFits_iff]
    exact ⟨h.idleBase, h.calBurst, h.tableLength, h.nRx, h.nRssi, h.ctrlPos, h.osr, h.phaseLen, h.coef,
      hl.1, hl.2.1, hl.2.2.1, hl.2.2.2, h.nTx, h.nFifo, h.burst, h.tableNodup,
      fun p hp => ⟨h.tableRange p hp, h.tableFree p hp⟩, h.encoder, h.abortLimit⟩

/-- An idle template has one burst's length (R32). -/
theorem Config.idleTemplate_length {c : Config} (h : c.Clauses) (cc : Byte) :
    (c.idleTemplate cc).length = c.burstBytes := by
  rw [Config.idleTemplate, h.encoder, h.idleBase]

namespace Machine

variable {s : State}

theorem State.Inv.clauses (h : s.Inv) : s.cfg.Clauses := (Config.wf_iff _).mp h.1

/-- Every sample ring is well-formed at its capacity. -/
theorem State.RingsWf.sample (h : s.RingsWf) (q : SampleRing) : (s.sampleRing q).Wf (s.cfg.capacity (.sample q)) := by
  obtain ⟨h1, h2, h3, -⟩ := h
  cases q <;> assumption

/-- Every byte FIFO is well-formed at its capacity. -/
theorem State.RingsWf.fifoWf (h : s.RingsWf) (k : Slot) : (s.fifo.get k).Wf s.cfg.nFifo := by
  obtain ⟨-, -, -, h1, h2⟩ := h
  cases k <;> assumption

theorem State.Inv.sample (h : s.Inv) (q : SampleRing) : (s.sampleRing q).Wf (s.cfg.capacity (.sample q)) := h.2.1.sample q
theorem State.Inv.fifoWf (h : s.Inv) (k : Slot) : (s.fifo.get k).Wf s.cfg.nFifo := h.2.1.fifoWf k
theorem State.Inv.txqWf (h : s.Inv) : s.txq.Wf s.cfg.nTx := h.2.1.1

end Machine
end Sys2Proof
end

