-- ==== Sys2Proof/Laws/Decode.lean ====
section
/-! SUPPORT. The operand forms of spec/30_encoding.md read back what they write, and each shape of word says once what it
accepts. -/

namespace Sys2Proof

/-- One branch of a chain of tests. -/
theorem eq_of_ite {β : Type} {p : Prop} [Decidable p] {a b c : β} (h : (if p then a else b) = c) :
    (p ∧ a = c) ∨ (¬p ∧ b = c) := by
  split at h
  · exact .inl ⟨‹_›, h⟩
  · exact .inr ⟨‹_›, h⟩

/-! ## Frames (R81) -/

/-- A frame whose `len` names exactly the bytes that stand behind it, and what follows it. -/
theorem readFrame_append (op : Byte) (ops rest : List Byte) (h : ops.length ≤ 255) :
    readFrame (op :: BitVec.ofNat 8 ops.length :: (ops ++ rest)) =
      match hostCommand op ops with
      | some i => .command i rest
      | none => .reserved op rest := by
  have hl : (BitVec.ofNat 8 ops.length).toNat = ops.length := by rw [BitVec.toNat_ofNat]; omega
  simp only [readFrame, hl, List.length_append, List.take_left, List.drop_left]
  split
  · omega
  · cases hostCommand op ops <;> rfl

/-- The command a host opcode selects is the command of that opcode (R84). -/
theorem hostCommand_some {op : Byte} {ops : List Byte} {i : Instr} (h : hostCommand op ops = some i) :
    i = .writeSlotData ops ∨ i = .writeShortLc ops ∨ i = .writeAbort ops ∨ i = .start ops ∨ i = .setCal ops
      ∨ i = .setSymlvl ops ∨ i = .setAtSupp ops ∨ i = .setColorCode ops ∨ i = .readFreeSpace ops
      ∨ i = .readFrameCount ops ∨ i = .pollOverflow ops := by
  unfold hostCommand at h
  rcases eq_of_ite h with ⟨-, h⟩ | ⟨-, h⟩
  · exact .inl (Option.some.inj h).symm
  rcases eq_of_ite h with ⟨-, h⟩ | ⟨-, h⟩
  · exact .inr (.inl (Option.some.inj h).symm)
  rcases eq_of_ite h with ⟨-, h⟩ | ⟨-, h⟩
  · exact .inr (.inr (.inl (Option.some.inj h).symm))
  rcases eq_of_ite h with ⟨-, h⟩ | ⟨-, h⟩
  · exact .inr (.inr (.inr (.inl (Option.some.inj h).symm)))
  rcases eq_of_ite h with ⟨-, h⟩ | ⟨-, h⟩
  · exact .inr (.inr (.inr (.inr (.inl (Option.some.inj h).symm))))
  rcases eq_of_ite h with ⟨-, h⟩ | ⟨-, h⟩
  · exact .inr (.inr (.inr (.inr (.inr (.inl (Option.some.inj h).symm)))))
  rcases eq_of_ite h with ⟨-, h⟩ | ⟨-, h⟩
  · exact .inr (.inr (.inr (.inr (.inr (.inr (.inl (Option.some.inj h).symm))))))
  rcases eq_of_ite h with ⟨-, h⟩ | ⟨-, h⟩
  · exact .inr (.inr (.inr (.inr (.inr (.inr (.inr (.inl (Option.some.inj h).symm)))))))
  rcases eq_of_ite h with ⟨-, h⟩ | ⟨-, h⟩
  · exact .inr (.inr (.inr (.inr (.inr (.inr (.inr (.inr (.inl (Option.some.inj h).symm))))))))
  rcases eq_of_ite h with ⟨-, h⟩ | ⟨-, h⟩
  · exact .inr (.inr (.inr (.inr (.inr (.inr (.inr (.inr (.inr (.inl (Option.some.inj h).symm)))))))))
  rcases eq_of_ite h with ⟨-, h⟩ | ⟨-, h⟩
  · exact .inr (.inr (.inr (.inr (.inr (.inr (.inr (.inr (.inr (.inr ((Option.some.inj h).symm))))))))))
  · simp at h

/-! ## Operands of format I -/

theorem tagOperand_word (t : Tag) : tagOperand t.word = some t := by cases t <;> rfl

theorem byteOperand_word (b : Byte) : byteOperand (b.setWidth 16) = some b := by
  have := b.isLt
  simp [byteOperand]
  omega

theorem dibitOperand_word (d : BitVec 2) : dibitOperand (d.setWidth 16) = some d := by
  have := d.isLt
  simp [dibitOperand]
  omega

theorem batchOperand_words (l : List Item) : batchOperand (l.flatMap Item.words) = some l := by
  induction l with
  | nil => rfl
  | cons x xs ih => simp [Item.words, batchOperand, tagOperand_word, ih]

theorem byteOperand_some {a : Word16} {b : Byte} (h : byteOperand a = some b) : a = b.setWidth 16 := by
  rcases eq_of_ite h with ⟨hlt, h⟩ | ⟨-, h⟩
  · simp only [Option.some.injEq] at h
    subst h
    apply BitVec.eq_of_toNat_eq
    simp
    omega
  · simp at h

theorem dibitOperand_some {a : Word16} {d : BitVec 2} (h : dibitOperand a = some d) : a = d.setWidth 16 := by
  rcases eq_of_ite h with ⟨hlt, h⟩ | ⟨-, h⟩
  · simp only [Option.some.injEq] at h
    subst h
    apply BitVec.eq_of_toNat_eq
    simp
    omega
  · simp at h

theorem tagOperand_some {a : Word16} {t : Tag} (h : tagOperand a = some t) : a = t.word := by
  rcases eq_of_ite h with ⟨hc, h⟩ | ⟨-, h⟩
  · simp only [Option.some.injEq] at h; subst h; exact BitVec.eq_of_toNat_eq hc
  rcases eq_of_ite h with ⟨hc, h⟩ | ⟨-, h⟩
  · simp only [Option.some.injEq] at h; subst h; exact BitVec.eq_of_toNat_eq hc
  rcases eq_of_ite h with ⟨hc, h⟩ | ⟨-, h⟩
  · simp only [Option.some.injEq] at h; subst h; exact BitVec.eq_of_toNat_eq hc
  · simp at h

theorem batchOperand_some : ∀ {l : List Word16} {xs : List Item}, batchOperand l = some xs → l = xs.flatMap Item.words
  | [], xs, h => by simp only [batchOperand, Option.some.injEq] at h; subst h; rfl
  | [_], xs, h => by simp [batchOperand] at h
  | v :: t :: rest, xs, h => by
    simp only [batchOperand] at h
    split at h
    · rename_i tag items h1 h2
      simp only [Option.some.injEq] at h
      subst h
      simp [Item.words, tagOperand_some h1, batchOperand_some h2]
    · simp at h

/-! ## Shapes of words (R97-R99) -/

theorem plainWord_ok {f : Nat} {ops : List Word16} {i j : Instr} (h : plainWord f ops i = .ok j) :
    f = 0 ∧ ops = [] ∧ j = i := by
  unfold plainWord at h
  split_ifs at h with hf
  split at h <;> simp_all

theorem operandWord_ok {f : Nat} {r : Option Instr} {j : Instr} (h : operandWord f r = .ok j) : f = 0 ∧ r = some j := by
  unfold operandWord at h
  split_ifs at h with hf
  split at h <;> simp_all

theorem ringOfCode_code (q : RingId) : ringOfCode q.code = some q := by rcases q with q | k <;> [cases q; cases k] <;> rfl

theorem ringOfCode_some {f : Nat} {q : RingId} (h : ringOfCode f = some q) : f = q.code := by
  unfold ringOfCode at h
  split_ifs at h <;> simp only [Option.some.injEq] at h <;> subst h <;> assumption

theorem ringWord_ok {f : Nat} {ops : List Word16} {make : RingId → Instr} {j : Instr}
    (h : ringWord f ops make = .ok j) : ∃ q, f = q.code ∧ ops = [] ∧ j = make q := by
  unfold ringWord at h
  split at h
  · simp at h
  · rename_i q hq
    split at h
    · simp only [Except.ok.injEq] at h
      exact ⟨q, ringOfCode_some hq, rfl, h.symm⟩
    · simp at h

theorem buildDataWord_ok {f : Nat} {ops : List Word16} {j : Instr} (h : buildDataWord f ops = .ok j) :
    ∃ k : Slot, f = k.index ∧ ops = [] ∧ j = .buildData k := by
  unfold buildDataWord slotOfIndex at h
  split_ifs at h <;> simp at h <;> obtain ⟨-, rfl, rfl⟩ := plainWord_ok h <;> subst f
  exacts [⟨.slot0, rfl, rfl, rfl⟩, ⟨.slot1, rfl, rfl, rfl⟩]

theorem buildCachWord_ok {f : Nat} {ops : List Word16} {j : Instr} (h : buildCachWord f ops = .ok j) :
    ∃ tx rx : Slot, tx ≠ rx ∧ f = tx.index * 2 + rx.index ∧ ops = [] ∧ j = .buildCach tx rx := by
  unfold buildCachWord at h
  split_ifs at h <;> obtain ⟨-, rfl, rfl⟩ := plainWord_ok h <;> subst f
  exacts [⟨.slot1, .slot0, by decide, rfl, rfl, rfl⟩, ⟨.slot0, .slot1, by decide, rfl, rfl, rfl⟩]

theorem setTransmitWord_ok {f : Nat} {ops : List Word16} {j : Instr} (h : setTransmitWord f ops = .ok j) :
    ∃ b : Bool, f = b.toNat ∧ ops = [] ∧ j = .ioSetTransmit b := by
  unfold setTransmitWord at h
  split_ifs at h <;> obtain ⟨-, rfl, rfl⟩ := plainWord_ok h <;> subst f
  exacts [⟨false, rfl, rfl, rfl⟩, ⟨true, rfl, rfl, rfl⟩]

theorem ringPutWord_ok {f : Nat} {ops : List Word16} {j : Instr} (h : ringPutWord f ops = .ok j) :
    ∃ a : PutArg, f = a.ring.code ∧ ops = a.words ∧ j = .ringPut a := by
  unfold ringPutWord at h
  split at h
  · simp at h
  · rename_i q hq
    obtain ⟨-, h⟩ := operandWord_ok h
    simp at h
    obtain ⟨a, ha, rfl⟩ := h
    have := ringOfCode_some hq
    subst this
    refine ⟨a, ?_⟩
    unfold putOperand at ha
    split at ha <;> simp at ha
    · obtain ⟨t, ht, rfl⟩ := ha
      simp [PutArg.ring, PutArg.words, Item.words, tagOperand_some ht]
    · obtain ⟨t, ht, rfl⟩ := ha
      simp [PutArg.ring, PutArg.words, byteOperand_some ht]

theorem modulateOperands_some {ops : List Word16} {j : Instr} (h : modulateOperands ops = some j) :
    ∃ (b : Byte) (t : Tag), ops = [b.setWidth 16, t.word] ∧ j = .modulate b t := by
    unfold modulateOperands at h
    split at h
    · split at h <;> simp at h
      subst h
      rename_i b t _ _ h1 h2
      exact ⟨_, _, by rw [byteOperand_some h1, tagOperand_some h2], rfl⟩
    · simp at h

theorem ioPushOperands_some {ops : List Word16} {j : Instr} (h : ioPushOperands ops = some j) :
    ∃ (m : Byte) (b : List Item), ops = m.setWidth 16 :: b.flatMap Item.words ∧ j = .ioPush m b := by
    unfold ioPushOperands at h
    split at h
    · split at h <;> simp at h
      subst h
      rename_i h1 h2
      exact ⟨_, _, by rw [byteOperand_some h1, batchOperand_some h2], rfl⟩
    · simp at h

/-- A word taken apart again into its code and field (R97). -/
theorem decodeWord_fields (code field : Nat) (ops : List Word16) (hc : code < 256) (hf : field < 256) :
    decodeWord (BitVec.ofNat 16 (code * 256 + field)) ops = decodeFields code field ops := by
  have h : (BitVec.ofNat 16 (code * 256 + field)).toNat = code * 256 + field := by simp; omega
  rw [decodeWord, h]
  congr 1 <;> omega

end Sys2Proof
end

