-- ==== Sys2Proof/Laws/Modulator.lean ====
section
/-! SUPPORT. The modulator's functions (spec/42_modulator.md): lengths, the delay line, one output by index. -/

namespace Sys2Proof.Machine

@[simp] theorem length_firOut (c : Config) (fir : List Sample) (x : Sample) : (firOut c fir x).length = c.osr := by
  simp [firOut]

@[simp] theorem length_firNext (fir : List Sample) (x : Sample) : (firNext fir x).length = fir.length := by simp [firNext]

@[simp] theorem length_firOutAll (c : Config) (xs fir : List Sample) :
    (firOutAll c fir xs).length = xs.length * c.osr := by
  induction xs generalizing fir with
  | nil => simp [firOutAll]
  | cons x xs ih => simp only [firOutAll, List.length_append, ih, length_firOut, List.length_cons]; ring

/-- The delay line keeps the newest symbols (R197). -/
theorem firNextAll_eq_drop (xs fir : List Sample) : firNextAll fir xs = (fir ++ xs).drop xs.length := by
  induction xs generalizing fir with
  | nil => simp [firNextAll]
  | cons x xs ih =>
    rw [firNextAll, ih, firNext]
    cases fir <;> simp

@[simp] theorem length_firNextAll (xs fir : List Sample) : (firNextAll fir xs).length = fir.length := by
  simp [firNextAll_eq_drop]

@[simp] theorem length_byteSymbols (c : Config) (trim3 trim1 : Sample) (b : Byte) :
    (byteSymbols c trim3 trim1 b).length = 4 := rfl

@[simp] theorem length_byteTags (c : Config) (t : Tag) : (byteTags c t).length = 4 * c.osr := by
  simp [byteTags, Config.batchLen]

/-- A byte modulates to `4 × OSR` items (R194). -/
@[simp] theorem length_modulateBatch (s : State) (b : Byte) (t : Tag) : (modulateBatch s b t).length = 4 * s.cfg.osr := by
  simp [modulateBatch]

/-- The samples of a modulated byte. -/
theorem modulateBatch_values (s : State) (b : Byte) (t : Tag) :
    (modulateBatch s b t).map (·.value) = firOutAll s.cfg s.fir (byteSymbols s.cfg s.trim3 s.trim1 b) := by
  have h := List.map_fst_zip (l₁ := firOutAll s.cfg s.fir (byteSymbols s.cfg s.trim3 s.trim1 b))
    (l₂ := byteTags s.cfg t) (by simp)
  rw [← h, modulateBatch, List.zip, List.map_zipWith, List.map_zipWith]

/-- The tags of a modulated byte. -/
theorem modulateBatch_tags (s : State) (b : Byte) (t : Tag) : (modulateBatch s b t).map (·.tag) = byteTags s.cfg t := by
  have h := List.map_snd_zip (l₁ := firOutAll s.cfg s.fir (byteSymbols s.cfg s.trim3 s.trim1 b))
    (l₂ := byteTags s.cfg t) (by simp)
  rw [← h, modulateBatch, List.zip, List.map_zipWith, List.map_zipWith]

/-- Output j of a filter step, counted from 0 (R197). -/
theorem getD_firOut (c : Config) (fir : List Sample) (x : Sample) (i : Nat) (h : i < c.osr) :
    ((firOut c fir x).getD i 0).toInt =
      min 32767 (max (-32768) ((firAcc c (fir ++ [x]) (c.osr - (i + 1))).fdiv (2 ^ 15))) := by
  rw [← asr_eq_fdiv, ← toInt_sat16]
  simp [firOut, h]

/-- The accumulator as a sum over the window (R197, R199). -/
theorem firAcc_eq_sum (c : Config) (w : List Sample) (m : Nat) :
    firAcc c w m =
      ∑ t ∈ Finset.range c.phaseLen, (w.getD t 0).toInt * (c.rrcCoef.getD (m + t * c.osr) 0).toInt := by
  rw [firAcc]
  generalize c.phaseLen = n
  induction n with
  | zero => rfl
  | succ n ih => rw [List.range_succ, Finset.sum_range_succ, ← ih]; simp

/-- Output p of symbol n of a stream, by the delay line that stands before that symbol (R194, R200). -/
theorem getD_firOutAll (c : Config) (p : Nat) (hp : p < c.osr) : ∀ (xs : List Sample) (n : Nat) (fir : List Sample),
    n < xs.length →
      (firOutAll c fir xs).getD (n * c.osr + p) 0 = (firOut c ((fir ++ xs.take n).drop n) (xs.getD n 0)).getD p 0 := by
  intro xs
  induction xs with
  | nil => intro n fir h; simp at h
  | cons x xs ih =>
    intro n fir h
    cases n with
    | zero =>
      rw [firOutAll, List.getD_append _ _ _ _ (by simpa using hp)]
      simp
    | succ n =>
      rw [firOutAll, List.getD_append_right _ _ _ _ (by simp; nlinarith)]
      rw [show (n + 1) * c.osr + p - (firOut c fir x).length = n * c.osr + p by simp [Nat.succ_mul]; omega]
      rw [ih n _ (by simpa using h)]
      simp only [firNext, List.getD_cons_succ, List.take_succ_cons]
      congr 2
      cases fir <;> simp

/-- A sum of two Int16 values that fits is exact (log 15). -/
theorem toInt_add_of_fits (a b : Sample) (h1 : -32768 ≤ a.toInt + b.toInt) (h2 : a.toInt + b.toInt ≤ 32767) :
    (a + b).toInt = a.toInt + b.toInt := by
  rw [BitVec.toInt_add, Int.bmod_eq_of_le (by omega) (by omega)]

/-- A difference of two Int16 values that fits is exact (log 15). -/
theorem toInt_sub_of_fits (a b : Sample) (h1 : -32768 ≤ a.toInt - b.toInt) (h2 : a.toInt - b.toInt ≤ 32767) :
    (a - b).toInt = a.toInt - b.toInt := by
  rw [BitVec.toInt_sub, Int.bmod_eq_of_le (by omega) (by omega)]

end Sys2Proof.Machine
end

