-- ==== Sys2Proof/Laws/State.lean ====
section
/-! SUPPORT. One lemma per field per named update of the state, so that no later proof unfolds a record update. -/

namespace Sys2Proof.Machine

/-! ## Pairs of registers -/

@[simp] theorem PerSlot.get_set_same {α : Type} (p : PerSlot α) (k : Slot) (x : α) : (p.set k x).get k = x := by
  cases k <;> rfl
theorem PerSlot.get_set_other {α : Type} (p : PerSlot α) (k l : Slot) (x : α) (h : l ≠ k) : (p.set k x).get l = p.get l := by
  cases k <;> cases l <;> first | rfl | exact absurd rfl h
@[simp] theorem PerSlot.set_get {α : Type} (p : PerSlot α) (k : Slot) : p.set k (p.get k) = p := by cases k <;> rfl

/-! ## Abbreviated answers -/

@[simp] theorem State.answerOk_eq (s : State) : s.answerOk = s.answer .ok [] := rfl
@[simp] theorem State.fail_eq (s : State) (st : Status) : s.fail st = s.answer st [] := rfl
@[simp] theorem State.ptt_eq (s : State) : s.ptt = s.txOn := rfl

/-! ## `withFifo` -/

@[simp] theorem State.withFifo_cfg (s : State) (k : Slot) (r : RingBuf Byte) : (s.withFifo k r).cfg = s.cfg := rfl
@[simp] theorem State.withFifo_txState (s : State) (k : Slot) (r : RingBuf Byte) : (s.withFifo k r).txState = s.txState :=
  rfl
@[simp] theorem State.withFifo_frameCount (s : State) (k : Slot) (r : RingBuf Byte) : (s.withFifo k r).frameCount = s.frameCount :=
  rfl
@[simp] theorem State.withFifo_abort (s : State) (k : Slot) (r : RingBuf Byte) : (s.withFifo k r).abort = s.abort :=
  rfl
@[simp] theorem State.withFifo_abortCount (s : State) (k : Slot) (r : RingBuf Byte) : (s.withFifo k r).abortCount = s.abortCount :=
  rfl
@[simp] theorem State.withFifo_slcLive (s : State) (k : Slot) (r : RingBuf Byte) : (s.withFifo k r).slcLive = s.slcLive :=
  rfl
@[simp] theorem State.withFifo_slcPending (s : State) (k : Slot) (r : RingBuf Byte) : (s.withFifo k r).slcPending = s.slcPending :=
  rfl
@[simp] theorem State.withFifo_cachPtr (s : State) (k : Slot) (r : RingBuf Byte) : (s.withFifo k r).cachPtr = s.cachPtr :=
  rfl
@[simp] theorem State.withFifo_trim3 (s : State) (k : Slot) (r : RingBuf Byte) : (s.withFifo k r).trim3 = s.trim3 :=
  rfl
@[simp] theorem State.withFifo_trim1 (s : State) (k : Slot) (r : RingBuf Byte) : (s.withFifo k r).trim1 = s.trim1 :=
  rfl
@[simp] theorem State.withFifo_atMode (s : State) (k : Slot) (r : RingBuf Byte) : (s.withFifo k r).atMode = s.atMode :=
  rfl
@[simp] theorem State.withFifo_colourCode (s : State) (k : Slot) (r : RingBuf Byte) : (s.withFifo k r).colourCode = s.colourCode :=
  rfl
@[simp] theorem State.withFifo_idle (s : State) (k : Slot) (r : RingBuf Byte) : (s.withFifo k r).idle = s.idle := rfl
@[simp] theorem State.withFifo_poBuf (s : State) (k : Slot) (r : RingBuf Byte) : (s.withFifo k r).poBuf = s.poBuf :=
  rfl
@[simp] theorem State.withFifo_poTag (s : State) (k : Slot) (r : RingBuf Byte) : (s.withFifo k r).poTag = s.poTag :=
  rfl
@[simp] theorem State.withFifo_poLen (s : State) (k : Slot) (r : RingBuf Byte) : (s.withFifo k r).poLen = s.poLen :=
  rfl
@[simp] theorem State.withFifo_poPtr (s : State) (k : Slot) (r : RingBuf Byte) : (s.withFifo k r).poPtr = s.poPtr :=
  rfl
@[simp] theorem State.withFifo_fir (s : State) (k : Slot) (r : RingBuf Byte) : (s.withFifo k r).fir = s.fir := rfl
@[simp] theorem State.withFifo_txOn (s : State) (k : Slot) (r : RingBuf Byte) : (s.withFifo k r).txOn = s.txOn := rfl
@[simp] theorem State.withFifo_txq (s : State) (k : Slot) (r : RingBuf Byte) : (s.withFifo k r).txq = s.txq := rfl
@[simp] theorem State.withFifo_rxq (s : State) (k : Slot) (r : RingBuf Byte) : (s.withFifo k r).rxq = s.rxq := rfl
@[simp] theorem State.withFifo_rssiq (s : State) (k : Slot) (r : RingBuf Byte) : (s.withFifo k r).rssiq = s.rssiq :=
  rfl
@[simp] theorem State.withFifo_fifo (s : State) (k : Slot) (r : RingBuf Byte) : (s.withFifo k r).fifo = s.fifo.set k r :=
  rfl
@[simp] theorem State.withFifo_cmdIn (s : State) (k : Slot) (r : RingBuf Byte) : (s.withFifo k r).cmdIn = s.cmdIn :=
  rfl
@[simp] theorem State.withFifo_rspOut (s : State) (k : Slot) (r : RingBuf Byte) : (s.withFifo k r).rspOut = s.rspOut :=
  rfl
@[simp] theorem State.withFifo_txOut (s : State) (k : Slot) (r : RingBuf Byte) : (s.withFifo k r).txOut = s.txOut :=
  rfl
@[simp] theorem State.withFifo_result (s : State) (k : Slot) (r : RingBuf Byte) : (s.withFifo k r).result = s.result :=
  rfl
@[simp] theorem State.withFifo_sched (s : State) (k : Slot) (r : RingBuf Byte) : (s.withFifo k r).sched = s.sched :=
  rfl
@[simp] theorem State.withFifo_freeCount (s : State) (k : Slot) (r : RingBuf Byte) : (s.withFifo k r).freeCount = s.freeCount :=
  rfl

/-! ## `answer` -/

@[simp] theorem State.answer_cfg (s : State) (st : Status) (d : List Byte) : (s.answer st d).cfg = s.cfg := rfl
@[simp] theorem State.answer_txState (s : State) (st : Status) (d : List Byte) : (s.answer st d).txState = s.txState :=
  rfl
@[simp] theorem State.answer_frameCount (s : State) (st : Status) (d : List Byte) : (s.answer st d).frameCount = s.frameCount :=
  rfl
@[simp] theorem State.answer_abort (s : State) (st : Status) (d : List Byte) : (s.answer st d).abort = s.abort := rfl
@[simp] theorem State.answer_abortCount (s : State) (st : Status) (d : List Byte) : (s.answer st d).abortCount = s.abortCount :=
  rfl
@[simp] theorem State.answer_slcLive (s : State) (st : Status) (d : List Byte) : (s.answer st d).slcLive = s.slcLive :=
  rfl
@[simp] theorem State.answer_slcPending (s : State) (st : Status) (d : List Byte) : (s.answer st d).slcPending = s.slcPending :=
  rfl
@[simp] theorem State.answer_cachPtr (s : State) (st : Status) (d : List Byte) : (s.answer st d).cachPtr = s.cachPtr :=
  rfl
@[simp] theorem State.answer_trim3 (s : State) (st : Status) (d : List Byte) : (s.answer st d).trim3 = s.trim3 := rfl
@[simp] theorem State.answer_trim1 (s : State) (st : Status) (d : List Byte) : (s.answer st d).trim1 = s.trim1 := rfl
@[simp] theorem State.answer_atMode (s : State) (st : Status) (d : List Byte) : (s.answer st d).atMode = s.atMode :=
  rfl
@[simp] theorem State.answer_colourCode (s : State) (st : Status) (d : List Byte) : (s.answer st d).colourCode = s.colourCode :=
  rfl
@[simp] theorem State.answer_idle (s : State) (st : Status) (d : List Byte) : (s.answer st d).idle = s.idle := rfl
@[simp] theorem State.answer_poBuf (s : State) (st : Status) (d : List Byte) : (s.answer st d).poBuf = s.poBuf := rfl
@[simp] theorem State.answer_poTag (s : State) (st : Status) (d : List Byte) : (s.answer st d).poTag = s.poTag := rfl
@[simp] theorem State.answer_poLen (s : State) (st : Status) (d : List Byte) : (s.answer st d).poLen = s.poLen := rfl
@[simp] theorem State.answer_poPtr (s : State) (st : Status) (d : List Byte) : (s.answer st d).poPtr = s.poPtr := rfl
@[simp] theorem State.answer_fir (s : State) (st : Status) (d : List Byte) : (s.answer st d).fir = s.fir := rfl
@[simp] theorem State.answer_txOn (s : State) (st : Status) (d : List Byte) : (s.answer st d).txOn = s.txOn := rfl
@[simp] theorem State.answer_txq (s : State) (st : Status) (d : List Byte) : (s.answer st d).txq = s.txq := rfl
@[simp] theorem State.answer_rxq (s : State) (st : Status) (d : List Byte) : (s.answer st d).rxq = s.rxq := rfl
@[simp] theorem State.answer_rssiq (s : State) (st : Status) (d : List Byte) : (s.answer st d).rssiq = s.rssiq := rfl
@[simp] theorem State.answer_fifo (s : State) (st : Status) (d : List Byte) : (s.answer st d).fifo = s.fifo := rfl
@[simp] theorem State.answer_cmdIn (s : State) (st : Status) (d : List Byte) : (s.answer st d).cmdIn = s.cmdIn := rfl
@[simp] theorem State.answer_rspOut (s : State) (st : Status) (d : List Byte) : (s.answer st d).rspOut = s.rspOut ++ [statusCode st :: d] :=
  rfl
@[simp] theorem State.answer_txOut (s : State) (st : Status) (d : List Byte) : (s.answer st d).txOut = s.txOut := rfl
@[simp] theorem State.answer_result (s : State) (st : Status) (d : List Byte) : (s.answer st d).result = s.result :=
  rfl
@[simp] theorem State.answer_sched (s : State) (st : Status) (d : List Byte) : (s.answer st d).sched = s.sched := rfl
@[simp] theorem State.answer_freeCount (s : State) (st : Status) (d : List Byte) : (s.answer st d).freeCount = s.freeCount :=
  rfl

/-! ## `emitOut` -/

@[simp] theorem State.emitOut_cfg (s : State) (x : Item) : (s.emitOut x).cfg = s.cfg := rfl
@[simp] theorem State.emitOut_txState (s : State) (x : Item) : (s.emitOut x).txState = s.txState := rfl
@[simp] theorem State.emitOut_frameCount (s : State) (x : Item) : (s.emitOut x).frameCount = s.frameCount := rfl
@[simp] theorem State.emitOut_abort (s : State) (x : Item) : (s.emitOut x).abort = s.abort := rfl
@[simp] theorem State.emitOut_abortCount (s : State) (x : Item) : (s.emitOut x).abortCount = s.abortCount := rfl
@[simp] theorem State.emitOut_slcLive (s : State) (x : Item) : (s.emitOut x).slcLive = s.slcLive := rfl
@[simp] theorem State.emitOut_slcPending (s : State) (x : Item) : (s.emitOut x).slcPending = s.slcPending := rfl
@[simp] theorem State.emitOut_cachPtr (s : State) (x : Item) : (s.emitOut x).cachPtr = s.cachPtr := rfl
@[simp] theorem State.emitOut_trim3 (s : State) (x : Item) : (s.emitOut x).trim3 = s.trim3 := rfl
@[simp] theorem State.emitOut_trim1 (s : State) (x : Item) : (s.emitOut x).trim1 = s.trim1 := rfl
@[simp] theorem State.emitOut_atMode (s : State) (x : Item) : (s.emitOut x).atMode = s.atMode := rfl
@[simp] theorem State.emitOut_colourCode (s : State) (x : Item) : (s.emitOut x).colourCode = s.colourCode := rfl
@[simp] theorem State.emitOut_idle (s : State) (x : Item) : (s.emitOut x).idle = s.idle := rfl
@[simp] theorem State.emitOut_poBuf (s : State) (x : Item) : (s.emitOut x).poBuf = s.poBuf := rfl
@[simp] theorem State.emitOut_poTag (s : State) (x : Item) : (s.emitOut x).poTag = s.poTag := rfl
@[simp] theorem State.emitOut_poLen (s : State) (x : Item) : (s.emitOut x).poLen = s.poLen := rfl
@[simp] theorem State.emitOut_poPtr (s : State) (x : Item) : (s.emitOut x).poPtr = s.poPtr := rfl
@[simp] theorem State.emitOut_fir (s : State) (x : Item) : (s.emitOut x).fir = s.fir := rfl
@[simp] theorem State.emitOut_txOn (s : State) (x : Item) : (s.emitOut x).txOn = s.txOn := rfl
@[simp] theorem State.emitOut_txq (s : State) (x : Item) : (s.emitOut x).txq = s.txq := rfl
@[simp] theorem State.emitOut_rxq (s : State) (x : Item) : (s.emitOut x).rxq = s.rxq := rfl
@[simp] theorem State.emitOut_rssiq (s : State) (x : Item) : (s.emitOut x).rssiq = s.rssiq := rfl
@[simp] theorem State.emitOut_fifo (s : State) (x : Item) : (s.emitOut x).fifo = s.fifo := rfl
@[simp] theorem State.emitOut_cmdIn (s : State) (x : Item) : (s.emitOut x).cmdIn = s.cmdIn := rfl
@[simp] theorem State.emitOut_rspOut (s : State) (x : Item) : (s.emitOut x).rspOut = s.rspOut := rfl
@[simp] theorem State.emitOut_txOut (s : State) (x : Item) : (s.emitOut x).txOut = s.txOut ++ [x] := rfl
@[simp] theorem State.emitOut_result (s : State) (x : Item) : (s.emitOut x).result = s.result := rfl
@[simp] theorem State.emitOut_sched (s : State) (x : Item) : (s.emitOut x).sched = s.sched := rfl
@[simp] theorem State.emitOut_freeCount (s : State) (x : Item) : (s.emitOut x).freeCount = s.freeCount := rfl

/-! ## `returned` -/

@[simp] theorem State.returned_cfg (s : State) (r : Result) : (s.returned r).cfg = s.cfg := rfl
@[simp] theorem State.returned_txState (s : State) (r : Result) : (s.returned r).txState = s.txState := rfl
@[simp] theorem State.returned_frameCount (s : State) (r : Result) : (s.returned r).frameCount = s.frameCount := rfl
@[simp] theorem State.returned_abort (s : State) (r : Result) : (s.returned r).abort = s.abort := rfl
@[simp] theorem State.returned_abortCount (s : State) (r : Result) : (s.returned r).abortCount = s.abortCount := rfl
@[simp] theorem State.returned_slcLive (s : State) (r : Result) : (s.returned r).slcLive = s.slcLive := rfl
@[simp] theorem State.returned_slcPending (s : State) (r : Result) : (s.returned r).slcPending = s.slcPending := rfl
@[simp] theorem State.returned_cachPtr (s : State) (r : Result) : (s.returned r).cachPtr = s.cachPtr := rfl
@[simp] theorem State.returned_trim3 (s : State) (r : Result) : (s.returned r).trim3 = s.trim3 := rfl
@[simp] theorem State.returned_trim1 (s : State) (r : Result) : (s.returned r).trim1 = s.trim1 := rfl
@[simp] theorem State.returned_atMode (s : State) (r : Result) : (s.returned r).atMode = s.atMode := rfl
@[simp] theorem State.returned_colourCode (s : State) (r : Result) : (s.returned r).colourCode = s.colourCode := rfl
@[simp] theorem State.returned_idle (s : State) (r : Result) : (s.returned r).idle = s.idle := rfl
@[simp] theorem State.returned_poBuf (s : State) (r : Result) : (s.returned r).poBuf = s.poBuf := rfl
@[simp] theorem State.returned_poTag (s : State) (r : Result) : (s.returned r).poTag = s.poTag := rfl
@[simp] theorem State.returned_poLen (s : State) (r : Result) : (s.returned r).poLen = s.poLen := rfl
@[simp] theorem State.returned_poPtr (s : State) (r : Result) : (s.returned r).poPtr = s.poPtr := rfl
@[simp] theorem State.returned_fir (s : State) (r : Result) : (s.returned r).fir = s.fir := rfl
@[simp] theorem State.returned_txOn (s : State) (r : Result) : (s.returned r).txOn = s.txOn := rfl
@[simp] theorem State.returned_txq (s : State) (r : Result) : (s.returned r).txq = s.txq := rfl
@[simp] theorem State.returned_rxq (s : State) (r : Result) : (s.returned r).rxq = s.rxq := rfl
@[simp] theorem State.returned_rssiq (s : State) (r : Result) : (s.returned r).rssiq = s.rssiq := rfl
@[simp] theorem State.returned_fifo (s : State) (r : Result) : (s.returned r).fifo = s.fifo := rfl
@[simp] theorem State.returned_cmdIn (s : State) (r : Result) : (s.returned r).cmdIn = s.cmdIn := rfl
@[simp] theorem State.returned_rspOut (s : State) (r : Result) : (s.returned r).rspOut = s.rspOut := rfl
@[simp] theorem State.returned_txOut (s : State) (r : Result) : (s.returned r).txOut = s.txOut := rfl
@[simp] theorem State.returned_result (s : State) (r : Result) : (s.returned r).result = r := rfl
@[simp] theorem State.returned_sched (s : State) (r : Result) : (s.returned r).sched = s.sched := rfl
@[simp] theorem State.returned_freeCount (s : State) (r : Result) : (s.returned r).freeCount = s.freeCount := rfl

/-! ## `loadPo` -/

@[simp] theorem State.loadPo_cfg (s : State) (b : List Byte) (t : List Tag) (n : Nat) : (s.loadPo b t n).cfg = s.cfg :=
  rfl
@[simp] theorem State.loadPo_txState (s : State) (b : List Byte) (t : List Tag) (n : Nat) : (s.loadPo b t n).txState = s.txState :=
  rfl
@[simp] theorem State.loadPo_frameCount (s : State) (b : List Byte) (t : List Tag) (n : Nat) : (s.loadPo b t n).frameCount = s.frameCount :=
  rfl
@[simp] theorem State.loadPo_abort (s : State) (b : List Byte) (t : List Tag) (n : Nat) : (s.loadPo b t n).abort = s.abort :=
  rfl
@[simp] theorem State.loadPo_abortCount (s : State) (b : List Byte) (t : List Tag) (n : Nat) : (s.loadPo b t n).abortCount = s.abortCount :=
  rfl
@[simp] theorem State.loadPo_slcLive (s : State) (b : List Byte) (t : List Tag) (n : Nat) : (s.loadPo b t n).slcLive = s.slcLive :=
  rfl
@[simp] theorem State.loadPo_slcPending (s : State) (b : List Byte) (t : List Tag) (n : Nat) : (s.loadPo b t n).slcPending = s.slcPending :=
  rfl
@[simp] theorem State.loadPo_cachPtr (s : State) (b : List Byte) (t : List Tag) (n : Nat) : (s.loadPo b t n).cachPtr = s.cachPtr :=
  rfl
@[simp] theorem State.loadPo_trim3 (s : State) (b : List Byte) (t : List Tag) (n : Nat) : (s.loadPo b t n).trim3 = s.trim3 :=
  rfl
@[simp] theorem State.loadPo_trim1 (s : State) (b : List Byte) (t : List Tag) (n : Nat) : (s.loadPo b t n).trim1 = s.trim1 :=
  rfl
@[simp] theorem State.loadPo_atMode (s : State) (b : List Byte) (t : List Tag) (n : Nat) : (s.loadPo b t n).atMode = s.atMode :=
  rfl
@[simp] theorem State.loadPo_colourCode (s : State) (b : List Byte) (t : List Tag) (n : Nat) : (s.loadPo b t n).colourCode = s.colourCode :=
  rfl
@[simp] theorem State.loadPo_idle (s : State) (b : List Byte) (t : List Tag) (n : Nat) : (s.loadPo b t n).idle = s.idle :=
  rfl
@[simp] theorem State.loadPo_poBuf (s : State) (b : List Byte) (t : List Tag) (n : Nat) : (s.loadPo b t n).poBuf = b ++ s.poBuf.drop b.length :=
  rfl
@[simp] theorem State.loadPo_poTag (s : State) (b : List Byte) (t : List Tag) (n : Nat) : (s.loadPo b t n).poTag = t ++ s.poTag.drop t.length :=
  rfl
@[simp] theorem State.loadPo_poLen (s : State) (b : List Byte) (t : List Tag) (n : Nat) : (s.loadPo b t n).poLen = n :=
  rfl
@[simp] theorem State.loadPo_poPtr (s : State) (b : List Byte) (t : List Tag) (n : Nat) : (s.loadPo b t n).poPtr = 0 :=
  rfl
@[simp] theorem State.loadPo_fir (s : State) (b : List Byte) (t : List Tag) (n : Nat) : (s.loadPo b t n).fir = s.fir :=
  rfl
@[simp] theorem State.loadPo_txOn (s : State) (b : List Byte) (t : List Tag) (n : Nat) : (s.loadPo b t n).txOn = s.txOn :=
  rfl
@[simp] theorem State.loadPo_txq (s : State) (b : List Byte) (t : List Tag) (n : Nat) : (s.loadPo b t n).txq = s.txq :=
  rfl
@[simp] theorem State.loadPo_rxq (s : State) (b : List Byte) (t : List Tag) (n : Nat) : (s.loadPo b t n).rxq = s.rxq :=
  rfl
@[simp] theorem State.loadPo_rssiq (s : State) (b : List Byte) (t : List Tag) (n : Nat) : (s.loadPo b t n).rssiq = s.rssiq :=
  rfl
@[simp] theorem State.loadPo_fifo (s : State) (b : List Byte) (t : List Tag) (n : Nat) : (s.loadPo b t n).fifo = s.fifo :=
  rfl
@[simp] theorem State.loadPo_cmdIn (s : State) (b : List Byte) (t : List Tag) (n : Nat) : (s.loadPo b t n).cmdIn = s.cmdIn :=
  rfl
@[simp] theorem State.loadPo_rspOut (s : State) (b : List Byte) (t : List Tag) (n : Nat) : (s.loadPo b t n).rspOut = s.rspOut :=
  rfl
@[simp] theorem State.loadPo_txOut (s : State) (b : List Byte) (t : List Tag) (n : Nat) : (s.loadPo b t n).txOut = s.txOut :=
  rfl
@[simp] theorem State.loadPo_result (s : State) (b : List Byte) (t : List Tag) (n : Nat) : (s.loadPo b t n).result = s.result :=
  rfl
@[simp] theorem State.loadPo_sched (s : State) (b : List Byte) (t : List Tag) (n : Nat) : (s.loadPo b t n).sched = s.sched :=
  rfl
@[simp] theorem State.loadPo_freeCount (s : State) (b : List Byte) (t : List Tag) (n : Nat) : (s.loadPo b t n).freeCount = s.freeCount :=
  rfl

/-! ## `loadBurst` -/

@[simp] theorem State.loadBurst_cfg (s : State) (b : List Byte) : (s.loadBurst b).cfg = s.cfg := rfl
@[simp] theorem State.loadBurst_txState (s : State) (b : List Byte) : (s.loadBurst b).txState = s.txState := rfl
@[simp] theorem State.loadBurst_frameCount (s : State) (b : List Byte) : (s.loadBurst b).frameCount = s.frameCount :=
  rfl
@[simp] theorem State.loadBurst_abort (s : State) (b : List Byte) : (s.loadBurst b).abort = s.abort := rfl
@[simp] theorem State.loadBurst_abortCount (s : State) (b : List Byte) : (s.loadBurst b).abortCount = s.abortCount :=
  rfl
@[simp] theorem State.loadBurst_slcLive (s : State) (b : List Byte) : (s.loadBurst b).slcLive = s.slcLive := rfl
@[simp] theorem State.loadBurst_slcPending (s : State) (b : List Byte) : (s.loadBurst b).slcPending = s.slcPending :=
  rfl
@[simp] theorem State.loadBurst_cachPtr (s : State) (b : List Byte) : (s.loadBurst b).cachPtr = s.cachPtr := rfl
@[simp] theorem State.loadBurst_trim3 (s : State) (b : List Byte) : (s.loadBurst b).trim3 = s.trim3 := rfl
@[simp] theorem State.loadBurst_trim1 (s : State) (b : List Byte) : (s.loadBurst b).trim1 = s.trim1 := rfl
@[simp] theorem State.loadBurst_atMode (s : State) (b : List Byte) : (s.loadBurst b).atMode = s.atMode := rfl
@[simp] theorem State.loadBurst_colourCode (s : State) (b : List Byte) : (s.loadBurst b).colourCode = s.colourCode :=
  rfl
@[simp] theorem State.loadBurst_idle (s : State) (b : List Byte) : (s.loadBurst b).idle = s.idle := rfl
@[simp] theorem State.loadBurst_poBuf (s : State) (b : List Byte) : (s.loadBurst b).poBuf = b ++ s.poBuf.drop b.length :=
  rfl
@[simp] theorem State.loadBurst_poLen (s : State) (b : List Byte) : (s.loadBurst b).poLen = s.cfg.burstBytes := rfl
@[simp] theorem State.loadBurst_poPtr (s : State) (b : List Byte) : (s.loadBurst b).poPtr = 0 := rfl
@[simp] theorem State.loadBurst_fir (s : State) (b : List Byte) : (s.loadBurst b).fir = s.fir := rfl
@[simp] theorem State.loadBurst_txOn (s : State) (b : List Byte) : (s.loadBurst b).txOn = s.txOn := rfl
@[simp] theorem State.loadBurst_txq (s : State) (b : List Byte) : (s.loadBurst b).txq = s.txq := rfl
@[simp] theorem State.loadBurst_rxq (s : State) (b : List Byte) : (s.loadBurst b).rxq = s.rxq := rfl
@[simp] theorem State.loadBurst_rssiq (s : State) (b : List Byte) : (s.loadBurst b).rssiq = s.rssiq := rfl
@[simp] theorem State.loadBurst_fifo (s : State) (b : List Byte) : (s.loadBurst b).fifo = s.fifo := rfl
@[simp] theorem State.loadBurst_cmdIn (s : State) (b : List Byte) : (s.loadBurst b).cmdIn = s.cmdIn := rfl
@[simp] theorem State.loadBurst_rspOut (s : State) (b : List Byte) : (s.loadBurst b).rspOut = s.rspOut := rfl
@[simp] theorem State.loadBurst_txOut (s : State) (b : List Byte) : (s.loadBurst b).txOut = s.txOut := rfl
@[simp] theorem State.loadBurst_result (s : State) (b : List Byte) : (s.loadBurst b).result = s.result := rfl
@[simp] theorem State.loadBurst_sched (s : State) (b : List Byte) : (s.loadBurst b).sched = s.sched := rfl
@[simp] theorem State.loadBurst_freeCount (s : State) (b : List Byte) : (s.loadBurst b).freeCount = s.freeCount := rfl

/-! ## `advance` -/

@[simp] theorem State.advance_cfg (s : State) : (s.advance).cfg = s.cfg := rfl
@[simp] theorem State.advance_txState (s : State) : (s.advance).txState = nextTxState s.txState := rfl
@[simp] theorem State.advance_frameCount (s : State) : (s.advance).frameCount = s.frameCount := rfl
@[simp] theorem State.advance_abort (s : State) : (s.advance).abort = s.abort := rfl
@[simp] theorem State.advance_abortCount (s : State) : (s.advance).abortCount = s.abortCount := rfl
@[simp] theorem State.advance_slcLive (s : State) : (s.advance).slcLive = s.slcLive := rfl
@[simp] theorem State.advance_slcPending (s : State) : (s.advance).slcPending = s.slcPending := rfl
@[simp] theorem State.advance_cachPtr (s : State) : (s.advance).cachPtr = s.cachPtr := rfl
@[simp] theorem State.advance_trim3 (s : State) : (s.advance).trim3 = s.trim3 := rfl
@[simp] theorem State.advance_trim1 (s : State) : (s.advance).trim1 = s.trim1 := rfl
@[simp] theorem State.advance_atMode (s : State) : (s.advance).atMode = s.atMode := rfl
@[simp] theorem State.advance_colourCode (s : State) : (s.advance).colourCode = s.colourCode := rfl
@[simp] theorem State.advance_idle (s : State) : (s.advance).idle = s.idle := rfl
@[simp] theorem State.advance_poBuf (s : State) : (s.advance).poBuf = s.poBuf := rfl
@[simp] theorem State.advance_poTag (s : State) : (s.advance).poTag = s.poTag := rfl
@[simp] theorem State.advance_poLen (s : State) : (s.advance).poLen = s.poLen := rfl
@[simp] theorem State.advance_poPtr (s : State) : (s.advance).poPtr = s.poPtr := rfl
@[simp] theorem State.advance_fir (s : State) : (s.advance).fir = s.fir := rfl
@[simp] theorem State.advance_txOn (s : State) : (s.advance).txOn = s.txOn := rfl
@[simp] theorem State.advance_txq (s : State) : (s.advance).txq = s.txq := rfl
@[simp] theorem State.advance_rxq (s : State) : (s.advance).rxq = s.rxq := rfl
@[simp] theorem State.advance_rssiq (s : State) : (s.advance).rssiq = s.rssiq := rfl
@[simp] theorem State.advance_fifo (s : State) : (s.advance).fifo = s.fifo := rfl
@[simp] theorem State.advance_cmdIn (s : State) : (s.advance).cmdIn = s.cmdIn := rfl
@[simp] theorem State.advance_rspOut (s : State) : (s.advance).rspOut = s.rspOut := rfl
@[simp] theorem State.advance_txOut (s : State) : (s.advance).txOut = s.txOut := rfl
@[simp] theorem State.advance_result (s : State) : (s.advance).result = s.result := rfl
@[simp] theorem State.advance_sched (s : State) : (s.advance).sched = s.sched := rfl
@[simp] theorem State.advance_freeCount (s : State) : (s.advance).freeCount = s.freeCount := rfl

/-! ## `bumpCounters` -/

@[simp] theorem State.bumpCounters_cfg (s : State) : (s.bumpCounters).cfg = s.cfg := rfl
@[simp] theorem State.bumpCounters_txState (s : State) : (s.bumpCounters).txState = s.txState := rfl
@[simp] theorem State.bumpCounters_frameCount (s : State) : (s.bumpCounters).frameCount = s.frameCount + 1 := rfl
@[simp] theorem State.bumpCounters_abort (s : State) : (s.bumpCounters).abort = s.abort := rfl
@[simp] theorem State.bumpCounters_abortCount (s : State) : (s.bumpCounters).abortCount = ⟨s.abortCount.slot0 + 1, s.abortCount.slot1 + 1⟩ :=
  rfl
@[simp] theorem State.bumpCounters_slcLive (s : State) : (s.bumpCounters).slcLive = s.slcLive := rfl
@[simp] theorem State.bumpCounters_slcPending (s : State) : (s.bumpCounters).slcPending = s.slcPending := rfl
@[simp] theorem State.bumpCounters_cachPtr (s : State) : (s.bumpCounters).cachPtr = s.cachPtr := rfl
@[simp] theorem State.bumpCounters_trim3 (s : State) : (s.bumpCounters).trim3 = s.trim3 := rfl
@[simp] theorem State.bumpCounters_trim1 (s : State) : (s.bumpCounters).trim1 = s.trim1 := rfl
@[simp] theorem State.bumpCounters_atMode (s : State) : (s.bumpCounters).atMode = s.atMode := rfl
@[simp] theorem State.bumpCounters_colourCode (s : State) : (s.bumpCounters).colourCode = s.colourCode := rfl
@[simp] theorem State.bumpCounters_idle (s : State) : (s.bumpCounters).idle = s.idle := rfl
@[simp] theorem State.bumpCounters_poBuf (s : State) : (s.bumpCounters).poBuf = s.poBuf := rfl
@[simp] theorem State.bumpCounters_poTag (s : State) : (s.bumpCounters).poTag = s.poTag := rfl
@[simp] theorem State.bumpCounters_poLen (s : State) : (s.bumpCounters).poLen = s.poLen := rfl
@[simp] theorem State.bumpCounters_poPtr (s : State) : (s.bumpCounters).poPtr = s.poPtr := rfl
@[simp] theorem State.bumpCounters_fir (s : State) : (s.bumpCounters).fir = s.fir := rfl
@[simp] theorem State.bumpCounters_txOn (s : State) : (s.bumpCounters).txOn = s.txOn := rfl
@[simp] theorem State.bumpCounters_txq (s : State) : (s.bumpCounters).txq = s.txq := rfl
@[simp] theorem State.bumpCounters_rxq (s : State) : (s.bumpCounters).rxq = s.rxq := rfl
@[simp] theorem State.bumpCounters_rssiq (s : State) : (s.bumpCounters).rssiq = s.rssiq := rfl
@[simp] theorem State.bumpCounters_fifo (s : State) : (s.bumpCounters).fifo = s.fifo := rfl
@[simp] theorem State.bumpCounters_cmdIn (s : State) : (s.bumpCounters).cmdIn = s.cmdIn := rfl
@[simp] theorem State.bumpCounters_rspOut (s : State) : (s.bumpCounters).rspOut = s.rspOut := rfl
@[simp] theorem State.bumpCounters_txOut (s : State) : (s.bumpCounters).txOut = s.txOut := rfl
@[simp] theorem State.bumpCounters_result (s : State) : (s.bumpCounters).result = s.result := rfl
@[simp] theorem State.bumpCounters_sched (s : State) : (s.bumpCounters).sched = s.sched := rfl
@[simp] theorem State.bumpCounters_freeCount (s : State) : (s.bumpCounters).freeCount = s.freeCount := rfl

/-! ## `ioPush` -/

@[simp] theorem State.ioPush_cfg (s : State) (m : Byte) (b : List Item) : (s.ioPush m b).cfg = s.cfg := rfl
@[simp] theorem State.ioPush_txState (s : State) (m : Byte) (b : List Item) : (s.ioPush m b).txState = s.txState :=
  rfl
@[simp] theorem State.ioPush_frameCount (s : State) (m : Byte) (b : List Item) : (s.ioPush m b).frameCount = s.frameCount :=
  rfl
@[simp] theorem State.ioPush_abort (s : State) (m : Byte) (b : List Item) : (s.ioPush m b).abort = s.abort := rfl
@[simp] theorem State.ioPush_abortCount (s : State) (m : Byte) (b : List Item) : (s.ioPush m b).abortCount = s.abortCount :=
  rfl
@[simp] theorem State.ioPush_slcLive (s : State) (m : Byte) (b : List Item) : (s.ioPush m b).slcLive = s.slcLive :=
  rfl
@[simp] theorem State.ioPush_slcPending (s : State) (m : Byte) (b : List Item) : (s.ioPush m b).slcPending = s.slcPending :=
  rfl
@[simp] theorem State.ioPush_cachPtr (s : State) (m : Byte) (b : List Item) : (s.ioPush m b).cachPtr = s.cachPtr :=
  rfl
@[simp] theorem State.ioPush_trim3 (s : State) (m : Byte) (b : List Item) : (s.ioPush m b).trim3 = s.trim3 := rfl
@[simp] theorem State.ioPush_trim1 (s : State) (m : Byte) (b : List Item) : (s.ioPush m b).trim1 = s.trim1 := rfl
@[simp] theorem State.ioPush_atMode (s : State) (m : Byte) (b : List Item) : (s.ioPush m b).atMode = s.atMode := rfl
@[simp] theorem State.ioPush_colourCode (s : State) (m : Byte) (b : List Item) : (s.ioPush m b).colourCode = s.colourCode :=
  rfl
@[simp] theorem State.ioPush_idle (s : State) (m : Byte) (b : List Item) : (s.ioPush m b).idle = s.idle := rfl
@[simp] theorem State.ioPush_poBuf (s : State) (m : Byte) (b : List Item) : (s.ioPush m b).poBuf = s.poBuf := rfl
@[simp] theorem State.ioPush_poTag (s : State) (m : Byte) (b : List Item) : (s.ioPush m b).poTag = s.poTag := rfl
@[simp] theorem State.ioPush_poLen (s : State) (m : Byte) (b : List Item) : (s.ioPush m b).poLen = s.poLen := rfl
@[simp] theorem State.ioPush_poPtr (s : State) (m : Byte) (b : List Item) : (s.ioPush m b).poPtr = s.poPtr := rfl
@[simp] theorem State.ioPush_fir (s : State) (m : Byte) (b : List Item) : (s.ioPush m b).fir = s.fir := rfl
@[simp] theorem State.ioPush_txOn (s : State) (m : Byte) (b : List Item) : (s.ioPush m b).txOn = true := rfl
@[simp] theorem State.ioPush_txq (s : State) (m : Byte) (b : List Item) : (s.ioPush m b).txq = s.txq.putAll s.cfg.nTx b :=
  rfl
@[simp] theorem State.ioPush_rxq (s : State) (m : Byte) (b : List Item) : (s.ioPush m b).rxq = s.rxq := rfl
@[simp] theorem State.ioPush_rssiq (s : State) (m : Byte) (b : List Item) : (s.ioPush m b).rssiq = s.rssiq := rfl
@[simp] theorem State.ioPush_fifo (s : State) (m : Byte) (b : List Item) : (s.ioPush m b).fifo = s.fifo := rfl
@[simp] theorem State.ioPush_cmdIn (s : State) (m : Byte) (b : List Item) : (s.ioPush m b).cmdIn = s.cmdIn := rfl
@[simp] theorem State.ioPush_rspOut (s : State) (m : Byte) (b : List Item) : (s.ioPush m b).rspOut = s.rspOut := rfl
@[simp] theorem State.ioPush_txOut (s : State) (m : Byte) (b : List Item) : (s.ioPush m b).txOut = s.txOut := rfl
@[simp] theorem State.ioPush_result (s : State) (m : Byte) (b : List Item) : (s.ioPush m b).result = s.result := rfl
@[simp] theorem State.ioPush_sched (s : State) (m : Byte) (b : List Item) : (s.ioPush m b).sched = s.sched := rfl
@[simp] theorem State.ioPush_freeCount (s : State) (m : Byte) (b : List Item) : (s.ioPush m b).freeCount = s.freeCount :=
  rfl

/-! ## `loadCach` -/

@[simp] theorem State.loadCach_cfg (s : State) (tx rx : Slot) : (s.loadCach tx rx).cfg = s.cfg := rfl
@[simp] theorem State.loadCach_txState (s : State) (tx rx : Slot) : (s.loadCach tx rx).txState = s.txState := rfl
@[simp] theorem State.loadCach_frameCount (s : State) (tx rx : Slot) : (s.loadCach tx rx).frameCount = s.frameCount :=
  rfl
@[simp] theorem State.loadCach_abort (s : State) (tx rx : Slot) : (s.loadCach tx rx).abort = s.abort := rfl
@[simp] theorem State.loadCach_abortCount (s : State) (tx rx : Slot) : (s.loadCach tx rx).abortCount = s.abortCount :=
  rfl
@[simp] theorem State.loadCach_slcLive (s : State) (tx rx : Slot) : (s.loadCach tx rx).slcLive = s.slcLive := rfl
@[simp] theorem State.loadCach_slcPending (s : State) (tx rx : Slot) : (s.loadCach tx rx).slcPending = s.slcPending :=
  rfl
@[simp] theorem State.loadCach_cachPtr (s : State) (tx rx : Slot) : (s.loadCach tx rx).cachPtr = nextCachPtr s.cachPtr :=
  rfl
@[simp] theorem State.loadCach_trim3 (s : State) (tx rx : Slot) : (s.loadCach tx rx).trim3 = s.trim3 := rfl
@[simp] theorem State.loadCach_trim1 (s : State) (tx rx : Slot) : (s.loadCach tx rx).trim1 = s.trim1 := rfl
@[simp] theorem State.loadCach_atMode (s : State) (tx rx : Slot) : (s.loadCach tx rx).atMode = s.atMode := rfl
@[simp] theorem State.loadCach_colourCode (s : State) (tx rx : Slot) : (s.loadCach tx rx).colourCode = s.colourCode :=
  rfl
@[simp] theorem State.loadCach_idle (s : State) (tx rx : Slot) : (s.loadCach tx rx).idle = s.idle := rfl
@[simp] theorem State.loadCach_poLen (s : State) (tx rx : Slot) : (s.loadCach tx rx).poLen = cachBytes := rfl
@[simp] theorem State.loadCach_poPtr (s : State) (tx rx : Slot) : (s.loadCach tx rx).poPtr = 0 := rfl
@[simp] theorem State.loadCach_fir (s : State) (tx rx : Slot) : (s.loadCach tx rx).fir = s.fir := rfl
@[simp] theorem State.loadCach_txOn (s : State) (tx rx : Slot) : (s.loadCach tx rx).txOn = s.txOn := rfl
@[simp] theorem State.loadCach_txq (s : State) (tx rx : Slot) : (s.loadCach tx rx).txq = s.txq := rfl
@[simp] theorem State.loadCach_rxq (s : State) (tx rx : Slot) : (s.loadCach tx rx).rxq = s.rxq := rfl
@[simp] theorem State.loadCach_rssiq (s : State) (tx rx : Slot) : (s.loadCach tx rx).rssiq = s.rssiq := rfl
@[simp] theorem State.loadCach_fifo (s : State) (tx rx : Slot) : (s.loadCach tx rx).fifo = s.fifo := rfl
@[simp] theorem State.loadCach_cmdIn (s : State) (tx rx : Slot) : (s.loadCach tx rx).cmdIn = s.cmdIn := rfl
@[simp] theorem State.loadCach_rspOut (s : State) (tx rx : Slot) : (s.loadCach tx rx).rspOut = s.rspOut := rfl
@[simp] theorem State.loadCach_txOut (s : State) (tx rx : Slot) : (s.loadCach tx rx).txOut = s.txOut := rfl
@[simp] theorem State.loadCach_result (s : State) (tx rx : Slot) : (s.loadCach tx rx).result = s.result := rfl
@[simp] theorem State.loadCach_sched (s : State) (tx rx : Slot) : (s.loadCach tx rx).sched = s.sched := rfl
@[simp] theorem State.loadCach_freeCount (s : State) (tx rx : Slot) : (s.loadCach tx rx).freeCount = s.freeCount :=
  rfl

/-! ## `withSampleRing` -/

@[simp] theorem State.withSampleRing_cfg (s : State) (q : SampleRing) (r : RingBuf Item) : (s.withSampleRing q r).cfg = s.cfg :=
  by cases q <;> rfl
@[simp] theorem State.withSampleRing_txState (s : State) (q : SampleRing) (r : RingBuf Item) : (s.withSampleRing q r).txState = s.txState :=
  by cases q <;> rfl
@[simp] theorem State.withSampleRing_frameCount (s : State) (q : SampleRing) (r : RingBuf Item) : (s.withSampleRing q r).frameCount = s.frameCount :=
  by cases q <;> rfl
@[simp] theorem State.withSampleRing_abort (s : State) (q : SampleRing) (r : RingBuf Item) : (s.withSampleRing q r).abort = s.abort :=
  by cases q <;> rfl
@[simp] theorem State.withSampleRing_abortCount (s : State) (q : SampleRing) (r : RingBuf Item) : (s.withSampleRing q r).abortCount = s.abortCount :=
  by cases q <;> rfl
@[simp] theorem State.withSampleRing_slcLive (s : State) (q : SampleRing) (r : RingBuf Item) : (s.withSampleRing q r).slcLive = s.slcLive :=
  by cases q <;> rfl
@[simp] theorem State.withSampleRing_slcPending (s : State) (q : SampleRing) (r : RingBuf Item) : (s.withSampleRing q r).slcPending = s.slcPending :=
  by cases q <;> rfl
@[simp] theorem State.withSampleRing_cachPtr (s : State) (q : SampleRing) (r : RingBuf Item) : (s.withSampleRing q r).cachPtr = s.cachPtr :=
  by cases q <;> rfl
@[simp] theorem State.withSampleRing_trim3 (s : State) (q : SampleRing) (r : RingBuf Item) : (s.withSampleRing q r).trim3 = s.trim3 :=
  by cases q <;> rfl
@[simp] theorem State.withSampleRing_trim1 (s : State) (q : SampleRing) (r : RingBuf Item) : (s.withSampleRing q r).trim1 = s.trim1 :=
  by cases q <;> rfl
@[simp] theorem State.withSampleRing_atMode (s : State) (q : SampleRing) (r : RingBuf Item) : (s.withSampleRing q r).atMode = s.atMode :=
  by cases q <;> rfl
@[simp] theorem State.withSampleRing_colourCode (s : State) (q : SampleRing) (r : RingBuf Item) : (s.withSampleRing q r).colourCode = s.colourCode :=
  by cases q <;> rfl
@[simp] theorem State.withSampleRing_idle (s : State) (q : SampleRing) (r : RingBuf Item) : (s.withSampleRing q r).idle = s.idle :=
  by cases q <;> rfl
@[simp] theorem State.withSampleRing_poBuf (s : State) (q : SampleRing) (r : RingBuf Item) : (s.withSampleRing q r).poBuf = s.poBuf :=
  by cases q <;> rfl
@[simp] theorem State.withSampleRing_poTag (s : State) (q : SampleRing) (r : RingBuf Item) : (s.withSampleRing q r).poTag = s.poTag :=
  by cases q <;> rfl
@[simp] theorem State.withSampleRing_poLen (s : State) (q : SampleRing) (r : RingBuf Item) : (s.withSampleRing q r).poLen = s.poLen :=
  by cases q <;> rfl
@[simp] theorem State.withSampleRing_poPtr (s : State) (q : SampleRing) (r : RingBuf Item) : (s.withSampleRing q r).poPtr = s.poPtr :=
  by cases q <;> rfl
@[simp] theorem State.withSampleRing_fir (s : State) (q : SampleRing) (r : RingBuf Item) : (s.withSampleRing q r).fir = s.fir :=
  by cases q <;> rfl
@[simp] theorem State.withSampleRing_txOn (s : State) (q : SampleRing) (r : RingBuf Item) : (s.withSampleRing q r).txOn = s.txOn :=
  by cases q <;> rfl
@[simp] theorem State.withSampleRing_fifo (s : State) (q : SampleRing) (r : RingBuf Item) : (s.withSampleRing q r).fifo = s.fifo :=
  by cases q <;> rfl
@[simp] theorem State.withSampleRing_cmdIn (s : State) (q : SampleRing) (r : RingBuf Item) : (s.withSampleRing q r).cmdIn = s.cmdIn :=
  by cases q <;> rfl
@[simp] theorem State.withSampleRing_rspOut (s : State) (q : SampleRing) (r : RingBuf Item) : (s.withSampleRing q r).rspOut = s.rspOut :=
  by cases q <;> rfl
@[simp] theorem State.withSampleRing_txOut (s : State) (q : SampleRing) (r : RingBuf Item) : (s.withSampleRing q r).txOut = s.txOut :=
  by cases q <;> rfl
@[simp] theorem State.withSampleRing_result (s : State) (q : SampleRing) (r : RingBuf Item) : (s.withSampleRing q r).result = s.result :=
  by cases q <;> rfl
@[simp] theorem State.withSampleRing_sched (s : State) (q : SampleRing) (r : RingBuf Item) : (s.withSampleRing q r).sched = s.sched :=
  by cases q <;> rfl
@[simp] theorem State.withSampleRing_freeCount (s : State) (q : SampleRing) (r : RingBuf Item) : (s.withSampleRing q r).freeCount = s.freeCount :=
  by cases q <;> rfl

/-! ## `putSample` -/

@[simp] theorem State.putSample_cfg (s : State) (q : SampleRing) (x : Item) : (s.putSample q x).cfg = s.cfg :=
  by cases q <;> rfl
@[simp] theorem State.putSample_txState (s : State) (q : SampleRing) (x : Item) : (s.putSample q x).txState = s.txState :=
  by cases q <;> rfl
@[simp] theorem State.putSample_frameCount (s : State) (q : SampleRing) (x : Item) : (s.putSample q x).frameCount = s.frameCount :=
  by cases q <;> rfl
@[simp] theorem State.putSample_abort (s : State) (q : SampleRing) (x : Item) : (s.putSample q x).abort = s.abort :=
  by cases q <;> rfl
@[simp] theorem State.putSample_abortCount (s : State) (q : SampleRing) (x : Item) : (s.putSample q x).abortCount = s.abortCount :=
  by cases q <;> rfl
@[simp] theorem State.putSample_slcLive (s : State) (q : SampleRing) (x : Item) : (s.putSample q x).slcLive = s.slcLive :=
  by cases q <;> rfl
@[simp] theorem State.putSample_slcPending (s : State) (q : SampleRing) (x : Item) : (s.putSample q x).slcPending = s.slcPending :=
  by cases q <;> rfl
@[simp] theorem State.putSample_cachPtr (s : State) (q : SampleRing) (x : Item) : (s.putSample q x).cachPtr = s.cachPtr :=
  by cases q <;> rfl
@[simp] theorem State.putSample_trim3 (s : State) (q : SampleRing) (x : Item) : (s.putSample q x).trim3 = s.trim3 :=
  by cases q <;> rfl
@[simp] theorem State.putSample_trim1 (s : State) (q : SampleRing) (x : Item) : (s.putSample q x).trim1 = s.trim1 :=
  by cases q <;> rfl
@[simp] theorem State.putSample_atMode (s : State) (q : SampleRing) (x : Item) : (s.putSample q x).atMode = s.atMode :=
  by cases q <;> rfl
@[simp] theorem State.putSample_colourCode (s : State) (q : SampleRing) (x : Item) : (s.putSample q x).colourCode = s.colourCode :=
  by cases q <;> rfl
@[simp] theorem State.putSample_idle (s : State) (q : SampleRing) (x : Item) : (s.putSample q x).idle = s.idle :=
  by cases q <;> rfl
@[simp] theorem State.putSample_poBuf (s : State) (q : SampleRing) (x : Item) : (s.putSample q x).poBuf = s.poBuf :=
  by cases q <;> rfl
@[simp] theorem State.putSample_poTag (s : State) (q : SampleRing) (x : Item) : (s.putSample q x).poTag = s.poTag :=
  by cases q <;> rfl
@[simp] theorem State.putSample_poLen (s : State) (q : SampleRing) (x : Item) : (s.putSample q x).poLen = s.poLen :=
  by cases q <;> rfl
@[simp] theorem State.putSample_poPtr (s : State) (q : SampleRing) (x : Item) : (s.putSample q x).poPtr = s.poPtr :=
  by cases q <;> rfl
@[simp] theorem State.putSample_fir (s : State) (q : SampleRing) (x : Item) : (s.putSample q x).fir = s.fir :=
  by cases q <;> rfl
@[simp] theorem State.putSample_txOn (s : State) (q : SampleRing) (x : Item) : (s.putSample q x).txOn = s.txOn :=
  by cases q <;> rfl
@[simp] theorem State.putSample_fifo (s : State) (q : SampleRing) (x : Item) : (s.putSample q x).fifo = s.fifo :=
  by cases q <;> rfl
@[simp] theorem State.putSample_cmdIn (s : State) (q : SampleRing) (x : Item) : (s.putSample q x).cmdIn = s.cmdIn :=
  by cases q <;> rfl
@[simp] theorem State.putSample_rspOut (s : State) (q : SampleRing) (x : Item) : (s.putSample q x).rspOut = s.rspOut :=
  by cases q <;> rfl
@[simp] theorem State.putSample_txOut (s : State) (q : SampleRing) (x : Item) : (s.putSample q x).txOut = s.txOut :=
  by cases q <;> rfl
@[simp] theorem State.putSample_result (s : State) (q : SampleRing) (x : Item) : (s.putSample q x).result = s.result :=
  by cases q <;> rfl
@[simp] theorem State.putSample_sched (s : State) (q : SampleRing) (x : Item) : (s.putSample q x).sched = s.sched :=
  by cases q <;> rfl
@[simp] theorem State.putSample_freeCount (s : State) (q : SampleRing) (x : Item) : (s.putSample q x).freeCount = s.freeCount :=
  by cases q <;> rfl

/-! ## `slcSwap` -/

@[simp] theorem State.slcSwap_cfg (s : State) : (s.slcSwap).cfg = s.cfg := by unfold State.slcSwap; split <;> rfl
@[simp] theorem State.slcSwap_txState (s : State) : (s.slcSwap).txState = s.txState :=
  by unfold State.slcSwap; split <;> rfl
@[simp] theorem State.slcSwap_frameCount (s : State) : (s.slcSwap).frameCount = s.frameCount :=
  by unfold State.slcSwap; split <;> rfl
@[simp] theorem State.slcSwap_abort (s : State) : (s.slcSwap).abort = s.abort :=
  by unfold State.slcSwap; split <;> rfl
@[simp] theorem State.slcSwap_abortCount (s : State) : (s.slcSwap).abortCount = s.abortCount :=
  by unfold State.slcSwap; split <;> rfl
@[simp] theorem State.slcSwap_slcPending (s : State) : (s.slcSwap).slcPending = s.slcPending :=
  by unfold State.slcSwap; split <;> rfl
@[simp] theorem State.slcSwap_cachPtr (s : State) : (s.slcSwap).cachPtr = s.cachPtr :=
  by unfold State.slcSwap; split <;> rfl
@[simp] theorem State.slcSwap_trim3 (s : State) : (s.slcSwap).trim3 = s.trim3 :=
  by unfold State.slcSwap; split <;> rfl
@[simp] theorem State.slcSwap_trim1 (s : State) : (s.slcSwap).trim1 = s.trim1 :=
  by unfold State.slcSwap; split <;> rfl
@[simp] theorem State.slcSwap_atMode (s : State) : (s.slcSwap).atMode = s.atMode :=
  by unfold State.slcSwap; split <;> rfl
@[simp] theorem State.slcSwap_colourCode (s : State) : (s.slcSwap).colourCode = s.colourCode :=
  by unfold State.slcSwap; split <;> rfl
@[simp] theorem State.slcSwap_idle (s : State) : (s.slcSwap).idle = s.idle := by unfold State.slcSwap; split <;> rfl
@[simp] theorem State.slcSwap_poBuf (s : State) : (s.slcSwap).poBuf = s.poBuf :=
  by unfold State.slcSwap; split <;> rfl
@[simp] theorem State.slcSwap_poTag (s : State) : (s.slcSwap).poTag = s.poTag :=
  by unfold State.slcSwap; split <;> rfl
@[simp] theorem State.slcSwap_poLen (s : State) : (s.slcSwap).poLen = s.poLen :=
  by unfold State.slcSwap; split <;> rfl
@[simp] theorem State.slcSwap_poPtr (s : State) : (s.slcSwap).poPtr = s.poPtr :=
  by unfold State.slcSwap; split <;> rfl
@[simp] theorem State.slcSwap_fir (s : State) : (s.slcSwap).fir = s.fir := by unfold State.slcSwap; split <;> rfl
@[simp] theorem State.slcSwap_txOn (s : State) : (s.slcSwap).txOn = s.txOn := by unfold State.slcSwap; split <;> rfl
@[simp] theorem State.slcSwap_txq (s : State) : (s.slcSwap).txq = s.txq := by unfold State.slcSwap; split <;> rfl
@[simp] theorem State.slcSwap_rxq (s : State) : (s.slcSwap).rxq = s.rxq := by unfold State.slcSwap; split <;> rfl
@[simp] theorem State.slcSwap_rssiq (s : State) : (s.slcSwap).rssiq = s.rssiq :=
  by unfold State.slcSwap; split <;> rfl
@[simp] theorem State.slcSwap_fifo (s : State) : (s.slcSwap).fifo = s.fifo := by unfold State.slcSwap; split <;> rfl
@[simp] theorem State.slcSwap_cmdIn (s : State) : (s.slcSwap).cmdIn = s.cmdIn :=
  by unfold State.slcSwap; split <;> rfl
@[simp] theorem State.slcSwap_rspOut (s : State) : (s.slcSwap).rspOut = s.rspOut :=
  by unfold State.slcSwap; split <;> rfl
@[simp] theorem State.slcSwap_txOut (s : State) : (s.slcSwap).txOut = s.txOut :=
  by unfold State.slcSwap; split <;> rfl
@[simp] theorem State.slcSwap_result (s : State) : (s.slcSwap).result = s.result :=
  by unfold State.slcSwap; split <;> rfl
@[simp] theorem State.slcSwap_sched (s : State) : (s.slcSwap).sched = s.sched :=
  by unfold State.slcSwap; split <;> rfl
@[simp] theorem State.slcSwap_freeCount (s : State) : (s.slcSwap).freeCount = s.freeCount :=
  by unfold State.slcSwap; split <;> rfl

/-! ## `advancePo` -/

@[simp] theorem State.advancePo_cfg (s : State) : (s.advancePo).cfg = s.cfg :=
  by unfold State.advancePo; split <;> rfl
@[simp] theorem State.advancePo_txState (s : State) : (s.advancePo).txState = s.txState :=
  by unfold State.advancePo; split <;> rfl
@[simp] theorem State.advancePo_frameCount (s : State) : (s.advancePo).frameCount = s.frameCount :=
  by unfold State.advancePo; split <;> rfl
@[simp] theorem State.advancePo_abort (s : State) : (s.advancePo).abort = s.abort :=
  by unfold State.advancePo; split <;> rfl
@[simp] theorem State.advancePo_abortCount (s : State) : (s.advancePo).abortCount = s.abortCount :=
  by unfold State.advancePo; split <;> rfl
@[simp] theorem State.advancePo_slcLive (s : State) : (s.advancePo).slcLive = s.slcLive :=
  by unfold State.advancePo; split <;> rfl
@[simp] theorem State.advancePo_slcPending (s : State) : (s.advancePo).slcPending = s.slcPending :=
  by unfold State.advancePo; split <;> rfl
@[simp] theorem State.advancePo_cachPtr (s : State) : (s.advancePo).cachPtr = s.cachPtr :=
  by unfold State.advancePo; split <;> rfl
@[simp] theorem State.advancePo_trim3 (s : State) : (s.advancePo).trim3 = s.trim3 :=
  by unfold State.advancePo; split <;> rfl
@[simp] theorem State.advancePo_trim1 (s : State) : (s.advancePo).trim1 = s.trim1 :=
  by unfold State.advancePo; split <;> rfl
@[simp] theorem State.advancePo_atMode (s : State) : (s.advancePo).atMode = s.atMode :=
  by unfold State.advancePo; split <;> rfl
@[simp] theorem State.advancePo_colourCode (s : State) : (s.advancePo).colourCode = s.colourCode :=
  by unfold State.advancePo; split <;> rfl
@[simp] theorem State.advancePo_idle (s : State) : (s.advancePo).idle = s.idle :=
  by unfold State.advancePo; split <;> rfl
@[simp] theorem State.advancePo_poBuf (s : State) : (s.advancePo).poBuf = s.poBuf :=
  by unfold State.advancePo; split <;> rfl
@[simp] theorem State.advancePo_poTag (s : State) : (s.advancePo).poTag = s.poTag :=
  by unfold State.advancePo; split <;> rfl
@[simp] theorem State.advancePo_fir (s : State) : (s.advancePo).fir = s.fir :=
  by unfold State.advancePo; split <;> rfl
@[simp] theorem State.advancePo_txOn (s : State) : (s.advancePo).txOn = s.txOn :=
  by unfold State.advancePo; split <;> rfl
@[simp] theorem State.advancePo_txq (s : State) : (s.advancePo).txq = s.txq :=
  by unfold State.advancePo; split <;> rfl
@[simp] theorem State.advancePo_rxq (s : State) : (s.advancePo).rxq = s.rxq :=
  by unfold State.advancePo; split <;> rfl
@[simp] theorem State.advancePo_rssiq (s : State) : (s.advancePo).rssiq = s.rssiq :=
  by unfold State.advancePo; split <;> rfl
@[simp] theorem State.advancePo_fifo (s : State) : (s.advancePo).fifo = s.fifo :=
  by unfold State.advancePo; split <;> rfl
@[simp] theorem State.advancePo_cmdIn (s : State) : (s.advancePo).cmdIn = s.cmdIn :=
  by unfold State.advancePo; split <;> rfl
@[simp] theorem State.advancePo_rspOut (s : State) : (s.advancePo).rspOut = s.rspOut :=
  by unfold State.advancePo; split <;> rfl
@[simp] theorem State.advancePo_txOut (s : State) : (s.advancePo).txOut = s.txOut :=
  by unfold State.advancePo; split <;> rfl
@[simp] theorem State.advancePo_result (s : State) : (s.advancePo).result = s.result :=
  by unfold State.advancePo; split <;> rfl
@[simp] theorem State.advancePo_sched (s : State) : (s.advancePo).sched = s.sched :=
  by unfold State.advancePo; split <;> rfl
@[simp] theorem State.advancePo_freeCount (s : State) : (s.advancePo).freeCount = s.freeCount :=
  by unfold State.advancePo; split <;> rfl

/-! ## The one ring a ring update changes -/

@[simp] theorem State.sampleRing_withSampleRing (s : State) (q : SampleRing) (r : RingBuf Item) :
    (s.withSampleRing q r).sampleRing q = r := by cases q <;> rfl
theorem State.sampleRing_withSampleRing_other (s : State) (q p : SampleRing) (r : RingBuf Item) (h : p ≠ q) :
    (s.withSampleRing q r).sampleRing p = s.sampleRing p := by
  cases q <;> cases p <;> first | rfl | exact absurd rfl h

/-! ## Reset -/

theorem State.resetWith_cfg (c : Config) : (State.resetWith c).cfg = c := rfl

end Sys2Proof.Machine
end

