-- ==== Sys2Proof/Laws/Framing.lean ====
section
/-! SUPPORT. The sequencer's steps (spec/41_framing.md): when each is enabled, and everything it can answer. -/

namespace Sys2Proof.Machine

variable {s t : State} {k tx rx : Slot}

/-! ## Enabling conditions -/

theorem State.dataEnabled_iff : s.dataEnabled k = true ↔ s.poLen = 0 ∧ s.txState = dataState k := by
  simp [State.dataEnabled]

theorem State.cachEnabled_iff :
    s.cachEnabled tx rx = true ↔
      s.poLen = 0 ∧ ((s.txState = .cach2 ∧ tx = .slot1 ∧ rx = .slot0) ∨ (s.txState = .cach1 ∧ tx = .slot0 ∧ rx = .slot1)) := by
  simp [State.cachEnabled, and_assoc]

theorem State.calEnabled_iff : s.calEnabled = true ↔ s.poLen = 0 ∧ s.txState = .calibration := by simp [State.calEnabled]

theorem State.emitEnabled_iff :
    s.emitEnabled = true ↔ s.txState ≠ .idle ∧ 0 < s.poLen ∧ 4 * s.cfg.osr < s.txq.free s.cfg.nTx := by
  simp only [State.emitEnabled, State.txRoom, Bool.and_eq_true, decide_eq_true_eq, bne_iff_ne, and_assoc]
  exact Iff.rfl

/-- R157 in terms of the queued items. -/
theorem State.dataReady_iff (h : s.Inv) :
    s.dataReady k = true ↔
      s.cfg.burstBytes ≤ ((s.fifo.get k).items s.cfg.nFifo).length ∧ s.cfg.startupCount.toNat ≤ s.frameCount.toNat
        ∧ s.cfg.abortLimit.toNat ≤ (s.abortCount.get k).toNat := by
  simp only [State.dataReady, Bool.and_eq_true, decide_eq_true_eq, RingBuf.occupied_eq_length (h.fifoWf k), BitVec.le_def,
    and_assoc]

theorem suppressed_iff {m : Byte} :
    suppressed m rx = true ↔ m = 3 ∨ (m = 1 ∧ rx = .slot0) ∨ (m = 2 ∧ rx = .slot1) := by
  simp [suppressed, or_assoc]

/-- R164. -/
theorem State.accessType_iff :
    s.accessType rx = true ↔
      s.cfg.startupCount.toNat ≤ s.frameCount.toNat ∧ ¬ suppressed s.atMode rx = true ∧ 0 < s.ringOccupied (.fifo rx) := by
  unfold State.accessType
  by_cases h : s.frameCount < s.cfg.startupCount
  · rw [if_pos h]
    rw [BitVec.lt_def] at h
    simp
    omega
  · rw [if_neg h]
    rw [BitVec.lt_def, not_lt] at h
    cases suppressed s.atMode rx <;> simp [h]

/-- `FIFO[k]` occupancy as its items. -/
theorem State.ringOccupied_fifo (h : s.Inv) :
    s.ringOccupied (.fifo k) = ((s.fifo.get k).items s.cfg.nFifo).length := RingBuf.occupied_eq_length (h.fifoWf k)

/-! ## What each build and emit step answers -/

theorem execBuildData_next (h : execBuildData k s = .next t) :
    s.dataEnabled k = true
      ∧ ((s.dataReady k = true ∧ t = (s.dataBranch k).advance)
        ∨ (s.dataReady k = false ∧ ∃ template, s.idle = some template ∧ t = (s.idleBranch k template).advance)) := by
  unfold execBuildData at h
  split at h
  · rename_i he
    split at h
    · rename_i hr
      exact ⟨he, .inl ⟨hr, (Host.Outcome.next.inj h).symm⟩⟩
    · rename_i hr
      split at h
      · simp at h
      · rename_i template ht
        exact ⟨he, .inr ⟨by simpa using hr, template, ht, (Host.Outcome.next.inj h).symm⟩⟩
  · simp at h

theorem execBuildCach_next (h : execBuildCach tx rx s = .next t) :
    s.cachEnabled tx rx = true ∧ t = (s.bumpCounters.slcSwap.loadCach tx rx).advance := by
  unfold execBuildCach at h
  split at h
  · exact ⟨‹_›, (Host.Outcome.next.inj h).symm⟩
  · simp at h

theorem execBuildCal_next (h : execBuildCal s = .next t) :
    s.calEnabled = true ∧ t = (s.loadBurst s.cfg.calBurst).advance := by
  unfold execBuildCal at h
  split at h
  · exact ⟨‹_›, (Host.Outcome.next.inj h).symm⟩
  · simp at h

theorem execEmitByte_next (h : execEmitByte s = .next t) : s.emitEnabled = true ∧ t = s.emitCurrent := by
  unfold execEmitByte at h
  split at h
  · exact ⟨‹_›, (Host.Outcome.next.inj h).symm⟩
  · simp at h

/-- A step the sequencer takes is the build of its state, or an emit (R150, R151). -/
theorem State.sequencerStep_some {i : Instr} (h : s.sequencerStep = some i) :
    (s.poLen = 0 ∧ ((s.txState = .slot1 ∧ i = .buildData .slot0) ∨ (s.txState = .cach2 ∧ i = .buildCach .slot1 .slot0)
        ∨ (s.txState = .slot2 ∧ i = .buildData .slot1) ∨ (s.txState = .cach1 ∧ i = .buildCach .slot0 .slot1)
        ∨ (s.txState = .calibration ∧ i = .buildCal)))
      ∨ (s.poLen ≠ 0 ∧ s.emitEnabled = true ∧ i = .emitByte) := by
  unfold State.sequencerStep at h
  split at h
  · rename_i hp
    refine .inl ⟨hp, ?_⟩
    split at h <;> simp_all
  · rename_i hp
    split at h
    · exact .inr ⟨hp, ‹_›, (Option.some.inj h).symm⟩
    · simp at h

/-- With no step enabled, the block is in Idle or waits for room. -/
theorem State.sequencerStep_none (h : s.sequencerStep = none) :
    (s.poLen = 0 ∧ s.txState = .idle) ∨ (s.poLen ≠ 0 ∧ s.emitEnabled = false) := by
  unfold State.sequencerStep at h
  split at h
  · rename_i hp
    refine .inl ⟨hp, ?_⟩
    split at h <;> simp_all
  · rename_i hp
    split at h
    · simp at h
    · rename_i he
      exact .inr ⟨hp, by simpa using he⟩

/-! ## The framing state after a step (R151) -/

@[simp] theorem State.dataBranch_txState (s : State) (k : Slot) : (s.dataBranch k).txState = s.txState := rfl
@[simp] theorem State.dataBranch_cfg (s : State) (k : Slot) : (s.dataBranch k).cfg = s.cfg := rfl
@[simp] theorem State.idleBranch_txState (s : State) (k : Slot) (p : List Byte) : (s.idleBranch k p).txState = s.txState := by
  cases h : s.abort.get k <;> simp [State.idleBranch, State.loadBurst, h]
@[simp] theorem State.emitCurrent_txState (s : State) : s.emitCurrent.txState = s.txState := by simp [State.emitCurrent]

/-! ## Stream bits of the fragment (R163) -/

/-- Three bytes cut from a payload keep their stream bits. -/
theorem readBit_cut (p : List Byte) (c j : Nat) (hj : j < 24) :
    readBit ((List.range cachBytes).map fun k => p.getD (c + k) 0) j = readBit p (8 * c + j) := by
  unfold readBit
  rw [show (8 * c + j) / 8 = c + j / 8 by omega, show (8 * c + j) % 8 = j % 8 by omega]
  congr 1
  rw [List.getD_eq_getElem?_getD, List.getElem?_map, List.getElem?_range (by simp [cachBytes]; omega)]
  rfl

end Sys2Proof.Machine
end

