-- ==== Sys2Proof/Laws/Host.lean ====
section
/-! SUPPORT. Host commands (spec/41_framing.md R170-R178, spec/44_host_commands.md R240-R247): the operand forms, and
everything each command can answer. -/

namespace Sys2Proof.Machine

variable {b : Byte} {k : Slot} (ops : List Byte) (s : State)

/-! ## Operand forms (R83) -/

theorem boolOperand_some {on : Bool} : boolOperand b = some on ↔ b = if on then 1 else 0 := by
  unfold boolOperand
  by_cases h0 : b = 0
  · subst h0; cases on <;> simp
  · by_cases h1 : b = 1
    · subst h1; cases on <;> simp
    · rw [if_neg h0, if_neg h1]
      cases on
      · simpa using h0
      · simpa using h1

theorem boolOperand_none : boolOperand b = none ↔ b ≠ 0 ∧ b ≠ 1 := by
  unfold boolOperand
  by_cases h0 : b = 0
  · simp [h0]
  · by_cases h1 : b = 1
    · simp [h1]
    · rw [if_neg h0, if_neg h1]; exact ⟨fun _ => ⟨h0, h1⟩, fun _ => rfl⟩

theorem slotSelector_some : slotSelector b = some k ↔ b.toNat = k.index + 1 := by
  have hn : ∀ {n : Nat}, n < 256 → b ≠ BitVec.ofNat 8 n → b.toNat ≠ n := by
    intro n hn h e
    exact h (BitVec.eq_of_toNat_eq (by rw [BitVec.toNat_ofNat]; omega))
  unfold slotSelector
  by_cases h1 : b = 1
  · subst h1; cases k <;> simp [Slot.index]
  · by_cases h2 : b = 2
    · subst h2; cases k <;> simp [Slot.index]
    · rw [if_neg h1, if_neg h2]
      have := hn (n := 1) (by omega) h1
      have := hn (n := 2) (by omega) h2
      cases k <;> simp [Slot.index] <;> omega

theorem slotSelector_none : slotSelector b = none ↔ b ≠ 1 ∧ b ≠ 2 := by
  unfold slotSelector
  by_cases h1 : b = 1
  · simp [h1]
  · by_cases h2 : b = 2
    · simp [h2]
    · rw [if_neg h1, if_neg h2]; exact ⟨fun _ => ⟨h1, h2⟩, fun _ => rfl⟩

theorem modeOperand_eq : modeOperand b = if b.toNat ≤ 3 then some b else none := by
  unfold modeOperand atModes
  by_cases h : b.toNat ≤ 3
  · rw [if_pos h, if_pos (by omega)]
  · rw [if_neg h, if_neg (by omega)]

/-! ## What each command can answer -/

/-- WRITE_SLOT_DATA: the queue's two outcomes, or a failure that changes nothing else. -/
theorem execWriteSlotData_cases :
    (∃ sel p k, ops = sel :: p ∧ p.length = s.cfg.burstBytes ∧ slotSelector sel = some k
        ∧ execWriteSlotData ops s = .next (s.writeBurst k p))
      ∨ (∃ sel p, ops = sel :: p ∧ p.length = s.cfg.burstBytes ∧ slotSelector sel = none
        ∧ execWriteSlotData ops s = .next (s.fail .invalidSlot))
      ∨ ((ops = [] ∨ ∃ sel p, ops = sel :: p ∧ p.length ≠ s.cfg.burstBytes)
        ∧ execWriteSlotData ops s = .next (s.fail .illegalLength)) := by
  cases ops with
  | nil => exact .inr (.inr ⟨.inl rfl, rfl⟩)
  | cons sel p =>
    by_cases hl : p.length = s.cfg.burstBytes
    · cases hs : slotSelector sel with
      | none => exact .inr (.inl ⟨sel, p, rfl, hl, hs, by simp [execWriteSlotData, hl, hs]⟩)
      | some k => exact .inl ⟨sel, p, k, rfl, hl, hs, by simp [execWriteSlotData, hl, hs]⟩
    · exact .inr (.inr ⟨.inr ⟨sel, p, rfl, hl⟩, by simp [execWriteSlotData, hl]⟩)

theorem execWriteShortLc_cases :
    (ops.length = 9
        ∧ execWriteShortLc ops s = .next ({ s with slcPending := scatterSlc s.cfg.slcInterleave ops }).answerOk)
      ∨ (ops.length ≠ 9 ∧ execWriteShortLc ops s = .next (s.fail .illegalLength)) := by
  by_cases h : ops.length = 9
  · exact .inl ⟨h, by simp [execWriteShortLc, h]⟩
  · exact .inr ⟨h, by simp [execWriteShortLc, h]⟩

theorem execWriteAbort_cases :
    (∃ sel k, ops = [sel] ∧ slotSelector sel = some k ∧ execWriteAbort ops s =
        .next ({ s with abort := s.abort.set k true, abortCount := s.abortCount.set k 0 }).answerOk)
      ∨ (∃ sel, ops = [sel] ∧ slotSelector sel = none ∧ execWriteAbort ops s = .next (s.fail .invalidSlot))
      ∨ (ops.length ≠ 1 ∧ execWriteAbort ops s = .next (s.fail .illegalLength)) := by
  match ops with
  | [] => exact .inr (.inr ⟨by simp, rfl⟩)
  | [sel] =>
    cases hs : slotSelector sel with
    | none => exact .inr (.inl ⟨sel, rfl, hs, by simp [execWriteAbort, hs]⟩)
    | some k => exact .inl ⟨sel, k, rfl, hs, by simp [execWriteAbort, hs]⟩
  | _ :: _ :: _ => exact .inr (.inr ⟨by simp, rfl⟩)

theorem execStart_cases :
    (∃ on : Bool, ops = [if on then 1 else 0] ∧ execStart ops s = .next ({ s with
        txState := if on then .slot1 else .idle, frameCount := 0, abort := ⟨false, false⟩, abortCount := ⟨0, 0⟩ }).answerOk)
      ∨ (∃ b, ops = [b] ∧ b ≠ 0 ∧ b ≠ 1 ∧ execStart ops s = .next (s.fail .invalidValue))
      ∨ (ops.length ≠ 1 ∧ execStart ops s = .next (s.fail .illegalLength)) := by
  match ops with
  | [] => exact .inr (.inr ⟨by simp, rfl⟩)
  | [b] =>
    cases hs : boolOperand b with
    | none => exact .inr (.inl ⟨b, rfl, (boolOperand_none.mp hs).1, (boolOperand_none.mp hs).2, by simp [execStart, hs]⟩)
    | some on => exact .inl ⟨on, by rw [boolOperand_some.mp hs], by simp [execStart, hs]⟩
  | _ :: _ :: _ => exact .inr (.inr ⟨by simp, rfl⟩)

theorem execSetCal_cases :
    (∃ on : Bool, ops = [if on then 1 else 0] ∧ execSetCal ops s =
        .next ({ s with txState := if on then .calibration else .idle }).answerOk)
      ∨ (∃ b, ops = [b] ∧ b ≠ 0 ∧ b ≠ 1 ∧ execSetCal ops s = .next (s.fail .invalidValue))
      ∨ (ops.length ≠ 1 ∧ execSetCal ops s = .next (s.fail .illegalLength)) := by
  match ops with
  | [] => exact .inr (.inr ⟨by simp, rfl⟩)
  | [b] =>
    cases hs : boolOperand b with
    | none => exact .inr (.inl ⟨b, rfl, (boolOperand_none.mp hs).1, (boolOperand_none.mp hs).2, by simp [execSetCal, hs]⟩)
    | some on => exact .inl ⟨on, by rw [boolOperand_some.mp hs], by simp [execSetCal, hs]⟩
  | _ :: _ :: _ => exact .inr (.inr ⟨by simp, rfl⟩)

theorem execSetSymlvl_cases :
    (∃ h3 l3 h1 l1, ops = [h3, l3, h1, l1] ∧ execSetSymlvl ops s =
        .next ({ s with trim3 := clampTrim (s16Operand h3 l3), trim1 := clampTrim (s16Operand h1 l1) }).answerOk)
      ∨ (ops.length ≠ 4 ∧ execSetSymlvl ops s = .next (s.fail .illegalLength)) := by
  match ops with
  | [] | [_] | [_, _] | [_, _, _] => exact .inr ⟨by simp, rfl⟩
  | [h3, l3, h1, l1] => exact .inl ⟨h3, l3, h1, l1, rfl, rfl⟩
  | _ :: _ :: _ :: _ :: _ :: _ => exact .inr ⟨by simp, rfl⟩

theorem execSetAtSupp_cases :
    (∃ m, ops = [m] ∧ m.toNat ≤ 3 ∧ execSetAtSupp ops s = .next ({ s with atMode := m }).answerOk)
      ∨ (∃ m, ops = [m] ∧ ¬ m.toNat ≤ 3 ∧ execSetAtSupp ops s = .next (s.fail .invalidValue))
      ∨ (ops.length ≠ 1 ∧ execSetAtSupp ops s = .next (s.fail .illegalLength)) := by
  match ops with
  | [] => exact .inr (.inr ⟨by simp, rfl⟩)
  | [m] =>
    by_cases h : m.toNat ≤ 3
    · exact .inl ⟨m, rfl, h, by simp [execSetAtSupp, modeOperand_eq, h]⟩
    · exact .inr (.inl ⟨m, rfl, h, by simp [execSetAtSupp, modeOperand_eq, h]⟩)
  | _ :: _ :: _ => exact .inr (.inr ⟨by simp, rfl⟩)

theorem execSetColorCode_cases :
    (∃ cc, ops = [cc] ∧ cc.toNat ≤ 15 ∧ execSetColorCode ops s =
        .next ({ s with idle := some (s.cfg.idleTemplate cc), colourCode := some cc }).answerOk)
      ∨ (∃ cc, ops = [cc] ∧ ¬ cc.toNat ≤ 15 ∧ execSetColorCode ops s = .next (s.fail .invalidValue))
      ∨ (ops.length ≠ 1 ∧ execSetColorCode ops s = .next (s.fail .illegalLength)) := by
  match ops with
  | [] => exact .inr (.inr ⟨by simp, rfl⟩)
  | [cc] =>
    by_cases h : cc.toNat ≤ 15
    · exact .inl ⟨cc, rfl, h, by simp [execSetColorCode, colourOperand, h]⟩
    · exact .inr (.inl ⟨cc, rfl, h, by simp [execSetColorCode, colourOperand, h]⟩)
  | _ :: _ :: _ => exact .inr (.inr ⟨by simp, rfl⟩)

theorem execReadFreeSpace_cases :
    (∃ sel k, ops = [sel] ∧ slotSelector sel = some k ∧ execReadFreeSpace ops s =
        .next (s.answer .ok (be32 (BitVec.ofNat 32 (s.ringFree (.fifo k))))))
      ∨ (∃ sel, ops = [sel] ∧ slotSelector sel = none ∧ execReadFreeSpace ops s = .next (s.fail .invalidSlot))
      ∨ (ops.length ≠ 1 ∧ execReadFreeSpace ops s = .next (s.fail .illegalLength)) := by
  match ops with
  | [] => exact .inr (.inr ⟨by simp, rfl⟩)
  | [sel] =>
    cases hs : slotSelector sel with
    | none => exact .inr (.inl ⟨sel, rfl, hs, by simp [execReadFreeSpace, hs]⟩)
    | some k => exact .inl ⟨sel, k, rfl, hs, by simp [execReadFreeSpace, hs]⟩
  | _ :: _ :: _ => exact .inr (.inr ⟨by simp, rfl⟩)

theorem execReadFrameCount_cases :
    (ops = [] ∧ execReadFrameCount ops s = .next (s.answer .ok (be32 s.frameCount)))
      ∨ (ops ≠ [] ∧ execReadFrameCount ops s = .next (s.fail .illegalLength)) := by
  cases ops with
  | nil => exact .inl ⟨rfl, rfl⟩
  | cons b bs => exact .inr ⟨by simp, rfl⟩

theorem execPollOverflow_cases :
    (∃ b q, ops = [b] ∧ ringOperand b = some q ∧ execPollOverflow ops s =
        .next ((s.clearRingOverflow q).answer .ok [if s.ringOverflow q then 0x01 else 0x00]))
      ∨ (∃ b, ops = [b] ∧ ringOperand b = none ∧ execPollOverflow ops s = .next (s.fail .invalidValue))
      ∨ (ops.length ≠ 1 ∧ execPollOverflow ops s = .next (s.fail .illegalLength)) := by
  match ops with
  | [] => exact .inr (.inr ⟨by simp, rfl⟩)
  | [b] =>
    cases hs : ringOperand b with
    | none => exact .inr (.inl ⟨b, rfl, hs, by simp [execPollOverflow, hs]⟩)
    | some q => exact .inl ⟨b, q, rfl, hs, by simp [execPollOverflow, hs]⟩
  | _ :: _ :: _ => exact .inr (.inr ⟨by simp, rfl⟩)

/-! ## All of them at once -/

/-- Everything a host command can answer (R241): a failure, a full FIFO's reset, a queued burst, a cleared overflow flag, or
new values of the registers host commands write. -/
theorem exec_hostCommand {op : Byte} {ops : List Byte} {i : Instr} (h : hostCommand op ops = some i) (s : State) :
    (∃ st, st ≠ .ok ∧ st ≠ .ringFull ∧ exec i s = .next (s.fail st))
      ∨ (∃ k sel p, i = .writeSlotData (sel :: p) ∧ sel.toNat = k.index + 1
          ∧ exec i s = .next ((s.withFifo k (s.fifo.get k).reset).fail .ringFull))
      ∨ (∃ k p, exec i s = .next (({ s.withFifo k ((s.fifo.get k).putAll s.cfg.nFifo p) with
            txState := if s.txState = TxState.idle then .slot1 else s.txState }).answerOk))
      ∨ (∃ q d, exec i s = .next ((s.clearRingOverflow q).answer .ok d))
      ∨ ∃ d st fc ab ac sp t3 t1 am cc id,
          exec i s = .next ({ s with
            txState := st, frameCount := fc, abort := ab, abortCount := ac, slcPending := sp, trim3 := t3, trim1 := t1,
            atMode := am, colourCode := cc, idle := id }.answer .ok d) := by
  rcases hostCommand_some h with rfl | rfl | rfl | rfl | rfl | rfl | rfl | rfl | rfl | rfl | rfl
  · rcases execWriteSlotData_cases ops s with ⟨sel, p, k, rfl, hl, hs, g⟩ | ⟨sel, p, rfl, hl, hs, g⟩ | ⟨_, g⟩
    · unfold State.writeBurst at g
      split at g
      · exact .inr (.inl ⟨k, sel, p, rfl, slotSelector_some.mp hs, g⟩)
      · exact .inr (.inr (.inl ⟨k, p, g⟩))
    · exact .inl ⟨_, by decide, by decide, g⟩
    · exact .inl ⟨_, by decide, by decide, g⟩
  · rcases execWriteShortLc_cases ops s with ⟨_, g⟩ | ⟨_, g⟩
    · exact .inr (.inr (.inr (.inr ⟨[], _, _, _, _, _, _, _, _, _, _, g⟩)))
    · exact .inl ⟨_, by decide, by decide, g⟩
  · rcases execWriteAbort_cases ops s with ⟨_, _, _, _, g⟩ | ⟨_, _, _, g⟩ | ⟨_, g⟩
    · exact .inr (.inr (.inr (.inr ⟨[], _, _, _, _, _, _, _, _, _, _, g⟩)))
    · exact .inl ⟨_, by decide, by decide, g⟩
    · exact .inl ⟨_, by decide, by decide, g⟩
  · rcases execStart_cases ops s with ⟨_, _, g⟩ | ⟨_, _, _, _, g⟩ | ⟨_, g⟩
    · exact .inr (.inr (.inr (.inr ⟨[], _, _, _, _, _, _, _, _, _, _, g⟩)))
    · exact .inl ⟨_, by decide, by decide, g⟩
    · exact .inl ⟨_, by decide, by decide, g⟩
  · rcases execSetCal_cases ops s with ⟨_, _, g⟩ | ⟨_, _, _, _, g⟩ | ⟨_, g⟩
    · exact .inr (.inr (.inr (.inr ⟨[], _, _, _, _, _, _, _, _, _, _, g⟩)))
    · exact .inl ⟨_, by decide, by decide, g⟩
    · exact .inl ⟨_, by decide, by decide, g⟩
  · rcases execSetSymlvl_cases ops s with ⟨_, _, _, _, _, g⟩ | ⟨_, g⟩
    · exact .inr (.inr (.inr (.inr ⟨[], _, _, _, _, _, _, _, _, _, _, g⟩)))
    · exact .inl ⟨_, by decide, by decide, g⟩
  · rcases execSetAtSupp_cases ops s with ⟨_, _, _, g⟩ | ⟨_, _, _, g⟩ | ⟨_, g⟩
    · exact .inr (.inr (.inr (.inr ⟨[], _, _, _, _, _, _, _, _, _, _, g⟩)))
    · exact .inl ⟨_, by decide, by decide, g⟩
    · exact .inl ⟨_, by decide, by decide, g⟩
  · rcases execSetColorCode_cases ops s with ⟨_, _, _, g⟩ | ⟨_, _, _, g⟩ | ⟨_, g⟩
    · exact .inr (.inr (.inr (.inr ⟨[], _, _, _, _, _, _, _, _, _, _, g⟩)))
    · exact .inl ⟨_, by decide, by decide, g⟩
    · exact .inl ⟨_, by decide, by decide, g⟩
  · rcases execReadFreeSpace_cases ops s with ⟨_, _, _, _, g⟩ | ⟨_, _, _, g⟩ | ⟨_, g⟩
    · exact .inr (.inr (.inr (.inr ⟨_, _, _, _, _, _, _, _, _, _, _, g⟩)))
    · exact .inl ⟨_, by decide, by decide, g⟩
    · exact .inl ⟨_, by decide, by decide, g⟩
  · rcases execReadFrameCount_cases ops s with ⟨_, g⟩ | ⟨_, g⟩
    · exact .inr (.inr (.inr (.inr ⟨_, _, _, _, _, _, _, _, _, _, _, g⟩)))
    · exact .inl ⟨_, by decide, by decide, g⟩
  · rcases execPollOverflow_cases ops s with ⟨_, q, _, _, g⟩ | ⟨_, _, _, g⟩ | ⟨_, g⟩
    · exact .inr (.inr (.inr (.inl ⟨q, _, g⟩)))
    · exact .inl ⟨_, by decide, by decide, g⟩
    · exact .inl ⟨_, by decide, by decide, g⟩

/-! ## Short link control (R170) -/

/-- Scattered bits: each of the first `n` table positions holds its input bit, every other bit is 0. -/
theorem scatter_bits (table : List Nat) (d : List Byte) (n : Nat) (hn : n ≤ table.length) (hd : table.Nodup)
    (hr : ∀ p ∈ table, p < 96) :
    let p := (List.range n).foldl (fun p i => writeBit p (table.getD i 0) (readBit d i)) (List.replicate slcBytes 0)
    p.length = 12 ∧ (∀ i < n, readBit p (table.getD i 0) = readBit d i)
      ∧ ∀ j, j ∉ table → readBit p j = false := by
  induction n with
  | zero =>
    refine ⟨by simp [slcBytes], by simp, fun j _ => ?_⟩
    simp only [List.range_zero, List.foldl_nil, readBit, List.getD_eq_getElem?_getD]
    by_cases h : j / 8 < slcBytes
    · simp [h]
    · simp [List.getElem?_eq_none (l := List.replicate slcBytes (0#8)) (i := j / 8) (by simpa using h)]
  | succ n ih =>
    obtain ⟨hl, h1, h2⟩ := ih (by omega)
    simp only [List.range_succ, List.foldl_append, List.foldl_cons, List.foldl_nil]
    have hmem : table.getD n 0 ∈ table := by
      rw [List.getD_eq_getElem?_getD, List.getElem?_eq_getElem (by omega)]
      exact List.getElem_mem (by omega)
    have hlt := hr _ hmem
    refine ⟨by simpa using hl, fun i hi => ?_, fun j hj => ?_⟩
    · rw [readBit_writeBit _ _ _ _ (by rw [hl]; omega)]
      rcases Nat.lt_succ_iff_lt_or_eq.mp hi with h | h
      · rw [if_neg, h1 i h]
        intro he
        rw [List.getD_eq_getElem?_getD, List.getD_eq_getElem?_getD, List.getElem?_eq_getElem (by omega),
          List.getElem?_eq_getElem (by omega)] at he
        have := (List.Nodup.getElem_inj_iff hd).mp he
        omega
      · rw [h, if_pos rfl]
    · rw [readBit_writeBit _ _ _ _ (by rw [hl]; omega), if_neg (by rintro rfl; exact hj hmem), h2 j hj]

/-- The pending payload WRITE_SHORT_LC leaves, under a well-formed table (R170, R172). -/
theorem scatterSlc_bits {c : Config} (h : c.Clauses) (d : List Byte) :
    (scatterSlc c.slcInterleave d).length = 12
      ∧ (∀ i < 68, readBit (scatterSlc c.slcInterleave d) (c.slcInterleave.getD i 0) = readBit d i)
      ∧ ∀ j, j ∉ c.slcInterleave → readBit (scatterSlc c.slcInterleave d) j = false :=
  scatter_bits c.slcInterleave d 68 (by rw [h.tableLength]) h.tableNodup h.tableRange

@[simp] theorem length_scatterSlc (table : List Nat) (d : List Byte) : (scatterSlc table d).length = slcBytes := by
  unfold scatterSlc
  generalize List.range slcBits = l
  suffices h : ∀ p : List Byte, (l.foldl (fun p i => writeBit p (table.getD i 0) (readBit d i)) p).length = p.length by
    rw [h]; simp
  induction l with
  | nil => intro p; rfl
  | cons x xs ih => intro p; rw [List.foldl_cons, ih]; simp

end Sys2Proof.Machine
end

