-- ==== Sys2Proof/Laws/Io.lean ====
section
/-! SUPPORT. The I/O contract (spec/43_io_contract.md): what a service step and a push change, and nothing else. -/

namespace Sys2Proof.Machine

variable {s : State}

/-- What the TX half delivers and leaves, in any state (R226). -/
theorem State.serviceTx_eq (s : State) :
    ∃ (q : RingBuf Item) (on : Bool) (out : Item),
      s.serviceTx = ({ s with txq := q, txOn := on, txOut := s.txOut ++ [out] }, out.tag)
        ∧ q = (s.txq.get s.cfg.nTx).2
        ∧ (((s.txq.get s.cfg.nTx).1 = some out ∧ on = s.txOn)
          ∨ ((s.txq.get s.cfg.nTx).1 = none ∧ on = false ∧ out = ⟨s.cfg.silence, .none⟩)) := by
  rcases hg : s.txq.get s.cfg.nTx with ⟨_ | x, q⟩
  · exact ⟨q, false, ⟨s.cfg.silence, .none⟩, by simp [State.serviceTx, hg, State.emitOut], rfl, .inr ⟨rfl, rfl, rfl⟩⟩
  · exact ⟨q, s.txOn, x, by simp [State.serviceTx, hg, State.emitOut], rfl, .inl ⟨rfl, rfl⟩⟩

/-- The RX half writes RXQ and, with RSSI enabled, RSSIQ (R226, R228). -/
theorem State.serviceRx_eq (s : State) (rx rssi : Word16) (t : Tag) :
    s.serviceRx rx rssi t =
      { s with
        rxq := (s.rxq.put s.cfg.nRx ⟨rx, t⟩).1
        rssiq := if s.cfg.rssiEnabled then (s.rssiq.put s.cfg.nRssi ⟨rssi, .none⟩).1 else s.rssiq } := by
  cases h : s.cfg.rssiEnabled <;>
    simp [State.serviceRx, State.putSample, State.withSampleRing, State.sampleRing, Config.capacity, h]

/-- One service step as one record (R226). -/
theorem execIoService_eq (s : State) (rx rssi : Word16) :
    ∃ (q : RingBuf Item) (on : Bool) (out : Item),
      execIoService rx rssi s =
        .next { s with
          txq := q
          txOn := on
          txOut := s.txOut ++ [out]
          rxq := (s.rxq.put s.cfg.nRx ⟨rx, out.tag⟩).1
          rssiq := if s.cfg.rssiEnabled then (s.rssiq.put s.cfg.nRssi ⟨rssi, .none⟩).1 else s.rssiq }
        ∧ q = (s.txq.get s.cfg.nTx).2
        ∧ (((s.txq.get s.cfg.nTx).1 = some out ∧ on = s.txOn)
          ∨ ((s.txq.get s.cfg.nTx).1 = none ∧ on = false ∧ out = ⟨s.cfg.silence, .none⟩)) := by
  obtain ⟨q, on, out, h, hq⟩ := s.serviceTx_eq
  exact ⟨q, on, out, by rw [execIoService, h, State.serviceRx_eq], hq⟩

end Sys2Proof.Machine
end

