-- ==== Sys2Proof/Laws/Invariant.lean ====
section
/-! SUPPORT. The invariant of spec/10_state.md R43 through each shared operation. -/

namespace Sys2Proof.Machine

variable {s : State}

theorem State.Inv.withFifo (h : s.Inv) (k : Slot) {r : RingBuf Byte} (hr : r.Wf s.cfg.nFifo) : (s.withFifo k r).Inv := by
  obtain ⟨h1, ⟨r1, r2, r3, r4, r5⟩, h3, h4⟩ := h
  cases k
  · exact ⟨h1, ⟨r1, r2, r3, hr, r5⟩, h3, h4⟩
  · exact ⟨h1, ⟨r1, r2, r3, r4, hr⟩, h3, h4⟩

theorem State.Inv.withSampleRing (h : s.Inv) (q : SampleRing) {r : RingBuf Item}
    (hr : r.Wf (s.cfg.capacity (.sample q))) : (s.withSampleRing q r).Inv := by
  obtain ⟨h1, ⟨r1, r2, r3, r4, r5⟩, h3, h4⟩ := h
  cases q
  · exact ⟨h1, ⟨hr, r2, r3, r4, r5⟩, h3, h4⟩
  · exact ⟨h1, ⟨r1, hr, r3, r4, r5⟩, h3, h4⟩
  · exact ⟨h1, ⟨r1, r2, hr, r4, r5⟩, h3, h4⟩

/-- Loading a burst of three bytes or of one burst keeps the provisional buffer sound (R33). -/
theorem State.Inv.loadPo (h : s.Inv) {b : List Byte} {t : List Tag} {n : Nat} (hb : b.length = n) (ht : t.length = n)
    (hn : n = 3 ∨ n = s.cfg.burstBytes) : (s.loadPo b t n).Inv := by
  obtain ⟨h1, h2, ⟨p1, p2, p3, p4, p5⟩, h4⟩ := h
  have := ((Config.wf_iff _).mp h1).burst
  refine ⟨h1, h2, ⟨?_, ?_, ?_, fun _ => rfl, fun h => h⟩, h4⟩
  · simp [State.loadPo, hb, p1]; omega
  · simp [State.loadPo, ht, p2]; omega
  · simp only [State.loadPo, cachBytes]; rcases hn with h | h <;> simp [h]

theorem State.Inv.withFir (h : s.Inv) {f : List Sample} (hf : f.length = s.fir.length) :
    ({ s with fir := f } : State).Inv := by
  obtain ⟨h1, h2, h3, a, b, c, d, e, e2, f', g⟩ := h
  exact ⟨h1, h2, h3, a, b, c, d, e, e2, by simpa [hf] using f', g⟩

/-- A clamped trim is a legal one (R29, R242). -/
theorem trimOk_clampTrim (v : Sample) : trimOk (clampTrim v) := by
  unfold trimOk clampTrim
  rw [BitVec.toInt_ofInt, Int.bmod_eq_of_le] <;> simp only [clamp, trimLimit] <;> omega

theorem State.Inv.slcSwap (h : s.Inv) : s.slcSwap.Inv := by
  unfold State.slcSwap
  split
  · obtain ⟨h1, h2, h3, a, b, c, d, e, e2, g⟩ := h
    refine ⟨h1, h2, h3, a, b, c, d, ?_, e2, g⟩
    show (if _ then _ else _ : List Byte).length = _
    split
    · simp
    · exact e2
  · exact h

theorem State.Inv.advancePo (h : s.Inv) : s.advancePo.Inv := by
  obtain ⟨w', rs', ⟨p1, p2, p3, p4, p5⟩, r'⟩ := h
  unfold State.advancePo
  split
  · exact ⟨w', rs', ⟨p1, p2, .inl rfl, fun _ => rfl, fun h => absurd h (by simp)⟩, r'⟩
  · rename_i hn
    refine ⟨w', rs', ⟨p1, p2, p3, fun h => ?_, fun h => ?_⟩, r'⟩
    · simp at h hn; omega
    · simp at h hn ⊢; omega

end Sys2Proof.Machine
end

