-- ==== Sys2Proof/Laws/PerInstr.lean ====
section
/-! SUPPORT. Statements about each operation as syntax, one lemma per constructor. -/

namespace Sys2Proof.Laws.EncodingShape

open Sys2Proof

/-- How an operation is written (R81, R84, R97, R98): a host command as a frame whose opcode is in 0x01..0x0B, whose `len`
is the number of its operand bytes, and which ends with them; an internal operation as a word whose code is in 0x80..0x94. -/
def Statement (i : Instr) : Prop :=
  i.wf = true →
    (∃ op ops, 0x01 ≤ op ∧ op ≤ 0x0B ∧ ops.length ≤ 255
        ∧ encode i = .frame (BitVec.ofNat 8 op :: BitVec.ofNat 8 ops.length :: ops))
      ∨ ∃ code field ops, 0x80 ≤ code ∧ code ≤ 0x94 ∧ field ≤ 4
        ∧ encode i = .word (BitVec.ofNat 16 (code * 256 + field)) ops

/-- A frame of opcode `op`. -/
theorem frame (i : Instr) (op : Nat) (ops : List Byte) (h1 : 0x01 ≤ op) (h2 : op ≤ 0x0B) (hw : i.wf = operandsFit ops)
    (he : encode i = frameOf (BitVec.ofNat 8 op) ops) : Statement i := fun h =>
  .inl ⟨op, ops, h1, h2, by rw [hw] at h; simpa [operandsFit] using h, he⟩

/-- A word of code `code`. -/
theorem word (i : Instr) (code field : Nat) (ops : List Word16) (h1 : 0x80 ≤ code) (h2 : code ≤ 0x94) (h3 : field ≤ 4)
    (he : encode i = wordOf code field ops) : Statement i := fun _ => .inr ⟨code, field, ops, h1, h2, h3, he⟩

theorem ring_code_le (q : RingId) : q.code ≤ 4 := by rcases q with q | k <;> [cases q; cases k] <;> decide

theorem writeSlotData (p : List Byte) : Statement (.writeSlotData p) :=
  frame _ 1 p (by omega) (by omega) rfl rfl
theorem writeShortLc (p : List Byte) : Statement (.writeShortLc p) :=
  frame _ 2 p (by omega) (by omega) rfl rfl
theorem writeAbort (p : List Byte) : Statement (.writeAbort p) :=
  frame _ 3 p (by omega) (by omega) rfl rfl
theorem start (p : List Byte) : Statement (.start p) :=
  frame _ 4 p (by omega) (by omega) rfl rfl
theorem setCal (p : List Byte) : Statement (.setCal p) :=
  frame _ 5 p (by omega) (by omega) rfl rfl
theorem setSymlvl (p : List Byte) : Statement (.setSymlvl p) :=
  frame _ 6 p (by omega) (by omega) rfl rfl
theorem setAtSupp (p : List Byte) : Statement (.setAtSupp p) :=
  frame _ 7 p (by omega) (by omega) rfl rfl
theorem setColorCode (p : List Byte) : Statement (.setColorCode p) :=
  frame _ 8 p (by omega) (by omega) rfl rfl
theorem readFreeSpace (p : List Byte) : Statement (.readFreeSpace p) :=
  frame _ 9 p (by omega) (by omega) rfl rfl
theorem readFrameCount (p : List Byte) : Statement (.readFrameCount p) :=
  frame _ 10 p (by omega) (by omega) rfl rfl
theorem pollOverflow (p : List Byte) : Statement (.pollOverflow p) :=
  frame _ 11 p (by omega) (by omega) rfl rfl
theorem buildData (k : Slot) : Statement (.buildData k) :=
  word _ 0x80 k.index [] (by omega) (by omega) (by cases k <;> decide) rfl
theorem buildCach (tx rx : Slot) : Statement (.buildCach tx rx) :=
  word _ 0x81 (tx.index * 2 + rx.index) [] (by omega) (by omega) (by cases tx <;> cases rx <;> decide) rfl
theorem buildCal : Statement .buildCal := word _ 0x82 0 [] (by omega) (by omega) (by omega) rfl
theorem emitByte : Statement .emitByte := word _ 0x83 0 [] (by omega) (by omega) (by omega) rfl
theorem modulate (b : Byte) (t : Tag) : Statement (.modulate b t) := word _ 0x84 0 _ (by omega) (by omega) (by omega) rfl
theorem firStep (x : Sample) : Statement (.firStep x) := word _ 0x85 0 _ (by omega) (by omega) (by omega) rfl
theorem symbolMap (d : BitVec 2) : Statement (.symbolMap d) := word _ 0x86 0 _ (by omega) (by omega) (by omega) rfl
theorem ringCapacity (q : RingId) : Statement (.ringCapacity q) :=
  word _ 0x88 q.code [] (by omega) (by omega) (ring_code_le q) rfl
theorem ringFree (q : RingId) : Statement (.ringFree q) :=
  word _ 0x89 q.code [] (by omega) (by omega) (ring_code_le q) rfl
theorem ringOccupied (q : RingId) : Statement (.ringOccupied q) :=
  word _ 0x8A q.code [] (by omega) (by omega) (ring_code_le q) rfl
theorem ringPut (arg : PutArg) : Statement (.ringPut arg) :=
  word _ 0x8B arg.ring.code arg.words (by omega) (by omega) (ring_code_le _) rfl
theorem ringGet (q : RingId) : Statement (.ringGet q) :=
  word _ 0x8C q.code [] (by omega) (by omega) (ring_code_le q) rfl
theorem ringReset (q : RingId) : Statement (.ringReset q) :=
  word _ 0x8D q.code [] (by omega) (by omega) (ring_code_le q) rfl
theorem ringTakeOverflow (q : RingId) : Statement (.ringTakeOverflow q) :=
  word _ 0x8E q.code [] (by omega) (by omega) (ring_code_le q) rfl
theorem ioSpace : Statement .ioSpace := word _ 0x90 0 [] (by omega) (by omega) (by omega) rfl
theorem ioIsTransmitting : Statement .ioIsTransmitting := word _ 0x91 0 [] (by omega) (by omega) (by omega) rfl
theorem ioSetTransmit (b : Bool) : Statement (.ioSetTransmit b) :=
  word _ 0x92 b.toNat [] (by omega) (by omega) (by cases b <;> decide) rfl
theorem ioPush (mode : Byte) (batch : List Item) : Statement (.ioPush mode batch) :=
  word _ 0x93 0 _ (by omega) (by omega) (by omega) rfl
theorem ioService (rx rssi : Word16) : Statement (.ioService rx rssi) :=
  word _ 0x94 0 _ (by omega) (by omega) (by omega) rfl

end Sys2Proof.Laws.EncodingShape
end

