-- ==== Sys2Proof/Laws/Step.lean ====
section
/-! SUPPORT. What one step can do, said once (spec/00_scope.md R5, spec/41_framing.md R150, spec/44_host_commands.md
R240). -/

namespace Sys2Proof.Machine

/-- Under a well-formed configuration a step is the next turn. -/
theorem step_of_wf {s : State} (h : s.cfg.wf = true) : step s = runTurn s.nextTurn.1 s.nextTurn.2 := by
  simp [step, runStep, h]

/-- Taking a turn off the schedule changes the schedule's own fields alone. -/
theorem State.nextTurn_state (s : State) : ∃ turns n, s.nextTurn.2 = { s with sched := turns, freeCount := n } := by
  unfold State.nextTurn
  split <;> exact ⟨_, _, rfl⟩

/-- Everything a step that answers a next state can have done: nothing but to move bytes and turns, or one operation, which
was issued, is a host command, or is one its agent takes. -/
theorem step_next {s t : State} (h : step s = .next t) :
    s.cfg.wf = true ∧ ∃ turns n,
      (∃ bytes out, t = { s with sched := turns, freeCount := n, cmdIn := bytes, rspOut := out })
      ∨ ∃ bytes i, exec i { s with sched := turns, freeCount := n, cmdIn := bytes } = .next t
          ∧ ((∃ w operands, s.nextTurn.1 = .issue w operands)
            ∨ (∃ op ops, hostCommand op ops = some i)
            ∨ (∃ rx rssi, i = .ioService rx rssi)
            ∨ i = .ringGet (.sample .rxq)
            ∨ i = .ringGet (.sample .rssiq)
            ∨ State.sequencerStep { s with sched := turns, freeCount := n, cmdIn := bytes } = some i) := by
  unfold step runStep at h
  split at h
  swap
  · simp at h
  rename_i hw
  refine ⟨hw, s.nextTurn.2.sched, s.nextTurn.2.freeCount, ?_⟩
  have hn : s.nextTurn.2 = { s with sched := s.nextTurn.2.sched, freeCount := s.nextTurn.2.freeCount } := by
    unfold State.nextTurn; split <;> rfl
  generalize s.nextTurn.2.sched = sch at *
  generalize s.nextTurn.2.freeCount = fc at *
  rw [hn] at h
  cases ht : s.nextTurn.1 with
  | issue w o =>
    rw [ht] at h
    simp only [runTurn] at h
    split at h
    · exact .inr ⟨s.cmdIn, _, h, .inl ⟨w, o, rfl⟩⟩
    · simp at h
  | agent a =>
    rw [ht] at h
    cases a with
    | arrive b =>
      simp only [runTurn, runAgent, Host.Outcome.next.injEq] at h
      exact .inl ⟨_, _, h.symm⟩
    | command =>
      simp only [runTurn, runAgent, runCommand] at h
      split at h
      · exact .inl ⟨_, _, (Host.Outcome.next.inj h).symm⟩
      · exact .inl ⟨_, _, (Host.Outcome.next.inj h).symm⟩
      · rename_i i rest hr
        refine .inr ⟨rest, i, h, .inr (.inl ?_)⟩
        unfold readFrame at hr
        split at hr
        · split at hr
          · simp at hr
          · split at hr
            · simp at hr; exact ⟨_, _, by rw [← hr.1]; assumption⟩
            · simp at hr
        · simp at hr
    | sequencer =>
      simp only [runTurn, runAgent, runSequencer] at h
      split at h
      · exact .inl ⟨_, _, (Host.Outcome.next.inj h).symm⟩
      · exact .inr ⟨s.cmdIn, _, h, .inr (.inr (.inr (.inr (.inr (by assumption)))))⟩
    | service rx rssi => exact .inr ⟨s.cmdIn, .ioService rx rssi, h, .inr (.inr (.inl ⟨_, _, rfl⟩))⟩
    | receive q => 
      cases q
      · exact .inr ⟨s.cmdIn, .ringGet (.sample .rxq), h, .inr (.inr (.inr (.inl rfl)))⟩
      · exact .inr ⟨s.cmdIn, .ringGet (.sample .rssiq), h, .inr (.inr (.inr (.inr (.inl rfl))))⟩

end Sys2Proof.Machine
end

