-- ==== Sys2Proof/Machine/Assembler.lean ====
section
/-! DEFINITION. The assembler of spec/30_encoding.md R102 and the pseudo-instructions of R103: one line of text to the
frame or the turn it stands for. What R102 leaves open of the grammar is the model's choice, each point of it listed in log
25 and marked at its definition. -/

namespace Sys2Proof.Machine

/-- What a line stands for (R102). -/
inductive AsmLine where
  /-- an empty or comment line -/
  | blank
  /-- a host command: its format-H frame -/
  | host (frame : List Byte)
  /-- `@main MNEMONIC …` -/
  | main (word : Word16) (operands : List Word16)
  /-- `@svc IO_SERVICE rx=<v>[, rssi=<v>]` -/
  | svc (rx rssi : Word16)
  /-- `@rx RING_GET RXQ`, `@rx RING_GET RSSIQ` -/
  | receive (q : InboundRing)
  deriving DecidableEq, Repr

/-- The turns of a line: a host frame arrives and is executed, one turn each (DESIGN CHOICE, log 25); a step is its agent's. -/
def AsmLine.turns : AsmLine → List Turn
  | .blank => []
  | .host frame => [.agent (.arrive frame), .agent .command]
  | .main word operands => [.issue word operands]
  | .svc rx rssi => [.agent (.service rx rssi)]
  | .receive q => [.agent (.receive q)]

/-! ## Text -/

/-- Space or tab, the blanks of a line (DESIGN CHOICE, log 25). -/
def isBlankChar (c : Char) : Bool := c == ' ' || c == '\t'

/-- Drop blanks at both ends. -/
def trimChars (cs : List Char) : List Char :=
  ((cs.dropWhile isBlankChar).reverse.dropWhile isBlankChar).reverse

/-- Split at every separator; the first piece is the text before the first one. -/
def splitChars (sep : Char) : List Char → List (List Char)
  | [] => [[]]
  | c :: cs =>
    if c = sep then [] :: splitChars sep cs
    else
      match splitChars sep cs with
      | [] => [[c]]
      | piece :: pieces => (c :: piece) :: pieces

/-- The text before a `;` comment (R102). -/
def stripComment (cs : List Char) : List Char := cs.takeWhile (· ≠ ';')

/-- The value of a digit, up to hexadecimal, in either case (DESIGN CHOICE, log 25). -/
def digitValue (c : Char) : Option Nat :=
  if '0' ≤ c ∧ c ≤ '9' then some (c.toNat - 48)
  else if 'A' ≤ c ∧ c ≤ 'F' then some (c.toNat - 55)
  else if 'a' ≤ c ∧ c ≤ 'f' then some (c.toNat - 87)
  else none

/-- Digits in a base, most significant first, onto a value already read. -/
def readDigits (base : Nat) : Nat → List Char → Option Nat
  | acc, [] => some acc
  | acc, c :: cs =>
    match digitValue c with
    | some d => if d < base then readDigits base (acc * base + d) cs else none
    | none => none

/-- An unsigned number: decimal, or hex with `0x` (R102). -/
def readUnsigned : List Char → Option Nat
  | '0' :: 'x' :: c :: cs => readDigits 16 0 (c :: cs)
  | c :: cs => readDigits 10 0 (c :: cs)
  | [] => none

/-- A number, with a minus sign where it is negative, decimal or hex alike (DESIGN CHOICE, log 25). -/
def readNumber : List Char → Option Int
  | '-' :: cs => (readUnsigned cs).map fun n => -(n : Int)
  | cs => (readUnsigned cs).map fun n => (n : Int)

/-- Bytes written as two hex digits each. -/
def readHexBytes : List Char → Option (List Byte)
  | [] => some []
  | [_] => none
  | h :: l :: cs =>
    match readDigits 16 0 [h, l], readHexBytes cs with
    | some n, some bytes => some (BitVec.ofNat 8 n :: bytes)
    | _, _ => none

/-- The double quote that closes a byte string. -/
def quoteChar : Char := Char.ofNat 34

/-- One operand: a number, a byte string `h"…"`, a name, or `key=number` (R102). -/
inductive AsmOperand where
  | num (v : Int)
  | bytes (b : List Byte)
  | name (n : List Char)
  | keyed (key : List Char) (v : Int)
  deriving DecidableEq, Repr

/-- Read a byte string from behind its `h`. -/
def readByteString (cs : List Char) : Option AsmOperand :=
  match cs, cs.reverse with
  | q :: _ :: _, q' :: _ =>
    if q = quoteChar ∧ q' = quoteChar then (readHexBytes (cs.tail.reverse.tail.reverse)).map .bytes else none
  | _, _ => none

/-- Read one operand. -/
def readOperand (cs : List Char) : Option AsmOperand :=
  match splitChars '=' cs with
  | [key, value] => (readNumber (trimChars value)).map (.keyed (trimChars key))
  | [_] =>
    match cs with
    | 'h' :: rest => readByteString rest
    | [] => none
    | c :: _ =>
      if c = '-' ∨ (digitValue c).any (· < 10) then (readNumber cs).map .num else some (.name cs)
  | _ => none

/-- Read the operands between commas; no text means none. -/
def readOperands (cs : List Char) : Option (List AsmOperand) :=
  if trimChars cs = [] then some []
  else (splitChars ',' cs).mapM fun piece => readOperand (trimChars piece)

/-! ## Host lines -/

/-- The opcode of a format-H mnemonic, and whether its number operands are `s16` (R84, R83). -/
def hostMnemonic (m : List Char) : Option (Byte × Bool) :=
  if m = "WRITE_SLOT_DATA".toList then some (0x01, false)
  else if m = "WRITE_SHORT_LC".toList then some (0x02, false)
  else if m = "WRITE_ABORT".toList then some (0x03, false)
  else if m = "START".toList then some (0x04, false)
  else if m = "SET_CAL".toList then some (0x05, false)
  else if m = "SET_SYMLVL".toList then some (0x06, true)
  else if m = "SET_AT_SUPP".toList then some (0x07, false)
  else if m = "SET_COLOR_CODE".toList then some (0x08, false)
  else if m = "READ_FREE_SPACE".toList then some (0x09, false)
  else if m = "READ_FRAME_COUNT".toList then some (0x0A, false)
  else if m = "POLL_OVERFLOW".toList then some (0x0B, false)
  else none

/-- The bytes of one operand in frame order: a byte string verbatim, an `s16` big-endian, any other number one byte
(R83). A number outside -32768..32767 for an `s16` (so `0xFFFB` for -5), or outside 0..255 for a byte, is an error, and a byte
string may stand for any operand (DESIGN CHOICE, log 25). -/
def hostOperandBytes (wide : Bool) : AsmOperand → Option (List Byte)
  | .bytes b => some b
  | .num v =>
    if wide then
      if -32768 ≤ v ∧ v ≤ 32767 then
        some [(BitVec.ofInt 16 v).extractLsb' 8 8, (BitVec.ofInt 16 v).extractLsb' 0 8]
      else none
    else if 0 ≤ v ∧ v ≤ 255 then some [BitVec.ofInt 8 v]
    else none
  | _ => none

/-- A host line: the assembler computes `len` (R102). The number of operands is not checked here, a frame of the wrong
length being the command's to answer; more than 255 operand bytes are an error (DESIGN CHOICE, log 25). -/
def assembleHost (opcode : Byte) (wide : Bool) (operands : List AsmOperand) : Option AsmLine :=
  match operands.mapM (hostOperandBytes wide) with
  | some pieces =>
    if pieces.flatten.length ≤ 255 then
      some (.host (opcode :: BitVec.ofNat 8 pieces.flatten.length :: pieces.flatten))
    else none
  | none => none

/-- The pseudo-instructions (R103). -/
inductive Pseudo where
  | go
  | stop
  | calOn
  | calOff
  | levelsNominal
  | atNormal
  deriving DecidableEq, Repr

/-- Each expands to exactly one host command (R103). -/
def Pseudo.expand : Pseudo → Instr
  | .go => .start [1]
  | .stop => .start [0]
  | .calOn => .setCal [1]
  | .calOff => .setCal [0]
  | .levelsNominal => .setSymlvl [0, 0, 0, 0]
  | .atNormal => .setAtSupp [0]

/-- The pseudo-instruction with a name. -/
def pseudoOf (m : List Char) : Option Pseudo :=
  if m = "GO".toList then some .go
  else if m = "STOP".toList then some .stop
  else if m = "CAL_ON".toList then some .calOn
  else if m = "CAL_OFF".toList then some .calOff
  else if m = "LEVELS_NOMINAL".toList then some .levelsNominal
  else if m = "AT_NORMAL".toList then some .atNormal
  else none

/-- The line an encoded operation stands for. -/
def lineOf : Encoded → AsmLine
  | .frame bytes => .host bytes
  | .word w operands => .main w operands

/-! ## Step lines -/

/-- Where an operation word's field comes from: nowhere (0), a number, the pair tx, rx, or a ring's name (R98). -/
inductive FieldForm where
  | zero
  | number
  | pair
  | ring
  deriving DecidableEq, Repr

/-- The operation code of a format-I mnemonic and its field's form (R98). -/
def wordMnemonic (m : List Char) : Option (Nat × FieldForm) :=
  if m = "BUILD_DATA".toList then some (0x80, .number)
  else if m = "BUILD_CACH".toList then some (0x81, .pair)
  else if m = "BUILD_CAL".toList then some (0x82, .zero)
  else if m = "EMIT_BYTE".toList then some (0x83, .zero)
  else if m = "MODULATE".toList then some (0x84, .zero)
  else if m = "FIR_STEP".toList then some (0x85, .zero)
  else if m = "SYMBOL_MAP".toList then some (0x86, .zero)
  else if m = "RING_CAPACITY".toList then some (0x88, .ring)
  else if m = "RING_FREE".toList then some (0x89, .ring)
  else if m = "RING_OCCUPIED".toList then some (0x8A, .ring)
  else if m = "RING_PUT".toList then some (0x8B, .ring)
  else if m = "RING_GET".toList then some (0x8C, .ring)
  else if m = "RING_RESET".toList then some (0x8D, .ring)
  else if m = "RING_TAKE_OVERFLOW".toList then some (0x8E, .ring)
  else if m = "IO_SPACE".toList then some (0x90, .zero)
  else if m = "IO_IS_TRANSMITTING".toList then some (0x91, .zero)
  else if m = "IO_SET_TRANSMIT".toList then some (0x92, .number)
  else if m = "IO_PUSH".toList then some (0x93, .zero)
  else none

/-- The rings by name (R37; `FIFO0` and `FIFO1` as R247 writes them). -/
def ringNamed (n : List Char) : Option RingId :=
  if n = "TXQ".toList then some (.sample .txq)
  else if n = "RXQ".toList then some (.sample .rxq)
  else if n = "RSSIQ".toList then some (.sample .rssiq)
  else if n = "FIFO0".toList then some (.fifo .slot0)
  else if n = "FIFO1".toList then some (.fifo .slot1)
  else none

/-- A number as a 16-bit operand of a step, a negative one in two's complement; outside -32768..65535 it is an error (DESIGN
CHOICE, log 25). -/
def wordNumber (v : Int) : Option Word16 :=
  if -32768 ≤ v ∧ v ≤ 65535 then some (BitVec.ofInt 16 v) else none

/-- The code points with a name: the tags (R100) and the protocol mode (R101). -/
def codePointNamed (n : List Char) : Option Word16 :=
  if n = "NONE".toList then some (Tag.none.code.setWidth 16)
  else if n = "SLOT1".toList then some (Tag.slot1.code.setWidth 16)
  else if n = "SLOT2".toList then some (Tag.slot2.code.setWidth 16)
  else if n = "MODE_DMR".toList then some (modeDmr.setWidth 16)
  else none

/-- An operand word of an `@main` line: a number, or the name of a code point, which stands for its number (DESIGN CHOICE, log
25: R102 does not say how a step line writes a tag or a mode). -/
def wordOperand : AsmOperand → Option Word16
  | .num v => wordNumber v
  | .name n => codePointNamed n
  | _ => none

/-- The field a form takes from the operands, and the operands behind it. A ring is written by its name or by its id
(DESIGN CHOICE, log 25: R102 shows the name alone, and only for a step of the receive consumer); a slot, a direction pair and
a bit are numbers, as the examples of spec/95_test_vectors.md write them. -/
def readField (form : FieldForm) (operands : List AsmOperand) : Option (Nat × List AsmOperand) :=
  match form, operands with
  | .zero, rest => some (0, rest)
  | .number, .num v :: rest => if 0 ≤ v ∧ v ≤ 255 then some (v.toNat, rest) else none
  | .pair, .num t :: .num r :: rest =>
    if 0 ≤ t ∧ t ≤ 1 ∧ 0 ≤ r ∧ r ≤ 1 then some (2 * t.toNat + r.toNat, rest) else none
  | .ring, .name n :: rest => (ringNamed n).map fun q => (q.code, rest)
  | .ring, .num v :: rest => if 0 ≤ v ∧ v ≤ 4 then some (v.toNat, rest) else none
  | _, _ => none

/-- An `@main` line, of an operation that a word and its operands name (R97); operand words stand in the order of log 6. Any
operation of R98 but IO_SERVICE may be written so, and one whose operands do not decode is an error (DESIGN CHOICE, log 25). -/
def assembleMain (code : Nat) (form : FieldForm) (operands : List AsmOperand) : Option AsmLine :=
  match readField form operands with
  | none => none
  | some (field, rest) =>
    match rest.mapM wordOperand with
    | none => none
    | some words =>
      match decodeFields code field words with
      | .ok _ => some (.main (BitVec.ofNat 16 (code * 256 + field)) words)
      | .error _ => none

/-- An `@svc` line: `rx`, then `rssi`. A draw that is not written is 0 (DESIGN CHOICE, log 25). -/
def assembleService (operands : List AsmOperand) : Option AsmLine :=
  match operands with
  | [.keyed k v] =>
    if k = "rx".toList then (wordNumber v).map fun rx => .svc rx 0 else none
  | [.keyed k v, .keyed k' v'] =>
    if k = "rx".toList ∧ k' = "rssi".toList then
      match wordNumber v, wordNumber v' with
      | some rx, some rssi => some (.svc rx rssi)
      | _, _ => none
    else none
  | _ => none

/-- An `@rx` line: RING_GET of an inbound ring (R229). -/
def assembleReceive (operands : List AsmOperand) : Option AsmLine :=
  match operands with
  | [.name n] =>
    if n = "RXQ".toList then some (.receive .rxq)
    else if n = "RSSIQ".toList then some (.receive .rssiq)
    else none
  | _ => none

/-- The first word of a line, and the text behind it. -/
def splitWord (cs : List Char) : List Char × List Char :=
  (cs.takeWhile (fun c => !isBlankChar c), trimChars (cs.dropWhile (fun c => !isBlankChar c)))

/-- A host line or pseudo-instruction; a pseudo-instruction takes no operands (R103). -/
def assembleCommand (m : List Char) (operands : List AsmOperand) : Option AsmLine :=
  match pseudoOf m with
  | some p => if operands = [] then some (lineOf (encode p.expand)) else none
  | none =>
    match hostMnemonic m with
    | some (opcode, wide) => assembleHost opcode wide operands
    | none => none

/-- A step line of the agent named. -/
def assembleStep (agent m : List Char) (operands : List AsmOperand) : Option AsmLine :=
  if agent = "@main".toList then
    match wordMnemonic m with
    | some (code, form) => assembleMain code form operands
    | none => none
  else if agent = "@svc".toList then
    if m = "IO_SERVICE".toList then assembleService operands else none
  else if agent = "@rx".toList then
    if m = "RING_GET".toList then assembleReceive operands else none
  else none

/-- Assemble one line of text (R102); `none` where it is no line of the language. A line of blanks, or of a comment alone,
stands for nothing; mnemonics and names are read in capitals, as the spec writes them (DESIGN CHOICE, log 25). -/
def assembleChars (line : List Char) : Option AsmLine :=
  let text := trimChars (stripComment line)
  let first := splitWord text
  match first.1 with
  | [] => some .blank
  | '@' :: _ =>
    let second := splitWord first.2
    match readOperands second.2 with
    | some operands => assembleStep first.1 second.1 operands
    | none => none
  | _ =>
    match readOperands first.2 with
    | some operands => assembleCommand first.1 operands
    | none => none

/-- Assemble one line of text. -/
def assemble (line : String) : Option AsmLine := assembleChars line.toList

/-- The schedule of a program: its lines' turns in order; `none` where a line does not assemble. -/
def assembleProgram (lines : List String) : Option (List Turn) :=
  (lines.mapM assemble).map fun ls => ls.flatMap AsmLine.turns

end Sys2Proof.Machine
end

