-- ==== Sys2Proof/Tests/Slice0.lean ====
section
/-! SUPPORT. Tests on small states, with expected values from spec/95_test_vectors.md (the vector's id stands at each
test) or written out by hand from the encodings of spec/30_encoding.md. -/

namespace Sys2Proof.Tests

open Sys2Proof Sys2Proof.Machine Sys2Proof.Claims

/-! ## Helpers -/

/-- The test configuration TC-P (spec/95_test_vectors.md §0), its encoder known at the codes the vectors use. -/
def tcP : Config :=
  { Config.reference with
    burstBytes := 4, osr := 2, phaseLen := 2, rrcCoef := [16384, 8192, 32767, 16384]
    levelA := 300, levelB := 100, levelC := -100, levelD := -300
    startupCount := 2, abortLimit := 1, nTx := 40, nRx := 2, nRssi := 2, nFifo := 8
    idleBase := [0x00, 0x11, 0x22, 0x33], idleDataType := 9
    encodeKnown := [⟨15, 9, [0x00, 0x11, 0x22, 0x33], [0xF9, 0x11, 0x22, 0x33]⟩]
    calBurst := [0x5F, 0x5F, 0x5F, 0x5F] }

/-- Reset under TC-P. -/
def s0 : State := State.resetWith tcP

/-- What `f` reads in the next state, if there is one. -/
def after {α : Type} (o : Host.Outcome State Fault Refusal) (f : State → α) : Option α :=
  match o with
  | .next t => some (f t)
  | _ => none

/-- The fault, if there is one. -/
def faultOf (o : Host.Outcome State Fault Refusal) : Option Fault :=
  match o with
  | .fault r => some r
  | _ => none

/-- The refusal, if there is one. -/
def refusalOf (o : Host.Outcome State Fault Refusal) : Option Refusal :=
  match o with
  | .refused r => some r
  | _ => none

/-- What a decoder answers, as an Option. -/
def decoded (e : Encoded) : Option Instr :=
  match decode e with
  | .ok i => some i
  | .error _ => none

/-- Why a decoder rejects. -/
def rejected (e : Encoded) : Option Reject :=
  match decode e with
  | .ok _ => none
  | .error r => some r

/-- A FIFO of capacity 8 holding the given bytes from index 0. -/
def fifoOf (bytes : List Byte) : RingBuf Byte := (RingBuf.fresh 8 0).putAll 8 bytes

/-! ## Well-formedness: one ill-formed term for each check -/

theorem test_wf_refuses_long_operands :
    ([Instr.writeSlotData, .writeShortLc, .writeAbort, .start, .setCal, .setSymlvl, .setAtSupp, .setColorCode,
      .readFreeSpace, .readFrameCount, .pollOverflow].all fun f => !(f (List.replicate 256 0)).wf) = true := by
  decide +kernel
theorem test_wf_refuses_equal_slots : (Instr.buildCach .slot0 .slot0).wf = false := by decide
theorem test_wf_accepts_cach : (Instr.buildCach .slot1 .slot0).wf = true := by decide
theorem test_cfg_reference_wf : Config.reference.wf = true := by decide
theorem test_cfg_tcP_wf : tcP.wf = true := by decide
/-- R7 clause by clause. -/
theorem test_cfg_clause1 : ({ tcP with osr := 0 }).wf = false := by decide
theorem test_cfg_clause2 : ({ tcP with rrcCoef := [1, 2, 3] }).wf = false := by decide
theorem test_cfg_clause3 : ({ tcP with levelD := -32640 }).wf = false := by decide
theorem test_cfg_clause4 : ({ tcP with nTx := 8 }).wf = false := by decide
theorem test_cfg_clause5 : ({ tcP with nFifo := 3 }).wf = false := by decide
theorem test_cfg_clause6 :
    ({ tcP with burstBytes := 2, idleBase := [0, 0], calBurst := [0, 0] }).wf = false := by decide
theorem test_cfg_clause7 :
    ({ tcP with slcInterleave := 0 :: slcInterleaveDefault.tail }).wf = false := by decide
theorem test_cfg_clause8 : ({ tcP with encodeKnown := [⟨0, 9, [1, 2], [1]⟩] }).wf = false := by decide
/-- Clause 8 asks for lengths of the function: a row that an earlier row hides does not count. -/
theorem test_cfg_clause8_hidden_row :
    ({ tcP with encodeKnown := [⟨0, 9, [1], [2]⟩, ⟨0, 9, [1], [2, 3]⟩] }).wf = true := by decide
theorem test_cfg_clause9 : ({ tcP with abortLimit := 0 }).wf = false := by decide
theorem test_step_refuses_ill_formed :
    refusalOf (step { s0 with cfg := { tcP with nTx := 8 } }) = some .illFormedConfiguration := by decide

/-! ## Decoding: words written out from R84-R99 -/

theorem test_decode_writeSlotData :
    decoded (.frame [0x01, 0x05, 0x01, 0xA1, 0xA2, 0xA3, 0xA4]) = some (.writeSlotData [1, 0xA1, 0xA2, 0xA3, 0xA4]) := by
  decide
theorem test_decode_writeShortLc :
    decoded (.frame [0x02, 0x09, 0xFF, 0xFF, 0xFF, 0xFF, 0xFF, 0xFF, 0xFF, 0xFF, 0xF0])
      = some (.writeShortLc [0xFF, 0xFF, 0xFF, 0xFF, 0xFF, 0xFF, 0xFF, 0xFF, 0xF0]) := by decide
theorem test_decode_writeAbort : decoded (.frame [0x03, 0x01, 0x01]) = some (.writeAbort [1]) := by decide
theorem test_decode_start : decoded (.frame [0x04, 0x01, 0x01]) = some (.start [1]) := by decide
theorem test_decode_setCal : decoded (.frame [0x05, 0x01, 0x00]) = some (.setCal [0]) := by decide
theorem test_decode_setSymlvl :
    decoded (.frame [0x06, 0x04, 0x00, 0x14, 0xFF, 0xFB]) = some (.setSymlvl [0x00, 0x14, 0xFF, 0xFB]) := by decide
theorem test_decode_setAtSupp : decoded (.frame [0x07, 0x01, 0x03]) = some (.setAtSupp [3]) := by decide
theorem test_decode_setColorCode : decoded (.frame [0x08, 0x01, 0x0F]) = some (.setColorCode [15]) := by decide
theorem test_decode_readFreeSpace : decoded (.frame [0x09, 0x01, 0x02]) = some (.readFreeSpace [2]) := by decide
theorem test_decode_readFrameCount : decoded (.frame [0x0A, 0x00]) = some (.readFrameCount []) := by decide
theorem test_decode_pollOverflow : decoded (.frame [0x0B, 0x01, 0x04]) = some (.pollOverflow [4]) := by decide
theorem test_decode_buildData : decoded (.word 0x8001 []) = some (.buildData .slot1) := by decide
theorem test_decode_buildCach : decoded (.word 0x8102 []) = some (.buildCach .slot1 .slot0) := by decide
theorem test_decode_buildCach_rx1 : decoded (.word 0x8101 []) = some (.buildCach .slot0 .slot1) := by decide
theorem test_decode_buildCal : decoded (.word 0x8200 []) = some .buildCal := by decide
theorem test_decode_emitByte : decoded (.word 0x8300 []) = some .emitByte := by decide
theorem test_decode_modulate : decoded (.word 0x8400 [0xB4, 0x08]) = some (.modulate 0xB4 .slot1) := by decide
theorem test_decode_firStep : decoded (.word 0x8500 [0xFED4]) = some (.firStep 0xFED4) := by decide
theorem test_decode_symbolMap : decoded (.word 0x8600 [2]) = some (.symbolMap 0b10#2) := by decide
theorem test_decode_ringCapacity : decoded (.word 0x8800 []) = some (.ringCapacity (.sample .txq)) := by decide
theorem test_decode_ringFree : decoded (.word 0x8903 []) = some (.ringFree (.fifo .slot0)) := by decide
theorem test_decode_ringOccupied : decoded (.word 0x8A04 []) = some (.ringOccupied (.fifo .slot1)) := by decide
theorem test_decode_ringPut : decoded (.word 0x8B02 [40, 0]) = some (.ringPut (.sample .rssiq ⟨40, .none⟩)) := by decide
theorem test_decode_ringPut_fifo : decoded (.word 0x8B03 [0xA1]) = some (.ringPut (.fifo .slot0 0xA1)) := by decide
theorem test_decode_ringGet : decoded (.word 0x8C01 []) = some (.ringGet (.sample .rxq)) := by decide
theorem test_decode_ringReset : decoded (.word 0x8D04 []) = some (.ringReset (.fifo .slot1)) := by decide
theorem test_decode_ringTakeOverflow :
    decoded (.word 0x8E01 []) = some (.ringTakeOverflow (.sample .rxq)) := by decide
theorem test_decode_ioSpace : decoded (.word 0x9000 []) = some .ioSpace := by decide
theorem test_decode_ioIsTransmitting : decoded (.word 0x9100 []) = some .ioIsTransmitting := by decide
theorem test_decode_ioSetTransmit : decoded (.word 0x9201 []) = some (.ioSetTransmit true) := by decide
theorem test_decode_ioPush :
    decoded (.word 0x9300 [1, 7, 0, 9, 8]) = some (.ioPush 1 [⟨7, .none⟩, ⟨9, .slot1⟩]) := by decide
theorem test_decode_ioService : decoded (.word 0x9400 [7, 40]) = some (.ioService 7 40) := by decide
/-- Words that name no operation (R97, R98). -/
theorem test_reject_words :
    [rejected (.word 0x8100 []), rejected (.word 0x8103 []), rejected (.word 0x8002 []), rejected (.word 0x8805 []),
      rejected (.word 0x8201 []), rejected (.word 0x9202 [])] = List.replicate 6 (some .illegalField) := by decide
theorem test_reject_codes :
    [rejected (.word 0x8700 []), rejected (.word 0x8F00 []), rejected (.word 0x9500 []), rejected (.word 0x0401 [])]
      = List.replicate 4 (some .unlistedCode) := by decide
theorem test_reject_operands :
    [rejected (.word 0x8400 [0x100, 0]), rejected (.word 0x8400 [0, 1]), rejected (.word 0x8600 [4]),
      rejected (.word 0x8B03 [0x100]), rejected (.word 0x9300 [1, 7])] = List.replicate 5 (some .illegalOperands) := by
  decide
theorem test_reject_frames :
    [rejected (.frame [0x0C, 0x00]), rejected (.frame [0x80, 0x00]), rejected (.frame [0x04, 0x01]),
      rejected (.frame [0x0A, 0x00, 0x0A])]
      = [some (.reservedOpcode 0x0C), some (.reservedOpcode 0x80), some .incompleteFrame, some .trailingBytes] := by
  decide
/-- Rows of the opcode table as numbered there, operand bits zero. -/
theorem test_decodeTableWord :
    [decodeTableWord 16 0x0122, decodeTableWord 16 0x0A00, decodeTableWord 16 0x8400, decodeTableWord 16 0x8B00]
      = [some (.writeSlotData (List.replicate 34 0)), some (.readFrameCount []), some (.modulate 0 .none),
        some (.ringPut (.sample .txq ⟨0, .none⟩))] := by decide

/-! ## Ring operations (TC-R: capacity 4) -/

/-- V-R3, V-R4: three puts fill the ring; a fourth fails and latches overflow. -/
theorem test_ring_put_fills :
    let r := ((RingBuf.fresh 4 (0 : Byte)).putAll 4 [1, 2, 3, 4])
    (r.head, r.tail, r.full, r.overflow, r.free 4, r.occupied 4) = (0, 0, true, false, 0, 4)
      ∧ (r.put 4 5).2 = false ∧ (r.put 4 5).1 = { r with overflow := true } := by decide
/-- V-R5, V-R6: FIFO order across the wrap, overflow untouched by gets. -/
theorem test_ring_get_wraps :
    let r : RingBuf Byte := { buf := [1, 2, 3, 4], head := 0, tail := 0, full := true, overflow := true }
    let r2 := ((r.get 4).2.put 4 5).1
    (r.get 4).1 = some 1 ∧ (r2.head, r2.tail, r2.full, r2.overflow) = (1, 1, true, true)
      ∧ r2.taken 4 5 = [2, 3, 4, 5] := by decide
/-- V-R9: free space for (3,1), (1,3), full, empty. -/
theorem test_ring_free :
    [(3, 1, false), (1, 3, false), (2, 2, true), (2, 2, false)].map
      (fun p => ({ buf := [1, 2, 3, 4], head := p.1, tail := p.2.1, full := p.2.2, overflow := false }
        : RingBuf Byte).free 4) = [2, 2, 0, 4] := by decide
/-- V-R10: capacity 1. -/
theorem test_ring_one :
    let r := ((RingBuf.fresh 1 (0 : Byte)).put 1 7).1
    r.full = true ∧ (r.put 1 8).2 = false ∧ (r.get 1).1 = some 7 ∧ ((r.get 1).2.get 1).1 = none := by decide
theorem test_ringCapacity :
    after (exec (.ringCapacity (.sample .rxq)) s0) (·.result) = some (.count 2) := by decide
theorem test_ringFree_exec : after (exec (.ringFree (.fifo .slot1)) s0) (·.result) = some (.count 8) := by decide
theorem test_ringOccupied_exec :
    after (exec (.ringOccupied (.fifo .slot0)) (s0.withFifo .slot0 (fifoOf [1, 2, 3]))) (·.result)
      = some (.count 3) := by decide
theorem test_ringPut_exec :
    after (exec (.ringPut (.sample .rxq ⟨7, .slot1⟩)) s0) (fun t => (t.result, t.rxq.items 2))
      = some (.flag true, [⟨7, .slot1⟩]) := by decide
theorem test_ringGet_exec :
    after (exec (.ringGet (.fifo .slot0)) (s0.withFifo .slot0 (fifoOf [0xA1, 0xA2])))
      (fun t => (t.result, t.fifo.slot0.items 8)) = some (.byte (some 0xA1), [0xA2]) := by decide
/-- V-R8. -/
theorem test_ringReset_exec :
    after (exec (.ringReset (.fifo .slot0)) (s0.withFifo .slot0 ⟨[1, 2, 3, 4, 5, 6, 7, 8], 3, 1, false, true⟩))
      (fun t => (t.fifo.slot0.items 8, t.fifo.slot0.overflow, t.ringFree (.fifo .slot0))) = some ([], false, 8) := by
  decide
/-- V-R7, V-R11: a take reads and clears. -/
theorem test_ringTakeOverflow_exec :
    after (exec (.ringTakeOverflow (.sample .rxq)) { s0 with rxq := { s0.rxq with overflow := true } })
      (fun t => (t.result, t.rxq.overflow)) = some (.flag true, false) := by decide

/-! ## CACH control bits, on an all-zero fragment: V-C1 to V-C12 -/

/-- The bytes of a fragment of zeros with the control bits of cursor `p`. -/
def cachZero (p : Byte) (accessType tc : Bool) : List Byte :=
  orControlBits CtrlPos.standard (controlBits accessType tc (ls1Bit p) (ls0Bit p)) [0, 0, 0]

theorem test_cach_cursor0 :
    [cachZero 0 false false, cachZero 0 false true, cachZero 0 true false, cachZero 0 true true]
      = [[0x00, 0x08, 0x22], [0x08, 0x0A, 0x00], [0x80, 0x0A, 0x20], [0x88, 0x08, 0x02]] := by decide
theorem test_cach_cursor3 :
    [cachZero 3 false false, cachZero 6 false true, cachZero 3 true false, cachZero 6 true true]
      = [[0x00, 0x8A, 0x02], [0x08, 0x88, 0x20], [0x80, 0x88, 0x00], [0x88, 0x8A, 0x22]] := by decide
theorem test_cach_cursor9 :
    [cachZero 9 false false, cachZero 9 false true, cachZero 9 true false, cachZero 9 true true]
      = [[0x00, 0x82, 0x20], [0x08, 0x80, 0x02], [0x80, 0x80, 0x22], [0x88, 0x82, 0x00]] := by decide

/-! ## Builds and the sequencer -/

/-- The pending payload of V-S1. -/
def slcOnes : List Byte := [0x77, 0x75, 0xDD, 0x77, 0x75, 0xDD, 0x77, 0x75, 0xDD, 0x77, 0x75, 0xDD]

/-- V-C13. -/
theorem test_buildCach_swap :
    after (exec (.buildCach .slot1 .slot0)
        ({ s0 with slcPending := slcOnes, txState := .cach2 }.withFifo .slot1 (fifoOf [1])))
      (fun t => ((t.frameCount, t.slcLive, t.poBuf.take 3), (t.poTag.take 3, t.poLen, t.cachPtr, t.txState)))
      = some ((1, slcOnes, [0x7F, 0x7F, 0xDD]), ([.none, .slot2, .none], 3, 3, .slot2)) := by decide
/-- V-C16: the counters wrap, and the wrapped frame count disables the access-type bit. -/
theorem test_buildCach_wraps :
    after (exec (.buildCach .slot0 .slot1)
        ({ s0 with txState := .cach1, frameCount := 0xFFFFFFFF, abortCount := ⟨0xFFFFFFFF, 5⟩ }.withFifo .slot1
          (fifoOf [1])))
      (fun t => (t.frameCount, t.abortCount, t.poBuf.take 3)) = some (0, ⟨0, 6⟩, [0x00, 0x08, 0x22]) := by decide
/-- V-C17, V-C18: the access-type bit under modes 0 to 3. -/
theorem test_accessType_modes :
    let s := { s0 with frameCount := 5, fifo := ⟨fifoOf [1], fifoOf [1]⟩ }
    ([0, 1, 2, 3].map fun m => ({ s with atMode := m }).accessType .slot0) = [true, false, true, false]
      ∧ ([0, 1, 2, 3].map fun m => ({ s with atMode := m }).accessType .slot1) = [true, true, false, false] := by decide

/-- The state of V-F3: eight bytes queued, an idle template, Slot1. -/
def sF3 : State :=
  { s0 with
    idle := some [0x19, 0x11, 0x22, 0x33], txState := .slot1, frameCount := 1, abortCount := ⟨1, 0⟩
    fifo := ⟨fifoOf [1, 2, 3, 4, 5, 6, 7, 8], fifoOf []⟩ }

/-- V-F3: the startup guard keeps the queue. -/
theorem test_buildData_startup :
    after (exec (.buildData .slot0) sF3) (fun t => (t.poBuf, t.ringOccupied (.fifo .slot0), t.txState))
      = some ([0x19, 0x11, 0x22, 0x33], 8, .cach2) := by decide
/-- V-F4: the data branch. -/
theorem test_buildData_data :
    after (exec (.buildData .slot0) { sF3 with frameCount := 2 }) (fun t => (t.poBuf, t.fifo.slot0.items 8, t.poLen))
      = some ([1, 2, 3, 4], [5, 6, 7, 8], 4) := by decide
/-- V-F5: an abort drops the queue. -/
theorem test_buildData_abort :
    after (exec (.buildData .slot0) { sF3 with frameCount := 2, abort := ⟨true, false⟩, abortCount := ⟨0, 0⟩ })
      (fun t => (t.poBuf, t.fifo.slot0.items 8, t.abort)) = some ([0x19, 0x11, 0x22, 0x33], [], ⟨false, false⟩) := by
  decide
/-- V-F2. -/
theorem test_buildData_fault :
    faultOf (exec (.buildData .slot0) { s0 with txState := .slot1 }) = some (.idleTemplateUnset .slot0) := by decide
/-- V-F7. -/
theorem test_buildCal :
    after (exec .buildCal { s0 with txState := .calibration }) (fun t => (t.poBuf, t.poLen, t.txState, t.frameCount))
      = some ([0x5F, 0x5F, 0x5F, 0x5F], 4, .calibration, 0) := by decide
/-- V-F9, V-F10: Idle is inert. -/
theorem test_sequencer_idle : ({ s0 with poLen := 3, poPtr := 1 }).sequencerStep = none := by decide
/-- V-F12: the third CACH byte ends the burst. -/
theorem test_emitByte_last :
    after (exec .emitByte { s0 with txState := .slot2, poLen := 3, poPtr := 2, poBuf := [0, 0, 0xB4, 0] })
      (fun t => (t.poLen, t.poPtr, (t.txq.items 40).map (·.value), t.txOn, t.fir))
      = some (0, 0, [50, 99, 175, 349, -75, -150, -125, -250], true, [-100]) := by decide
/-- V-F8: back-pressure is strict. -/
theorem test_emit_backpressure :
    let s := { s0 with cfg := { tcP with nTx := 17 }, txState := .slot1, poLen := 3, txq := RingBuf.fresh 17 ⟨0, .none⟩ }
    let full := List.replicate 9 (⟨0, .none⟩ : Item)
    (s.ioPush 1 full.tail).emitEnabled = true ∧ (s.ioPush 1 full).emitEnabled = false := by decide

/-! ## The modulator (TC-M's levels and coefficients) -/

/-- V-M1. -/
theorem test_symbolMap :
    ([0b11#2, 0b10#2, 0b00#2, 0b01#2].map fun d =>
      after (exec (.symbolMap d) { s0 with trim3 := 20, trim1 := -5 }) (·.result))
      = [some (.symbol 320), some (.symbol 95), some (.symbol (-95)), some (.symbol (-320))] := by decide
/-- V-M2: the 0xFF property of R193. -/
theorem test_modulate_levels :
    (modulateBatch s0 0xFF .none).map (·.value) = [150, 299, 225, 449, 225, 449, 225, 449]
      ∧ (modulateBatch s0 0x55 .none).map (·.value) = [-150, -300, -225, -450, -225, -450, -225, -450]
      ∧ byteSymbols tcP 20 0 0xFF = List.replicate 4 320 ∧ byteSymbols tcP 20 0 0x55 = List.replicate 4 (-320) := by decide
/-- V-M6: the shift floors. -/
theorem test_firStep_floor :
    after (exec (.firStep (-300)) { s0 with fir := [-100] }) (fun t => (t.result, t.fir))
      = some (.samples [-175, -350], [-300]) := by decide
/-- V-M8, V-M9 (TC-S): saturation. -/
theorem test_firStep_saturates :
    let c := { tcP with rrcCoef := List.replicate 4 32767 }
    firOut c [32767] 32767 = [32767, 32767] ∧ firOut c [-32768] (-32768) = [-32768, -32768] := by decide
/-- V-M4. -/
theorem test_modulate_tag :
    modulateBatch { s0 with trim3 := 20, trim1 := -5 } 0xB4 .slot2
        = [⟨47, .none⟩, ⟨94, .none⟩, ⟨183, .none⟩, ⟨367, .none⟩, ⟨-80, .slot2⟩, ⟨-160, .none⟩, ⟨-128, .none⟩, ⟨-255, .none⟩]
      ∧ modulateFir { s0 with trim3 := 20, trim1 := -5 } 0xB4 = [-95] := by decide
/-- V-M11: PHASE_LEN 1 shows the storage order. -/
theorem test_firStep_order :
    firOut { tcP with phaseLen := 1, rrcCoef := [16384, 32767] } [] 300 = [299, 150] := by decide

/-! ## The I/O contract -/

/-- V-IO1, first step. -/
theorem test_ioService_pop :
    after (exec (.ioService 7 0) { s0 with txOn := true, txq := s0.txq.putAll 40 [⟨150, .none⟩, ⟨299, .slot1⟩] })
      (fun t => (t.txOut, t.txq.items 40, t.rxq.items 2, t.txOn))
      = some ([⟨150, .none⟩], [⟨299, .slot1⟩], [⟨7, .none⟩], true) := by decide
/-- V-IO2, with V-IO3's failing put. -/
theorem test_ioService_silence :
    let full := s0.rxq.putAll 2 [⟨1, .none⟩, ⟨2, .none⟩]
    after (exec (.ioService 5 40) { s0 with cfg := { tcP with rssiEnabled := true }, txOn := true, rxq := full })
      (fun t => (t.txOut, t.txOn, t.rxq.items 2, t.rxq.overflow, t.rssiq.items 2))
      = some ([⟨0, .none⟩], false, [⟨1, .none⟩, ⟨2, .none⟩], true, [⟨40, .none⟩]) := by decide
/-- V-IO4. -/
theorem test_ioSpace :
    after (exec .ioSpace { s0 with txq := s0.txq.putAll 40 (List.replicate 12 ⟨0, .none⟩) }) (·.result)
      = some (.count 28) := by decide
theorem test_ioIsTransmitting : after (exec .ioIsTransmitting s0) (·.result) = some (.flag false) := by decide
/-- V-IO6. -/
theorem test_ioSetTransmit :
    after (exec (.ioSetTransmit false) { s0 with txOn := true }) State.ptt = some false := by decide
/-- V-IO5. -/
theorem test_ioPush :
    after (exec (.ioPush 1 [⟨1, .none⟩, ⟨2, .slot2⟩]) s0) (fun t => (t.txq.items 40, t.ptt))
      = some ([⟨1, .none⟩, ⟨2, .slot2⟩], true) := by decide

/-! ## Host commands -/

/-- The responses and what `f` reads, after one frame has arrived and been executed. -/
def reply {α : Type} (frame : List Byte) (s : State) (f : State → α) : Option (List (List Byte) × α) :=
  after (step { s with cmdIn := frame, sched := [.agent .command] }) (fun t => (t.rspOut, f t))

/-- V-H13, V-H12. -/
theorem test_writeSlotData_ok :
    reply [0x01, 0x05, 0x01, 0xA1, 0xA2, 0xA3, 0xA4] s0 (fun t => (t.fifo.slot0.items 8, t.txState, t.cmdIn))
      = some ([[0x00]], [0xA1, 0xA2, 0xA3, 0xA4], .slot1, []) := by decide
/-- V-H14, V-H15. -/
theorem test_writeSlotData_full :
    reply [0x01, 0x05, 0x01, 0xB1, 0xB2, 0xB3, 0xB4] sF3 (fun t => (t.fifo.slot0.items 8, t.txState))
        = some ([[0x02]], [], .slot1)
      ∧ reply [0x01, 0x04, 0x07, 0, 0, 0] s0 (·.txState) = some ([[0x01]], .idle)
      ∧ reply [0x01, 0x05, 0x07, 0, 0, 0, 0] s0 (·.txState) = some ([[0x03]], .idle) := by decide
/-- V-S1. -/
theorem test_writeShortLc_ones :
    after (exec (.writeShortLc [0xFF, 0xFF, 0xFF, 0xFF, 0xFF, 0xFF, 0xFF, 0xFF, 0xF0]) s0) (·.slcPending)
      = some slcOnes := by decide
/-- V-S3, V-S4, V-S5. -/
theorem test_writeShortLc_edges :
    after (exec (.writeShortLc [0, 0, 0, 0, 0, 0, 0, 0, 0x1F]) s0) (·.slcPending)
        = some [0, 0, 0, 0, 0, 0, 0, 0, 0, 0, 0, 1]
      ∧ after (exec (.writeShortLc [0, 0, 0, 0, 0, 0, 0, 0]) s0) (·.rspOut) = some [[0x01]] := by decide
/-- R176's example, V-H3. -/
theorem test_writeAbort :
    reply [0x03, 0x01, 0x01] sF3 (fun t => (t.abort, t.abortCount)) = some ([[0x00]], ⟨true, false⟩, ⟨0, 0⟩)
      ∧ reply [0x03, 0x01, 0x03] s0 (·.abort) = some ([[0x03]], ⟨false, false⟩) := by decide
/-- V-RST6, V-H4. -/
theorem test_start :
    reply [0x04, 0x01, 0x01] { sF3 with txState := .cach1, abort := ⟨true, true⟩ }
        (fun t => ((t.txState, t.frameCount), (t.abort, t.abortCount)))
        = some ([[0x00]], (.slot1, 0), (⟨false, false⟩, ⟨0, 0⟩))
      ∧ reply [0x04, 0x01, 0x02] s0 (·.txState) = some ([[0x04]], .idle) := by decide
/-- V-F11, V-H18. -/
theorem test_setCal :
    reply [0x05, 0x01, 0x00] { sF3 with txState := .slot2 } (fun t => (t.txState, t.frameCount))
        = some ([[0x00]], .idle, 1)
      ∧ reply [0x05, 0x01, 0x01] s0 (·.txState) = some ([[0x00]], .calibration) := by decide
/-- V-H6, V-H7, V-H8. -/
theorem test_setSymlvl :
    reply [0x06, 0x04, 0x00, 0x14, 0xFF, 0xFB] s0 (fun t => (t.trim3, t.trim1)) = some ([[0x00]], 20, -5)
      ∧ reply [0x06, 0x04, 0x80, 0x00, 0x7F, 0xFF] s0 (fun t => (t.trim3, t.trim1)) = some ([[0x00]], -128, 128)
      ∧ reply [0x06, 0x03, 0, 0, 0] s0 (·.trim3) = some ([[0x01]], 0) := by decide
/-- V-H9. -/
theorem test_setAtSupp :
    reply [0x07, 0x01, 0x03] s0 (·.atMode) = some ([[0x00]], 3)
      ∧ reply [0x07, 0x01, 0x04] s0 (·.atMode) = some ([[0x04]], 0) := by decide
/-- V-H10. -/
theorem test_setColorCode :
    reply [0x08, 0x01, 0x0F] s0 (fun t => (t.idle, t.colourCode))
        = some ([[0x00]], some [0xF9, 0x11, 0x22, 0x33], some 15)
      ∧ reply [0x08, 0x01, 0x10] s0 (·.idle) = some ([[0x04]], none) := by decide
/-- V-RST2, V-H11. -/
theorem test_readFreeSpace :
    reply [0x09, 0x01, 0x02] s0 (·.cmdIn) = some ([[0, 0, 0, 0, 8]], [])
      ∧ reply [0x09, 0x01, 0x00] s0 (·.cmdIn) = some ([[0x03]], [])
      ∧ reply [0x09, 0x02, 0x01, 0x00] s0 (·.cmdIn) = some ([[0x01]], []) := by decide
/-- V-H1, V-H2, and the byte order. -/
theorem test_readFrameCount :
    reply [0x0A, 0x00] { s0 with frameCount := 0x01020304 } (·.cmdIn) = some ([[0, 1, 2, 3, 4]], [])
      ∧ reply [0x0A, 0x01, 0x00] s0 (·.cmdIn) = some ([[0x01]], []) := by decide
/-- V-H16. -/
theorem test_pollOverflow :
    reply [0x0B, 0x01, 0x01] { s0 with rxq := { s0.rxq with overflow := true } } (·.rxq.overflow)
        = some ([[0x00, 0x01]], false)
      ∧ reply [0x0B, 0x01, 0x05] s0 (·.cmdIn) = some ([[0x04]], []) := by decide
/-- V-H5, and the bytes behind the frame stay. -/
theorem test_reserved_opcode :
    reply [0xFF, 0x02, 0xAA, 0xBB, 0x04] s0 (·.cmdIn) = some ([[0x05]], [0x04]) := by decide
/-- R240: a partial frame waits. -/
theorem test_partial_frame : reply [0x04, 0x01] s0 (·.cmdIn) = some ([], [0x04, 0x01]) := by decide

/-! ## Placing a table word -/

/-- The next step runs the placed operation, here IO_SET_TRANSMIT 1 and START 0 from reset. -/
theorem test_withFetchWord :
    after (step (State.reset.withFetchWord 16 0x9201)) (·.txOn) = some true
      ∧ after (step (State.reset.withFetchWord 16 0x0401)) (·.rspOut) = some [[0x00]]
      ∧ faultOf (step (State.reset.withFetchWord 16 0x8001)) = some (.idleTemplateUnset .slot1) := by decide
/-- R39's register map. -/
theorem test_field :
    [sF3.field 0 (.fifo .slot0), sF3.field 1 (.fifo .slot0), sF3.field 9 (.fifo .slot0), sF3.field 12 (.fifo .slot0)]
      = [some 1, some 1, some 0, none] := by decide

/-! ## The assembler: the examples of R102, R103 and spec/95_test_vectors.md -/

theorem test_assemble_host :
    assemble "WRITE_ABORT 1" = some (.host [0x03, 0x01, 0x01])
      ∧ assemble "SET_SYMLVL 20, -5 ; R242" = some (.host [0x06, 0x04, 0x00, 0x14, 0xFF, 0xFB])
      ∧ assemble "WRITE_SLOT_DATA 0x01, h\"A1a2A3A4\"" = some (.host [0x01, 0x05, 0x01, 0xA1, 0xA2, 0xA3, 0xA4])
      ∧ assemble "LEVELS_NOMINAL" = some (.host [0x06, 0x04, 0, 0, 0, 0]) := by decide
theorem test_assemble_steps :
    assemble "@main BUILD_CACH 1, 0" = some (.main 0x8102 [])
      ∧ assemble "@svc IO_SERVICE rx=7, rssi=40" = some (.svc 7 40)
      ∧ assemble "@rx RING_GET RXQ" = some (.receive .rxq)
      ∧ assemble "  ; a comment" = some .blank
      ∧ assemble "@svc BUILD_CAL" = none ∧ assemble "WRITE_ABORT 1 2" = none := by decide
/-- Operands by name and by number (log 25); the first line is V-M3's operation. -/
theorem test_assemble_names :
    assemble "@main MODULATE 0xB4, SLOT1" = some (.main 0x8400 [0xB4, 0x08])
      ∧ assemble "@main IO_PUSH MODE_DMR, 7, NONE, -9, SLOT2" = some (.main 0x9300 [0x01, 7, 0x00, 0xFFF7, 0x04])
      ∧ assemble "@main RING_FREE FIFO1" = some (.main 0x8904 []) ∧ assemble "@main RING_FREE 4" = some (.main 0x8904 [])
      ∧ assemble "@main RING_FREE 5" = none ∧ assemble "@main MODULATE 0xB4, TXQ" = none := by decide
/-- Numbers at the ends of their ranges (log 25). -/
theorem test_assemble_ranges :
    assemble "SET_SYMLVL 32767, -32768" = some (.host [0x06, 0x04, 0x7F, 0xFF, 0x80, 0x00])
      ∧ assemble "SET_SYMLVL 32768, 0" = none ∧ assemble "SET_SYMLVL 0xFFFB, 0" = none
      ∧ assemble "WRITE_ABORT 256" = none ∧ assemble "@main FIR_STEP 65535" = some (.main 0x8500 [0xFFFF])
      ∧ assemble "@main FIR_STEP 65536" = none ∧ assemble "@main FIR_STEP -32769" = none := by decide
theorem test_pseudo_frames :
    [Pseudo.go, .stop, .calOn, .calOff, .atNormal].map (fun p => encode p.expand)
      = [.frame [0x04, 0x01, 0x01], .frame [0x04, 0x01, 0x00], .frame [0x05, 0x01, 0x01], .frame [0x05, 0x01, 0x00],
        .frame [0x07, 0x01, 0x00]] := by decide

/-! ## Witnesses: for each obligation with hypotheses, a state and operands that meet all of them together -/

/-- Reset under TC-P is sound. -/
theorem s0_inv : s0.Inv := by
  unfold State.Inv State.RingsWf State.PoWf State.RegsWf RingBuf.Wf trimOk
  decide

/-- A booted state with data due for slot 0: V-F4's queue, two warm-up frames, an aged-out abort. -/
def sDue : State := { sF3 with frameCount := 2, colourCode := some 1 }

theorem sDue_inv : sDue.Inv := by
  unfold State.Inv State.RingsWf State.PoWf State.RegsWf RingBuf.Wf trimOk
  decide

/-- A state whose RXQ and FIFO[1] are full, with trims, suppression mode and cursor at the ends of their ranges. -/
def sEdge : State :=
  { s0 with
    rxq := s0.rxq.putAll 2 [⟨1, .none⟩, ⟨2, .slot1⟩]
    fifo := ⟨fifoOf [], fifoOf [1, 2, 3, 4, 5, 6, 7, 8]⟩
    trim3 := 128, trim1 := -128, atMode := 3, cachPtr := 9 }

theorem sEdge_inv : sEdge.Inv := by
  unfold State.Inv State.RingsWf State.PoWf State.RegsWf RingBuf.Wf trimOk
  decide

/-- A three-byte burst half emitted, with exactly the room one emit needs (TXQ of 17 items, 8 queued). -/
def sEmit : State :=
  { s0 with
    cfg := { tcP with nTx := 17 }, txState := .slot2, poLen := 3, poPtr := 2
    txq := (RingBuf.fresh 17 ⟨0, .none⟩).putAll 17 (List.replicate 8 ⟨5, .none⟩) }

theorem sEmit_inv : sEmit.Inv := by
  unfold State.Inv State.RingsWf State.PoWf State.RegsWf RingBuf.Wf trimOk
  decide

theorem witness_DecodeInvertsEncode :
    (Instr.writeSlotData (List.replicate 255 0xFF)).wf = true ∧ (Instr.buildCach .slot0 .slot1).wf = true
      ∧ (Instr.ringPut (.fifo .slot1 0xFF)).wf = true := by decide +kernel
theorem witness_EncodeInvertsDecode :
    decode (.frame [0x0A, 0x00]) = .ok (.readFrameCount []) ∧ decode (.word 0x8E04 []) = .ok (.ringTakeOverflow (.fifo .slot1)) :=
  ⟨rfl, rfl⟩
/-- The operand lists at both ends of their range, and the first and last ring id. -/
theorem witness_WordsOfTheSpecDecode :
    ([] : List Byte).length ≤ 255 ∧ (List.replicate 255 (0xFF : Byte)).length ≤ 255
      ∧ (0, RingId.sample .txq) ∈ ringIds ∧ (4, RingId.fifo .slot1) ∈ ringIds := by decide +kernel
theorem witness_LenByteFramesTheCommand :
    (List.replicate 255 (0 : Byte)).length ≤ 255 ∧ ([1] : List Byte).length < (2 : Byte).toNat
      ∧ ([0x04] : List Byte).length < 2 := by decide +kernel
theorem witness_StepRunsTheFirstFrame :
    let s := { s0 with sched := [.agent .command], cmdIn := [0x04, 0x01, 0x01, 0x09] }
    s.cfg.wf = true ∧ s.sched = [.agent .command] ∧ readFrame s.cmdIn = .command (.start [1]) [0x09] := by decide
theorem witness_StepAnswersReservedAndWaitsForPartial :
    let s := { s0 with sched := [.agent .command], cmdIn := [0x0C, 0x00, 0x09] }
    let u := { s0 with sched := [.agent .command], cmdIn := [0x04, 0x01] }
    s.cfg.wf = true ∧ s.sched = [.agent .command] ∧ readFrame s.cmdIn = .reserved 0x0C [0x09]
      ∧ u.cfg.wf = true ∧ u.sched = [.agent .command] ∧ readFrame u.cmdIn = .incomplete := by decide
theorem witness_StepRunsTheEnabledSequencerStep :
    ∀ st ∈ [TxState.idle, .slot1, .cach2, .slot2, .cach1, .calibration], ∀ n ∈ [0, 3],
      let s := { s0 with sched := [.agent .sequencer], txState := st, poLen := n }
      s.cfg.wf = true ∧ s.sched = [.agent .sequencer] := by decide
theorem witness_StepRunsTheOtherTurns :
    s0.cfg.wf = true ∧ s0.sched = [] ∧ decodeWord 0x9000 [] = .ok .ioSpace ∧ decodeWord 0x9001 [] = .error .illegalField :=
  ⟨by decide, rfl, rfl, rfl⟩
theorem witness_IllFormedConfigurationIsRefused :
    ({ s0 with cfg := { tcP with nTx := 8 } }).cfg.wf = false ∧ ({ tcP with nTx := 9 }).wf = true
      ∧ ({ tcP with ctrlPos := { tcP.ctrlPos with h2 := 24 } }).wf = false := by decide
theorem witness_OccupiedPlusFreeIsCapacity : sEdge.Inv ∧ sEdge.rxq.full = true ∧ sEdge.txq.full = false :=
  ⟨sEdge_inv, rfl, rfl⟩
theorem witness_RingsRefineBoundedQueues : 1 ≤ 1 := by decide
theorem witness_RingPutCompletes :
    sEdge.Inv ∧ (sEdge.sampleRing .rxq).full = true ∧ (sEdge.sampleRing .txq).full = false
      ∧ (sEdge.fifo.get .slot1).full = true ∧ (sEdge.fifo.get .slot0).full = false := ⟨sEdge_inv, rfl, rfl, rfl, rfl⟩
theorem witness_RingGetCompletes :
    sEdge.Inv ∧ stored sEdge (.sample .rxq) = 2 ∧ stored sEdge (.sample .txq) = 0 ∧ stored sEdge (.fifo .slot1) = 8
      ∧ stored sEdge (.fifo .slot0) = 0 := ⟨sEdge_inv, by decide⟩
theorem witness_RingQueriesComplete : sEdge.Inv := sEdge_inv
theorem witness_RingResetCompletes : after (exec (.ringReset (.fifo .slot1)) sEdge) (fun t => stored t (.fifo .slot1)) = some 0 := by
  decide
theorem witness_TakeOverflowCompletes :
    after (exec (.ringTakeOverflow (.sample .rxq)) sEdge) (·.result) = some (.flag false) := by decide
theorem witness_SymbolMapCompletes : sEdge.Inv := sEdge_inv
theorem witness_FirStepCompletes : s0.Inv ∧ 1 ≤ 2 ∧ 2 ≤ s0.cfg.osr := ⟨s0_inv, by decide⟩
theorem witness_FilterIsPolyphaseConvolution :
    s0.cfg.wf = true ∧ s0.fir = List.replicate (s0.cfg.phaseLen - 1) 0
      ∧ 2 < ([300, 100, -300] : List Sample).length ∧ 1 < s0.cfg.osr := by decide
theorem witness_ModulateCompletes : s0.Inv ∧ 7 < 4 * s0.cfg.osr := ⟨s0_inv, by decide⟩
theorem witness_DataBranchTakesOneBurst :
    sDue.Inv ∧ sDue.poLen = 0 ∧ sDue.txState = dueState .slot0 ∧ dataReady sDue .slot0 :=
  ⟨sDue_inv, rfl, rfl, by unfold dataReady; decide⟩
theorem witness_IdleBranchSendsTheTemplate :
    let s := { sDue with abortCount := ⟨0, 0⟩, abort := ⟨true, false⟩ }
    s.Inv ∧ s.poLen = 0 ∧ s.txState = dueState .slot0 ∧ ¬ dataReady s .slot0 ∧ s.idle = some [0x19, 0x11, 0x22, 0x33] :=
  ⟨sDue_inv, rfl, rfl, by unfold dataReady; decide, rfl⟩
theorem witness_FaultsExactlyOnTheUnwrittenTemplate :
    let s := { s0 with txState := .slot2 }
    s.Inv ∧ s.poLen = 0 ∧ s.txState = dueState .slot1 ∧ ¬ dataReady s .slot1 ∧ s.idle = none :=
  ⟨s0_inv, rfl, rfl, by unfold dataReady; decide, rfl⟩
theorem witness_DisabledStepsAreRefused :
    refusalOf (exec .emitByte { sEmit with txq := sEmit.txq.putAll 17 [⟨5, .none⟩] }) = some .stepNotEnabled := by decide
/-- The access-type bit is 1 here; the live payload is the pending one. -/
theorem witness_CachBuildCompletes :
    let s := { sDue with txState := .cach2, slcPending := slcOnes }
    s.Inv ∧ s.poLen = 0 ∧ (s.txState = .cach2 ∧ Slot.slot1 = .slot1 ∧ Slot.slot0 = .slot0)
      ∧ (true = true ↔ s.cfg.startupCount.toNat ≤ (s.frameCount.toNat + 1) % 2 ^ 32 ∧ queued s .slot0 ≠ []
          ∧ ¬(s.atMode = 3 ∨ (s.atMode = 1 ∧ Slot.slot0 = .slot0) ∨ (s.atMode = 2 ∧ Slot.slot0 = .slot1)))
      ∧ (true = true ↔ Slot.slot1 = .slot1) ∧ (false = true ↔ s.cachPtr ≠ 0) ∧ (true = true ↔ s.cachPtr ≠ 9)
      ∧ (slcOnes = if s.cachPtr ≠ 0 then s.slcLive
          else if queued s .slot0 = [] ∧ queued s .slot1 = [] then List.replicate 12 0 else s.slcPending) :=
  ⟨sDue_inv, rfl, by decide⟩
/-- At cursor 9 under mode 3: the access-type bit and `ls0` are 0, and the live payload stays. -/
theorem witness_CachBuildCompletes_cursor9 :
    let s := { sEdge with txState := .cach1 }
    s.Inv ∧ s.poLen = 0 ∧ (s.txState = .cach1 ∧ Slot.slot0 = .slot0 ∧ Slot.slot1 = .slot1)
      ∧ (false = true ↔ s.cfg.startupCount.toNat ≤ (s.frameCount.toNat + 1) % 2 ^ 32 ∧ queued s .slot1 ≠ []
          ∧ ¬(s.atMode = 3 ∨ (s.atMode = 1 ∧ Slot.slot1 = .slot0) ∨ (s.atMode = 2 ∧ Slot.slot1 = .slot1)))
      ∧ (false = true ↔ Slot.slot0 = .slot1) ∧ (true = true ↔ s.cachPtr ≠ 0) ∧ (false = true ↔ s.cachPtr ≠ 9)
      ∧ (s.slcLive = if s.cachPtr ≠ 0 then s.slcLive
          else if queued s .slot0 = [] ∧ queued s .slot1 = [] then List.replicate 12 0 else s.slcPending) :=
  ⟨sEdge_inv, rfl, by decide⟩
theorem witness_CalibrationBuildCompletes :
    let s := { s0 with txState := .calibration }
    s.Inv ∧ s.poLen = 0 ∧ s.txState = .calibration := ⟨s0_inv, rfl, rfl⟩
theorem witness_EmitByteCompletes :
    sEmit.Inv ∧ sEmit.txState ≠ .idle ∧ 0 < sEmit.poLen ∧ 4 * sEmit.cfg.osr < sEmit.txq.free sEmit.cfg.nTx :=
  ⟨sEmit_inv, by decide⟩
theorem witness_StartupGuardSendsIdle :
    let s := { sDue with frameCount := 1 }
    s.Inv ∧ s.frameCount.toNat < s.cfg.startupCount.toNat
      ∧ after (exec (.buildData .slot0) s) (fun t => (t.poBuf, queued t .slot0)) = some ([0x19, 0x11, 0x22, 0x33], queued s .slot0)
      ∧ s.abort.get .slot0 = false := ⟨sDue_inv, by decide⟩
theorem witness_AbortThenBuildDropsTheQueue :
    sDue.Inv ∧ (1 : Byte).toNat = Slot.slot0.index + 1
      ∧ after (exec (.writeAbort [1]) sDue) (fun s1 => after (exec (.buildData .slot0) s1) (fun t => queued t .slot0))
        = some (some []) := ⟨sDue_inv, by decide⟩
theorem witness_SequencerFollowsTheCycle :
    let s := { sDue with sched := [.agent .sequencer] }
    s.sched = [.agent .sequencer] ∧ after (step s) (·.txState) = some .cach2
      ∧ after (step { sEmit with sched := [.agent .sequencer] }) (·.txState) = some .slot2 := by decide
theorem witness_OnlyCommandsEnterOrLeaveIdle :
    after (exec (.setCal [0]) sDue) (·.txState) = some .idle ∧ sDue.txState ≠ .idle
      ∧ after (exec (.writeSlotData [2, 1, 2, 3, 4]) s0) (·.txState) = some .slot1 ∧ s0.txState = .idle := by decide
theorem witness_ShortLinkControlRoundTrips : tcP.wf = true ∧ (List.replicate 9 (0xFF : Byte)).length = 9 ∧ 67 < 68 := by decide
theorem witness_WriteShortLcCompletes : s0.Inv ∧ (List.replicate 9 (0xFF : Byte)).length = 9 ∧ 95 < 96
    ∧ (List.replicate 8 (0xFF : Byte)).length ≠ 9 ∧ 0 ∉ s0.cfg.slcInterleave := ⟨s0_inv, by decide⟩
/-- Room for exactly one burst in the first state, none in the second. -/
theorem witness_WriteSlotDataCompletes :
    let s := { s0 with fifo := ⟨fifoOf [1, 2, 3, 4], fifoOf [1, 2, 3, 4, 5]⟩ }
    s.Inv ∧ ([1, 2, 3] : List Byte).length ≠ s.cfg.burstBytes ∧ ([1, 2, 3, 4] : List Byte).length = s.cfg.burstBytes
      ∧ (3 : Byte) ≠ 1 ∧ (3 : Byte) ≠ 2 ∧ (2 : Byte).toNat = Slot.slot1.index + 1
      ∧ s.cfg.burstBytes ≤ s.cfg.nFifo - (queued s .slot0).length
      ∧ s.cfg.nFifo - (queued s .slot1).length < s.cfg.burstBytes := by
  refine ⟨?_, by decide⟩
  unfold State.Inv State.RingsWf State.PoWf State.RegsWf RingBuf.Wf trimOk
  decide
theorem witness_SetSymlvlCompletes : ([1, 2, 3] : List Byte).length ≠ 4 := by decide
theorem witness_SetColorCodeCompletes : s0.cfg.wf = true := by decide
theorem witness_ReadFreeSpaceCompletes : sEdge.Inv := sEdge_inv
theorem witness_FailingCommandsChangeNothing :
    isHostCommand (.start [2]) ∧ isHostCommand (.writeSlotData [2, 1, 2, 3, 4])
      ∧ after (exec (.writeSlotData [2, 1, 2, 3, 4]) sEdge) (·.rspOut) = some [[0x02]] :=
  ⟨⟨0x04, [2], rfl⟩, ⟨0x01, [2, 1, 2, 3, 4], rfl⟩, by decide⟩
theorem witness_HostCommandsLeaveTheSignalPath :
    isHostCommand (.pollOverflow [0]) ∧ after (exec (.pollOverflow [0]) s0) (·.rspOut) = some [[0x00, 0x00]] :=
  ⟨⟨0x0B, [0], rfl⟩, by decide⟩
theorem witness_ServiceStepCompletes : s0.Inv ∧ txItems s0 = [] ∧ sEmit.Inv ∧ (txItems sEmit).length = 8 :=
  ⟨s0_inv, by decide, sEmit_inv, by decide⟩
theorem witness_ContractCallsComplete : sEmit.Inv := sEmit_inv
/-- A batch that just fits, and one item more: the first nine stay, the tenth is lost. -/
theorem witness_PushStoresTheBatchInOrder :
    sEmit.Inv ∧ (List.replicate 9 (⟨5, .none⟩ : Item)).length ≤ sEmit.txq.free sEmit.cfg.nTx
      ∧ sEmit.txq.free sEmit.cfg.nTx < (List.replicate 10 (⟨5, .none⟩ : Item)).length
      ∧ after (exec (.ioPush 1 (List.replicate 9 ⟨6, .none⟩ ++ [⟨7, .slot1⟩])) sEmit)
          (fun t => (txItems t, t.txq.overflow))
        = some (List.replicate 8 ⟨5, .none⟩ ++ List.replicate 9 ⟨6, .none⟩, true) := ⟨sEmit_inv, by decide⟩
theorem witness_OutputStreamIsConserved :
    let s := { sEmit with sched := [.agent .sequencer] }
    s.Inv ∧ s.TxSafe ∧ s.AgentNext
      ∧ after (step s) (fun t => ((txItems t).length, t.poPtr, t.poLen)) = some (16, 0, 0) ∧ s.poPtr + 1 = s.poLen := by
  refine ⟨sEmit_inv, by unfold State.TxSafe; decide, ?_, by decide⟩
  intro w operands h
  simp [State.nextTurn] at h
theorem witness_TxqNeverOverflows :
    let s := { s0 with sched := [.agent (.service 7 40)] }
    s.Inv ∧ s.TxSafe ∧ s.AgentNext ∧ after (step s) (·.txOut) = some [⟨0, .none⟩] := by
  refine ⟨s0_inv, by unfold State.TxSafe; decide, ?_, by decide⟩
  intro w operands h
  simp [State.nextTurn] at h
theorem witness_EveryStepKeepsTheInvariant :
    let s := { sDue with sched := [.issue 0x8002 [], .agent .sequencer] }
    let u := { sDue with sched := [.issue 0x8B00 [7, 8]] }
    s.Inv ∧ refusalOf (step s) = some .noSuchOperation ∧ u.Inv ∧ after (step u) txItems = some [⟨7, .slot1⟩] :=
  ⟨sDue_inv, by decide, sDue_inv, by decide⟩
theorem witness_ResetMeetsTheInvariant : tcP.wf = true := by decide
theorem witness_ObservationsAfterReset : tcP.wf = true ∧ s0 = State.resetWith tcP ∧ (4 : Byte).toNat ≤ 4 := by decide
theorem witness_BootedMachineNeverFaults :
    let s := { sDue with sched := [.agent .sequencer] }
    s.Booted ∧ after (step s) (·.txState) = some .cach2 := by
  refine ⟨?_, by decide⟩
  unfold State.Booted
  decide
/-- A change of each kind of register, by a writer its rule names. -/
theorem witness_RegistersHaveOnlyTheirWriters :
    after (exec (.setAtSupp [3]) s0) (·.atMode) = some 3 ∧ s0.atMode ≠ 3
      ∧ after (exec (.ioSetTransmit true) s0) (·.txOn) = some true ∧ s0.txOn ≠ true
      ∧ after (exec (.writeSlotData [1, 1, 2, 3, 4]) s0) (·.txState) = some .slot1 ∧ s0.txState = .idle
      ∧ after (exec .emitByte sEmit) (fun t => (t.poPtr, t.poLen)) = some (0, 0) ∧ sEmit.poPtr ≠ 0
      ∧ after (exec (.buildData .slot0) sDue) (fun t => (t.poBuf, (ringRegs t (.fifo .slot0)).tail)) = some ([1, 2, 3, 4], 4)
      ∧ (ringRegs sDue (.fifo .slot0)).tail = 0 ∧ sDue.poBuf ≠ [1, 2, 3, 4] := by decide
/-- A put that fills a ring, the put after it, and the take that clears the latch. -/
theorem witness_RegistersHaveOnlyTheirWriters_flags :
    let s := { sEdge with rxq := s0.rxq.putAll 2 [⟨1, .none⟩] }
    (ringRegs s (.sample .rxq)).full = false
      ∧ after (exec (.ringPut (.sample .rxq ⟨2, .none⟩)) s) (fun t => (ringRegs t (.sample .rxq)).full) = some true
      ∧ (ringRegs sEdge (.sample .rxq)).overflow = false
      ∧ after (exec (.ioService 7 40) sEdge) (fun t => (ringRegs t (.sample .rxq)).overflow) = some true
      ∧ putsOn (.ioService 7 40) (.sample .rxq) :=
  ⟨by decide, by decide, by decide, by decide, .inr (.inr (.inl ⟨.inl rfl, 7, 40, rfl⟩))⟩

end Sys2Proof.Tests
end

/-! # Proofs: scope (spec/00_scope.md)

The turns a step takes, the configurations it refuses, and the operations that are ever refused. -/

namespace Sys2Proof.Machine

open Sys2Proof.Claims

/-! ## Which turn a step takes (R5, R7) -/

section

variable {s : State}

/-- R276. -/
theorem step_of_not_wf (h : s.cfg.wf = false) : step s = .refused .illFormedConfiguration := by
  simp [step, runStep, h]

/-- A placed turn is taken before any free one. -/
theorem step_of_sched_cons {t : Turn} {turns : List Turn} (hw : s.cfg.wf = true) (h : s.sched = t :: turns) :
    step s = runTurn t { s with sched := turns } := by
  simp [step_of_wf hw, State.nextTurn, h]

theorem step_of_sched_nil (hw : s.cfg.wf = true) (h : s.sched = []) :
    step s = runAgent (Config.freeTurn s.freeCount) { s with freeCount := s.freeCount + 1 } := by
  simp [step_of_wf hw, State.nextTurn, h, runTurn]

theorem runTurn_issue_ok {w : Word16} {operands : List Word16} {i : Instr} (h : decodeWord w operands = .ok i) (s : State) :
    runTurn (.issue w operands) s = exec i s := by
  simp [runTurn, h]

theorem runTurn_issue_error {w : Word16} {operands : List Word16} {e : Reject} (h : decodeWord w operands = .error e)
    (s : State) : runTurn (.issue w operands) s = .refused .noSuchOperation := by
  simp [runTurn, h]

end

/-! ## What is ever refused (R12) -/

section

variable {s : State} {k tx rx : Slot} {r : Refusal}

/-- The statement's name for the state of a data build is the model's. -/
theorem dueState_eq_dataState (k : Slot) : dueState k = dataState k := by cases k <;> rfl

theorem execBuildData_refused_iff :
    execBuildData k s = .refused r ↔ r = .stepNotEnabled ∧ ¬(s.poLen = 0 ∧ s.txState = dueState k) := by
  rw [dueState_eq_dataState, ← State.dataEnabled_iff, execBuildData]
  by_cases he : s.dataEnabled k = true
  · cases s.dataReady k <;> cases s.idle <;> simp [he]
  · simp [he, eq_comm]

theorem execBuildCach_refused_iff :
    execBuildCach tx rx s = .refused r ↔ r = .stepNotEnabled ∧ ¬(s.poLen = 0
      ∧ ((s.txState = .cach2 ∧ tx = .slot1 ∧ rx = .slot0) ∨ (s.txState = .cach1 ∧ tx = .slot0 ∧ rx = .slot1))) := by
  rw [← State.cachEnabled_iff, execBuildCach]
  by_cases he : s.cachEnabled tx rx = true <;> simp [he, eq_comm]

theorem execBuildCal_refused_iff :
    execBuildCal s = .refused r ↔ r = .stepNotEnabled ∧ ¬(s.poLen = 0 ∧ s.txState = .calibration) := by
  rw [← State.calEnabled_iff, execBuildCal]
  by_cases he : s.calEnabled = true <;> simp [he, eq_comm]

theorem execEmitByte_refused_iff :
    execEmitByte s = .refused r ↔ r = .stepNotEnabled
      ∧ ¬(s.txState ≠ .idle ∧ 0 < s.poLen ∧ 4 * s.cfg.osr < s.txq.free s.cfg.nTx) := by
  rw [← State.emitEnabled_iff, execEmitByte]
  by_cases he : s.emitEnabled = true <;> simp [he, eq_comm]

/-- Only builds and emits have an enabling condition: every other operation completes in every state. -/
theorem exec_next_of_not_build_emit {i : Instr} (hb : ¬ isBuild i) (he : i ≠ .emitByte) (s : State) :
    ∃ t, exec i s = .next t := by
  cases i with
  | buildData k => exact absurd (.inl ⟨k, rfl⟩) hb
  | buildCach tx rx => exact absurd (.inr (.inl ⟨tx, rx, rfl⟩)) hb
  | buildCal => exact absurd (.inr (.inr rfl)) hb
  | emitByte => exact absurd rfl he
  | _ => exact ⟨_, rfl⟩

theorem isBuild_or_emitByte_of_refused {i : Instr} (h : exec i s = .refused r) : isBuild i ∨ i = .emitByte := by
  by_contra hn
  obtain ⟨hb, he⟩ := not_or.mp hn
  obtain ⟨t, ht⟩ := exec_next_of_not_build_emit hb he s
  simp [ht] at h

/-- The four steps are refused for one reason. -/
theorem exec_refused_reason {i : Instr} (h : exec i s = .refused r) : r = .stepNotEnabled := by
  rcases isBuild_or_emitByte_of_refused h with (⟨k, rfl⟩ | ⟨tx, rx, rfl⟩ | rfl) | rfl
  · exact (execBuildData_refused_iff.mp h).1
  · exact (execBuildCach_refused_iff.mp h).1
  · exact (execBuildCal_refused_iff.mp h).1
  · exact (execEmitByte_refused_iff.mp h).1

end

/-! ## The statements -/

/-- Settles O11: the clauses of `Config.wf_iff`, with R7's two-sided level bound as an absolute value. -/
theorem illFormedConfigurationIsRefused : Obligations.IllFormedConfigurationIsRefused := by
  refine ⟨fun s => step_of_not_wf, fun c => (Config.wf_iff c).trans ⟨fun h => ?_, ?_⟩⟩
  · exact ⟨h.idleBase, h.calBurst, h.tableLength, h.nRx, h.nRssi, h.ctrlPos, h.osr, h.phaseLen, h.coef,
      fun l hl => abs_le.mpr (h.levels l hl), h.nTx, h.nFifo, h.burst, h.tableNodup,
      fun p hp => ⟨h.tableRange p hp, h.tableFree p hp⟩, h.encoder, h.abortLimit⟩
  · rintro ⟨idleBase, calBurst, tableLength, nRx, nRssi, ctrlPos, osr, phaseLen, coef, levels, nTx, nFifo, burst,
      tableNodup, table, encoder, abortLimit⟩
    exact { idleBase, calBurst, tableLength, nRx, nRssi, ctrlPos, osr, phaseLen, coef, nTx, nFifo, burst, tableNodup,
            encoder, abortLimit
            levels := fun l hl => abs_le.mp (levels l hl)
            tableRange := fun p hp => (table p hp).1
            tableFree := fun p hp => (table p hp).2 }

/-- Settles O27: each step's refusal is the failure of its enabling condition, and every other operation completes. -/
theorem disabledStepsAreRefused : Obligations.DisabledStepsAreRefused := by
  refine ⟨fun s k => ?_, fun s tx rx => ?_, fun s => ?_, fun s => ?_, fun i s r h => ⟨exec_refused_reason h, ?_⟩⟩
  · exact execBuildData_refused_iff.trans (and_iff_right rfl)
  · exact execBuildCach_refused_iff.trans (and_iff_right rfl)
  · exact execBuildCal_refused_iff.trans (and_iff_right rfl)
  · exact execEmitByte_refused_iff.trans (and_iff_right rfl)
  · simpa [isBuild, or_assoc] using isBuild_or_emitByte_of_refused h

/-- Settles O10: the turn at the head of the schedule runs, and where there is none the free turn does. -/
theorem stepRunsTheOtherTurns : Obligations.StepRunsTheOtherTurns := by
  intro s hw
  refine ⟨fun turns rx rssi h => ?service, fun turns h => ?receiveRxq, fun turns h => ?receiveRssiq,
    fun turns bytes h => ?arrive, fun turns w operands i h hd => ?issued, fun turns w operands e h hd => ?notListed,
    fun h => ⟨_, step_of_sched_nil hw h⟩⟩
  case issued => rw [step_of_sched_cons hw h, runTurn_issue_ok hd]
  case notListed => rw [step_of_sched_cons hw h, runTurn_issue_error hd]
  all_goals exact step_of_sched_cons hw h

end Sys2Proof.Machine

/-! # Proofs: state (spec/10_state.md)

What R43 asks holds at reset and through every step, and each register has the writers its rule names. -/

namespace Sys2Proof.Machine

open Sys2Proof.Claims

/-! ## What an operation that completes can have done -/

/-- What a service step leaves that drives `out` on `tx_out` (R226, R228). -/
def State.afterService (s : State) (rx rssi : Word16) (on : Bool) (out : Item) : State :=
  { s with
    txq := (s.txq.get s.cfg.nTx).2
    txOn := on
    txOut := s.txOut ++ [out]
    rxq := (s.rxq.put s.cfg.nRx ⟨rx, out.tag⟩).1
    rssiq := if s.cfg.rssiEnabled then (s.rssiq.put s.cfg.nRssi ⟨rssi, .none⟩).1 else s.rssiq }

/-- The states one operation can leave, case by case. Any operation may have answered or returned a value and done no more. -/
inductive Effect (s : State) : Instr → State → Prop
  | answered (i : Instr) (st : Status) (d : List Byte) : Effect s i (s.answer st d)
  | returned (i : Instr) (r : Result) : Effect s i (s.returned r)
  | burstWritten (sel : Byte) (k : Slot) (p : List Byte) (hk : sel.toNat = k.index + 1) :
      Effect s (.writeSlotData (sel :: p)) (s.writeBurst k p)
  | slcWritten (ops : List Byte) :
      Effect s (.writeShortLc ops) ({ s with slcPending := scatterSlc s.cfg.slcInterleave ops }.answerOk)
  | aborted (ops : List Byte) (k : Slot) : Effect s (.writeAbort ops)
      ({ s with abort := s.abort.set k true, abortCount := s.abortCount.set k 0 }.answerOk)
  | started (ops : List Byte) (st : TxState) : Effect s (.start ops)
      ({ s with txState := st, frameCount := 0, abort := ⟨false, false⟩, abortCount := ⟨0, 0⟩ }.answerOk)
  | calibrated (ops : List Byte) (st : TxState) : Effect s (.setCal ops) ({ s with txState := st }.answerOk)
  | trimmed (ops : List Byte) (a b : Sample) : Effect s (.setSymlvl ops)
      ({ s with trim3 := clampTrim a, trim1 := clampTrim b }.answerOk)
  | suppressed (ops : List Byte) (m : Byte) (hm : m.toNat ≤ 3) :
      Effect s (.setAtSupp ops) ({ s with atMode := m }.answerOk)
  | coloured (ops : List Byte) (cc : Byte) (hcc : cc.toNat ≤ 15) : Effect s (.setColorCode ops)
      ({ s with idle := some (s.cfg.idleTemplate cc), colourCode := some cc }.answerOk)
  | polled (b : Byte) (q : RingId) (d : List Byte) (hq : b.toNat = q.code) :
      Effect s (.pollOverflow [b]) ((s.clearRingOverflow q).answer .ok d)
  | dataBuilt (k : Slot) (hr : s.dataReady k = true) : Effect s (.buildData k) (s.dataBranch k).advance
  | idleBuilt (k : Slot) (p : List Byte) (hp : s.idle = some p) : Effect s (.buildData k) (s.idleBranch k p).advance
  | cachBuilt (tx rx : Slot) : Effect s (.buildCach tx rx) (s.bumpCounters.slcSwap.loadCach tx rx).advance
  | calBuilt : Effect s .buildCal (s.loadBurst s.cfg.calBurst).advance
  | emitted : Effect s .emitByte s.emitCurrent
  | modulated (b : Byte) (u : Tag) (r : Result) :
      Effect s (.modulate b u) ({ s with fir := modulateFir s b }.returned r)
  | filtered (x : Sample) (r : Result) : Effect s (.firStep x) ({ s with fir := firNext s.fir x }.returned r)
  | samplePut (q : SampleRing) (x : Item) (r : Result) : Effect s (.ringPut (.sample q x)) ((s.putSample q x).returned r)
  | bytePut (k : Slot) (b : Byte) (r : Result) :
      Effect s (.ringPut (.fifo k b)) ((s.withFifo k ((s.fifo.get k).put s.cfg.nFifo b).1).returned r)
  | sampleGot (q : SampleRing) (r : Result) : Effect s (.ringGet (.sample q))
      ((s.withSampleRing q ((s.sampleRing q).get (s.cfg.capacity (.sample q))).2).returned r)
  | byteGot (k : Slot) (r : Result) :
      Effect s (.ringGet (.fifo k)) ((s.withFifo k ((s.fifo.get k).get s.cfg.nFifo).2).returned r)
  | ringReset (q : RingId) : Effect s (.ringReset q) (s.resetRing q)
  | overflowTaken (q : RingId) (r : Result) : Effect s (.ringTakeOverflow q) ((s.clearRingOverflow q).returned r)
  | transmitSet (b : Bool) : Effect s (.ioSetTransmit b) { s with txOn := b }
  | pushed (mode : Byte) (batch : List Item) : Effect s (.ioPush mode batch) (s.ioPush mode batch)
  | serviced (rx rssi : Word16) (on : Bool) (out : Item) : Effect s (.ioService rx rssi) (s.afterService rx rssi on out)

/-- An operation that answers a next state had one of these effects. -/
theorem exec_effect {i : Instr} {s t : State} (e : exec i s = .next t) : Effect s i t := by
  cases i with
  | writeSlotData ops =>
    rcases execWriteSlotData_cases ops s with ⟨sel, p, k, rfl, -, hk, g⟩ | ⟨_, _, -, -, -, g⟩ | ⟨-, g⟩ <;>
      cases g.symm.trans e
    exacts [.burstWritten sel k p (slotSelector_some.mp hk), .answered .., .answered ..]
  | writeShortLc ops =>
    rcases execWriteShortLc_cases ops s with ⟨-, g⟩ | ⟨-, g⟩ <;> cases g.symm.trans e
    exacts [.slcWritten ops, .answered ..]
  | writeAbort ops =>
    rcases execWriteAbort_cases ops s with ⟨_, k, -, -, g⟩ | ⟨_, -, -, g⟩ | ⟨-, g⟩ <;> cases g.symm.trans e
    exacts [.aborted ops k, .answered .., .answered ..]
  | start ops =>
    rcases execStart_cases ops s with ⟨_, -, g⟩ | ⟨_, -, -, -, g⟩ | ⟨-, g⟩ <;> cases g.symm.trans e
    exacts [.started .., .answered .., .answered ..]
  | setCal ops =>
    rcases execSetCal_cases ops s with ⟨_, -, g⟩ | ⟨_, -, -, -, g⟩ | ⟨-, g⟩ <;> cases g.symm.trans e
    exacts [.calibrated .., .answered .., .answered ..]
  | setSymlvl ops =>
    rcases execSetSymlvl_cases ops s with ⟨_, _, _, _, -, g⟩ | ⟨-, g⟩ <;> cases g.symm.trans e
    exacts [.trimmed .., .answered ..]
  | setAtSupp ops =>
    rcases execSetAtSupp_cases ops s with ⟨m, -, hm, g⟩ | ⟨_, -, -, g⟩ | ⟨-, g⟩ <;> cases g.symm.trans e
    exacts [.suppressed ops m hm, .answered .., .answered ..]
  | setColorCode ops =>
    rcases execSetColorCode_cases ops s with ⟨cc, -, hcc, g⟩ | ⟨_, -, -, g⟩ | ⟨-, g⟩ <;> cases g.symm.trans e
    exacts [.coloured ops cc hcc, .answered .., .answered ..]
  | readFreeSpace ops =>
    rcases execReadFreeSpace_cases ops s with ⟨_, _, -, -, g⟩ | ⟨_, -, -, g⟩ | ⟨-, g⟩ <;> cases g.symm.trans e
    exacts [.answered .., .answered .., .answered ..]
  | readFrameCount ops =>
    rcases execReadFrameCount_cases ops s with ⟨-, g⟩ | ⟨-, g⟩ <;> cases g.symm.trans e
    exacts [.answered .., .answered ..]
  | pollOverflow ops =>
    rcases execPollOverflow_cases ops s with ⟨b, q, rfl, hq, g⟩ | ⟨_, -, -, g⟩ | ⟨-, g⟩ <;> cases g.symm.trans e
    exacts [.polled b q _ (ringOfCode_some hq), .answered .., .answered ..]
  | buildData k =>
    rcases execBuildData_next e with ⟨-, ⟨hr, rfl⟩ | ⟨-, p, hp, rfl⟩⟩
    exacts [.dataBuilt k hr, .idleBuilt k p hp]
  | buildCach tx rx => exact (execBuildCach_next e).2 ▸ .cachBuilt tx rx
  | buildCal => exact (execBuildCal_next e).2 ▸ .calBuilt
  | emitByte => exact (execEmitByte_next e).2 ▸ .emitted
  | modulate b u => exact Host.Outcome.next.inj e ▸ .modulated b u _
  | firStep x => exact Host.Outcome.next.inj e ▸ .filtered x _
  | symbolMap | ringCapacity | ringFree | ringOccupied | ioSpace | ioIsTransmitting =>
    exact Host.Outcome.next.inj e ▸ .returned ..
  | ringPut arg =>
    cases arg with
    | sample q x => exact Host.Outcome.next.inj e ▸ .samplePut q x _
    | fifo k b => exact Host.Outcome.next.inj e ▸ .bytePut k b _
  | ringGet q =>
    cases q with
    | sample q => exact Host.Outcome.next.inj e ▸ .sampleGot q _
    | fifo k => exact Host.Outcome.next.inj e ▸ .byteGot k _
  | ringReset q => exact Host.Outcome.next.inj e ▸ .ringReset q
  | ringTakeOverflow q => exact Host.Outcome.next.inj e ▸ .overflowTaken q _
  | ioSetTransmit b => exact Host.Outcome.next.inj e ▸ .transmitSet b
  | ioPush mode batch => exact Host.Outcome.next.inj e ▸ .pushed mode batch
  | ioService rx rssi =>
    obtain ⟨q, on, out, g, rfl, -⟩ := execIoService_eq s rx rssi
    cases g.symm.trans e
    exact .serviced rx rssi on out

/-! ## The invariant through the named updates (R43) -/

section

variable {s t : State} {k : Slot} {i : Instr}

/-- The invariant reads none of these fields. -/
theorem State.Inv.unreadFields (h : s.Inv) (st : TxState) (fc : Count32) (ab : PerSlot Bool) (ac : PerSlot Count32)
    (on : Bool) (bytes : List Byte) (rsp : List (List Byte)) (out : List Item) (res : Result) (turns : List Turn) (n : Nat) :
    ({ s with
      txState := st, frameCount := fc, abort := ab, abortCount := ac, txOn := on, cmdIn := bytes, rspOut := rsp, txOut := out,
      result := res, sched := turns, freeCount := n } : State).Inv := h

theorem State.Inv.answer (h : s.Inv) (st : Status) (d : List Byte) : (s.answer st d).Inv := h

theorem State.Inv.resetRing (h : s.Inv) (q : RingId) : (s.resetRing q).Inv := by
  cases q with
  | sample q => exact h.withSampleRing q (RingBuf.reset_wf (h.sample q))
  | fifo k => exact h.withFifo k (RingBuf.reset_wf (h.fifoWf k))

theorem State.Inv.clearRingOverflow (h : s.Inv) (q : RingId) : (s.clearRingOverflow q).Inv := by
  cases q with
  | sample q => exact h.withSampleRing q (RingBuf.clearOverflow_wf (h.sample q))
  | fifo k => exact h.withFifo k (RingBuf.clearOverflow_wf (h.fifoWf k))

theorem State.Inv.putSample (h : s.Inv) (q : SampleRing) (x : Item) : (s.putSample q x).Inv :=
  h.withSampleRing q (RingBuf.put_wf x (h.sample q))

theorem State.Inv.ioPush (h : s.Inv) (mode : Byte) (batch : List Item) : (s.ioPush mode batch).Inv :=
  (h.withSampleRing .txq (RingBuf.putAll_wf batch h.txqWf)).unreadFields ..

/-- A payload of one burst, untagged. -/
theorem State.Inv.loadBurst (h : s.Inv) {p : List Byte} (hp : p.length = s.cfg.burstBytes) : (s.loadBurst p).Inv :=
  h.loadPo hp List.length_replicate (.inr rfl)

/-! ## The invariant through the builds -/

/-- A due data build finds a whole burst queued (R153, R157). -/
theorem State.Inv.length_taken (h : s.Inv) (hr : s.dataReady k = true) :
    ((s.fifo.get k).taken s.cfg.nFifo s.cfg.burstBytes).length = s.cfg.burstBytes := by
  rw [(RingBuf.gets_spec _ (h.fifoWf k)).1, List.length_take]
  exact Nat.min_eq_left ((State.dataReady_iff h).mp hr).1

theorem State.Inv.dataBranch (h : s.Inv) (hr : s.dataReady k = true) : (s.dataBranch k).Inv :=
  (h.withFifo k (RingBuf.afterGets_wf _ (h.fifoWf k))).loadBurst (h.length_taken hr)

theorem State.Inv.idleBranch (h : s.Inv) {template : List Byte} (ht : template.length = s.cfg.burstBytes) :
    (s.idleBranch k template).Inv := by
  unfold State.idleBranch
  cases s.abort.get k with
  | true => exact State.Inv.loadBurst ((h.withFifo k (RingBuf.reset_wf (h.fifoWf k))).unreadFields ..) ht
  | false => exact State.Inv.loadBurst (h.unreadFields ..) ht

/-- The cursor steps from one fragment to the next (R28, R163). -/
theorem nextCachPtr_legal {p : Byte} (h : p = 0 ∨ p = 3 ∨ p = 6 ∨ p = 9) :
    nextCachPtr p = 0 ∨ nextCachPtr p = 3 ∨ nextCachPtr p = 6 ∨ nextCachPtr p = 9 := by
  rcases h with rfl | rfl | rfl | rfl <;> decide

theorem State.Inv.loadCach (h : s.Inv) (tx rx : Slot) : (s.loadCach tx rx).Inv := by
  have hpo : (s.loadPo (orControlBits s.cfg.ctrlPos (s.cachBits tx rx) s.fragment) (cachTags rx) cachBytes).Inv :=
    h.loadPo (by simp [State.fragment]) rfl (.inl rfl)
  obtain ⟨hwf, hrings, hbuf, hptr, hregs⟩ := hpo
  exact ⟨hwf, hrings, hbuf, nextCachPtr_legal hptr, hregs⟩

theorem State.Inv.emitCurrent (h : s.Inv) : s.emitCurrent.Inv :=
  State.Inv.advancePo (State.Inv.ioPush (h.withFir (length_firNextAll ..)) ..)

/-! ## The invariant through the host commands -/

theorem State.Inv.writeBurst (h : s.Inv) (k : Slot) (payload : List Byte) : (s.writeBurst k payload).Inv := by
  unfold State.writeBurst
  split
  · exact (h.withFifo k (RingBuf.reset_wf (h.fifoWf k))).answer ..
  · exact (h.withFifo k (RingBuf.putAll_wf payload (h.fifoWf k))).unreadFields ..

theorem State.Inv.withSlcPending (h : s.Inv) {p : List Byte} (hp : p.length = slcBytes) :
    ({ s with slcPending := p } : State).Inv := by
  obtain ⟨hwf, hrings, hpo, hptr, ht3, ht1, hmode, hlive, -, hrest⟩ := h
  exact ⟨hwf, hrings, hpo, hptr, ht3, ht1, hmode, hlive, hp, hrest⟩

theorem State.Inv.withTrims (h : s.Inv) {a b : Sample} (ha : trimOk a) (hb : trimOk b) :
    ({ s with trim3 := a, trim1 := b } : State).Inv := by
  obtain ⟨hwf, hrings, hpo, hptr, -, -, hrest⟩ := h
  exact ⟨hwf, hrings, hpo, hptr, ha, hb, hrest⟩

theorem State.Inv.withAtMode (h : s.Inv) {m : Byte} (hm : m.toNat ≤ 3) : ({ s with atMode := m } : State).Inv := by
  obtain ⟨hwf, hrings, hpo, hptr, ht3, ht1, -, hrest⟩ := h
  exact ⟨hwf, hrings, hpo, hptr, ht3, ht1, Nat.lt_succ_of_le hm, hrest⟩

/-- A colour code and its template are written together (R31, R32). -/
theorem State.Inv.withColour (h : s.Inv) {cc : Byte} (hcc : cc.toNat ≤ 15) :
    ({ s with idle := some (s.cfg.idleTemplate cc), colourCode := some cc } : State).Inv := by
  have hlen := Config.idleTemplate_length h.clauses cc
  obtain ⟨hwf, hrings, hpo, hptr, ht3, ht1, hmode, hlive, hpend, hfir, -, -, -⟩ := h
  exact ⟨hwf, hrings, hpo, hptr, ht3, ht1, hmode, hlive, hpend, hfir, by simpa using hcc, by simpa using hlen, rfl⟩

/-! ## The invariant through a step -/

theorem State.Inv.length_template (h : s.Inv) {p : List Byte} (hp : s.idle = some p) : p.length = s.cfg.burstBytes := by
  obtain ⟨-, -, -, -, -, -, -, -, -, -, -, hidle, -⟩ := h
  exact hidle p hp

theorem State.Inv.afterService (h : s.Inv) (rx rssi : Word16) (on : Bool) (out : Item) :
    (s.afterService rx rssi on out).Inv := by
  obtain ⟨hwf, ⟨htx, hrx, hrssi, hfifos⟩, hrest⟩ := h
  refine ⟨hwf, ⟨RingBuf.get_wf htx, RingBuf.put_wf _ hrx, ?_, hfifos⟩, hrest⟩
  dsimp only [State.afterService]
  split
  exacts [RingBuf.put_wf _ hrssi, hrssi]

/-- Every effect an operation can have keeps the invariant. -/
theorem Effect.inv (he : Effect s i t) (h : s.Inv) : t.Inv := by
  cases he with
  | answered | returned | aborted | started | calibrated | transmitSet => exact h.unreadFields ..
  | burstWritten _ k p => exact h.writeBurst k p
  | slcWritten => exact h.withSlcPending (length_scatterSlc ..)
  | trimmed => exact h.withTrims (trimOk_clampTrim _) (trimOk_clampTrim _)
  | suppressed _ _ hm => exact h.withAtMode hm
  | coloured _ _ hcc => exact h.withColour hcc
  | polled _ q => exact h.clearRingOverflow q
  | dataBuilt _ hr => exact (h.dataBranch hr).unreadFields ..
  | idleBuilt _ _ hp => exact (h.idleBranch (h.length_template hp)).unreadFields ..
  | cachBuilt tx rx => exact ((State.Inv.slcSwap (s := s.bumpCounters) h).loadCach tx rx).unreadFields ..
  | calBuilt => exact (h.loadBurst h.clauses.calBurst).unreadFields ..
  | emitted => exact h.emitCurrent
  | modulated => exact h.withFir (length_firNextAll ..)
  | filtered => exact h.withFir (length_firNext ..)
  | samplePut q x => exact h.putSample q x
  | bytePut k b => exact h.withFifo k (RingBuf.put_wf b (h.fifoWf k))
  | sampleGot q => exact h.withSampleRing q (RingBuf.get_wf (h.sample q))
  | byteGot k => exact h.withFifo k (RingBuf.get_wf (h.fifoWf k))
  | ringReset q => exact h.resetRing q
  | overflowTaken q => exact h.clearRingOverflow q
  | pushed mode batch => exact h.ioPush mode batch
  | serviced rx rssi on out => exact h.afterService rx rssi on out

end

/-! ## The invariant at reset (R300) -/

theorem trimOk_zero : trimOk 0 := by unfold trimOk; decide

theorem State.resetWith_inv {c : Config} (hc : c.wf = true) : (State.resetWith c).Inv := by
  have h := (Config.wf_iff c).mp hc
  have htx : 1 ≤ c.nTx := Nat.one_le_of_lt h.nTx
  have hfifo : 1 ≤ c.nFifo := le_trans (by decide) (h.burst.trans h.nFifo)
  refine ⟨hc, ⟨?_, ?_, ?_, ?_, ?_⟩, ?_, ?_⟩
  · exact RingBuf.fresh_wf _ htx
  · exact RingBuf.fresh_wf _ h.nRx
  · exact RingBuf.fresh_wf _ h.nRssi
  · exact RingBuf.fresh_wf _ hfifo
  · exact RingBuf.fresh_wf _ hfifo
  · exact ⟨List.length_replicate, List.length_replicate, .inl rfl, fun _ => rfl,
      fun hpos => absurd hpos (Nat.lt_irrefl 0)⟩
  · exact ⟨.inl rfl, trimOk_zero, trimOk_zero, Nat.zero_lt_succ 3, List.length_replicate, List.length_replicate,
      List.length_replicate, nofun, nofun, rfl⟩

/-! ## What a ring operation leaves of a ring's registers, in any state -/

section

variable {α : Type} (n : Nat) (r : RingBuf α)

theorem RingBuf.put_tail (x : α) : (r.put n x).1.tail = r.tail := by
  unfold RingBuf.put
  split <;> rfl

theorem RingBuf.putAll_tail (xs : List α) : (r.putAll n xs).tail = r.tail := by
  induction xs generalizing r with
  | nil => rfl
  | cons x xs ih => exact (ih _).trans (r.put_tail n x)

/-- A get writes neither the storage, nor the write cursor, nor the latch. -/
theorem RingBuf.get_frame :
    (r.get n).2.buf = r.buf ∧ (r.get n).2.head = r.head ∧ (r.get n).2.overflow = r.overflow := by
  unfold RingBuf.get
  split
  · exact ⟨rfl, rfl, rfl⟩
  · split <;> exact ⟨rfl, rfl, rfl⟩

theorem RingBuf.afterGets_frame (k : Nat) :
    (r.afterGets n k).buf = r.buf ∧ (r.afterGets n k).head = r.head ∧ (r.afterGets n k).overflow = r.overflow := by
  induction k generalizing r with
  | zero => exact ⟨rfl, rfl, rfl⟩
  | succ k ih =>
    obtain ⟨hbuf, hhead, hover⟩ := r.get_frame n
    obtain ⟨ibuf, ihead, iover⟩ := ih (r.get n).2
    exact ⟨ibuf.trans hbuf, ihead.trans hhead, iover.trans hover⟩

end

/-! ## The writers of a ring (R36, R37) -/

/-- Operation `i`, which leaves `r'` where ring `q` was `r`, is a writer of every register of the ring that changed. -/
structure RingWriters {α : Type} (i : Instr) (q : RingId) (r r' : RingBuf α) : Prop where
  buf : r'.buf ≠ r.buf → putsOn i q
  head : r'.head ≠ r.head → putsOn i q ∨ resetsRing i q
  tail : r'.tail ≠ r.tail → getsFrom i q ∨ resetsRing i q
  full : r'.full ≠ r.full → putsOn i q ∨ getsFrom i q ∨ resetsRing i q
  overflow : r'.overflow ≠ r.overflow → putsOn i q ∨ resetsRing i q ∨ takesOverflow i q

namespace RingWriters

variable {α : Type} {i : Instr} {q : RingId} {r : RingBuf α}

theorem unchanged : RingWriters i q r r :=
  ⟨absurd rfl, absurd rfl, absurd rfl, absurd rfl, absurd rfl⟩

theorem of_tail_eq {r' : RingBuf α} (hi : putsOn i q) (h : r'.tail = r.tail) : RingWriters i q r r' :=
  ⟨fun _ => hi, fun _ => .inl hi, absurd h, fun _ => .inl hi, fun _ => .inl hi⟩

theorem put (hi : putsOn i q) (n : Nat) (x : α) : RingWriters i q r (r.put n x).1 := of_tail_eq hi (r.put_tail n x)

theorem putAll (hi : putsOn i q) (n : Nat) (xs : List α) : RingWriters i q r (r.putAll n xs) :=
  of_tail_eq hi (r.putAll_tail n xs)

theorem of_get_frame {r' : RingBuf α} (hi : getsFrom i q)
    (h : r'.buf = r.buf ∧ r'.head = r.head ∧ r'.overflow = r.overflow) : RingWriters i q r r' :=
  ⟨absurd h.1, absurd h.2.1, fun _ => .inl hi, fun _ => .inr (.inl hi), absurd h.2.2⟩

theorem get (hi : getsFrom i q) (n : Nat) : RingWriters i q r (r.get n).2 := of_get_frame hi (r.get_frame n)

theorem afterGets (hi : getsFrom i q) (n k : Nat) : RingWriters i q r (r.afterGets n k) :=
  of_get_frame hi (r.afterGets_frame n k)

theorem reset (hi : resetsRing i q) : RingWriters i q r r.reset :=
  ⟨absurd rfl, fun _ => .inr hi, fun _ => .inr hi, fun _ => .inr (.inr hi), fun _ => .inr (.inl hi)⟩

theorem clearOverflow (hi : takesOverflow i q) : RingWriters i q r r.clearOverflow :=
  ⟨absurd rfl, absurd rfl, absurd rfl, absurd rfl, fun _ => .inr (.inr hi)⟩

end RingWriters

/-! ## The writers of every register (R22-R38) -/

/-- Operation `i`, which takes `s` to `t`, is a writer of every register that changed. -/
structure Writers (i : Instr) (s t : State) : Prop where
  cfg : t.cfg = s.cfg
  frameCount : t.frameCount ≠ s.frameCount → (∃ tx rx, i = .buildCach tx rx) ∨ ∃ p, i = .start p
  abort : t.abort ≠ s.abort → (∃ k, i = .buildData k) ∨ (∃ p, i = .writeAbort p) ∨ ∃ p, i = .start p
  abortCount : t.abortCount ≠ s.abortCount →
    (∃ tx rx, i = .buildCach tx rx) ∨ (∃ p, i = .writeAbort p) ∨ ∃ p, i = .start p
  slcLive : t.slcLive ≠ s.slcLive → s.cachPtr = 0 ∧ ∃ tx rx, i = .buildCach tx rx
  slcPending : t.slcPending ≠ s.slcPending → ∃ p, i = .writeShortLc p
  cachPtr : t.cachPtr ≠ s.cachPtr → ∃ tx rx, i = .buildCach tx rx
  trims : t.trim3 ≠ s.trim3 ∨ t.trim1 ≠ s.trim1 → ∃ p, i = .setSymlvl p
  atMode : t.atMode ≠ s.atMode → ∃ p, i = .setAtSupp p
  colour : t.idle ≠ s.idle ∨ t.colourCode ≠ s.colourCode → ∃ p, i = .setColorCode p
  fir : t.fir ≠ s.fir → i = .emitByte ∨ (∃ b u, i = .modulate b u) ∨ ∃ x, i = .firStep x
  txOn : t.txOn ≠ s.txOn →
    i = .emitByte ∨ (∃ m b, i = .ioPush m b) ∨ (∃ b, i = .ioSetTransmit b) ∨ ∃ a b, i = .ioService a b
  txState : t.txState ≠ s.txState → isBuild i ∨ (∃ p, i = .start p) ∨ (∃ p, i = .setCal p)
    ∨ (s.txState = .idle ∧ t.txState = .slot1 ∧ ∃ p, i = .writeSlotData p)
  poBytes : t.poBuf ≠ s.poBuf ∨ t.poTag ≠ s.poTag → isBuild i
  poCursor : t.poLen ≠ s.poLen ∨ t.poPtr ≠ s.poPtr → isBuild i ∨ i = .emitByte
  sample : ∀ q, RingWriters i (.sample q) (s.sampleRing q) (t.sampleRing q)
  fifo : ∀ k, RingWriters i (.fifo k) (s.fifo.get k) (t.fifo.get k)

namespace Writers

variable {i : Instr} {s t : State}

theorem unchanged (i : Instr) (s : State) : Writers i s s :=
  { cfg := rfl, frameCount := absurd rfl, abort := absurd rfl, abortCount := absurd rfl, slcLive := absurd rfl
    slcPending := absurd rfl, cachPtr := absurd rfl, trims := by simp, atMode := absurd rfl, colour := by simp
    fir := absurd rfl, txOn := absurd rfl, txState := absurd rfl, poBytes := by simp, poCursor := by simp
    sample := fun _ => .unchanged, fifo := fun _ => .unchanged }

theorem answer (h : Writers i s t) (st : Status) (d : List Byte) : Writers i s (t.answer st d) := { h with }

theorem returned (h : Writers i s t) (r : Result) : Writers i s (t.returned r) := { h with }

theorem withFifo {k : Slot} {r : RingBuf Byte} (hr : RingWriters i (.fifo k) (s.fifo.get k) r) :
    Writers i s (s.withFifo k r) :=
  { unchanged i s with
    fifo := fun l => by
      by_cases h : l = k
      · subst h
        simpa using hr
      · rw [State.withFifo_fifo, PerSlot.get_set_other _ _ _ _ h]
        exact .unchanged }

theorem withSampleRing {q : SampleRing} {r : RingBuf Item} (hr : RingWriters i (.sample q) (s.sampleRing q) r) :
    Writers i s (s.withSampleRing q r) := by
  have hsample : ∀ p, RingWriters i (.sample p) (s.sampleRing p) ((s.withSampleRing q r).sampleRing p) := by
    intro p
    by_cases h : p = q
    · subst h
      simpa using hr
    · rw [State.sampleRing_withSampleRing_other _ _ _ _ h]
      exact .unchanged
  cases q <;> exact { unchanged i s with sample := hsample }

theorem resetRing {q : RingId} (hi : resetsRing i q) : Writers i s (s.resetRing q) := by
  cases q with
  | sample q => exact withSampleRing (.reset hi)
  | fifo k => exact withFifo (.reset hi)

theorem clearRingOverflow {q : RingId} (hi : takesOverflow i q) : Writers i s (s.clearRingOverflow q) := by
  cases q with
  | sample q => exact withSampleRing (.clearOverflow hi)
  | fifo k => exact withFifo (.clearOverflow hi)

/-! Builds and the emit step -/

theorem loadPo (h : Writers i s t) (hi : isBuild i) (p : List Byte) (u : List Tag) (n : Nat) : Writers i s (t.loadPo p u n) :=
  { h with poBytes := fun _ => hi, poCursor := fun _ => .inl hi }

theorem advance (h : Writers i s t) (hi : isBuild i) : Writers i s t.advance := { h with txState := fun _ => .inl hi }

theorem withAbort (h : Writers i s t) (hi : (∃ k, i = .buildData k) ∨ (∃ p, i = .writeAbort p) ∨ ∃ p, i = .start p)
    (ab : PerSlot Bool) : Writers i s { t with abort := ab } := { h with abort := fun _ => hi }

theorem advancePo (h : Writers i s t) (hi : i = .emitByte) : Writers i s t.advancePo := by
  unfold State.advancePo
  split <;> exact { h with poCursor := fun _ => .inr hi }

theorem dataBranch (s : State) (k : Slot) : Writers (.buildData k) s (s.dataBranch k) :=
  loadPo (withFifo (.afterGets (.inr (.inr ⟨k, rfl, rfl⟩)) ..)) (.inl ⟨k, rfl⟩) ..

theorem idleBranch (s : State) (k : Slot) (p : List Byte) : Writers (.buildData k) s (s.idleBranch k p) := by
  have hreset : Writers (.buildData k) s (if s.abort.get k then s.withFifo k (s.fifo.get k).reset else s) := by
    split
    · exact withFifo (.reset (.inr ⟨k, rfl, .inl rfl⟩))
    · exact unchanged ..
  exact (hreset.withAbort (.inl ⟨k, rfl⟩) _).loadPo (.inl ⟨k, rfl⟩) ..

theorem slcSwap (tx rx : Slot) (s : State) : Writers (.buildCach tx rx) s s.slcSwap := by
  unfold State.slcSwap
  split
  · exact { unchanged _ s with slcLive := fun _ => ⟨‹_›, tx, rx, rfl⟩ }
  · exact unchanged ..

theorem loadCach (tx rx : Slot) (s : State) :
    Writers (.buildCach tx rx) s (s.bumpCounters.slcSwap.loadCach tx rx) := by
  have hswap := slcSwap tx rx s.bumpCounters
  have hbump : Writers (.buildCach tx rx) s s.bumpCounters.slcSwap :=
    { hswap with
      frameCount := fun _ => .inl ⟨tx, rx, rfl⟩
      abortCount := fun _ => .inl ⟨tx, rx, rfl⟩ }
  exact { hbump.loadPo (.inr (.inl ⟨tx, rx, rfl⟩)) _ _ _ with cachPtr := fun _ => ⟨tx, rx, rfl⟩ }

/-- The modulated byte is pushed, before the cursor moves (R155). -/
theorem emittedByte (s : State) (f : List Sample) (mode : Byte) (batch : List Item) :
    Writers .emitByte s (({ s with fir := f } : State).ioPush mode batch) :=
  have hput : Writers .emitByte s (s.withSampleRing .txq (s.txq.putAll s.cfg.nTx batch)) :=
    withSampleRing (.putAll (.inr (.inl ⟨rfl, .inl rfl⟩)) ..)
  { hput with fir := fun _ => .inl rfl, txOn := fun _ => .inl rfl }

theorem emitCurrent (s : State) : Writers .emitByte s s.emitCurrent := (emittedByte ..).advancePo rfl

/-! Host commands and the service step -/

/-- WRITE_SLOT_DATA writes the framing state only where it leaves Idle (R175). -/
theorem leaveIdle {p : List Byte} (h : Writers (.writeSlotData p) s t) : Writers (.writeSlotData p) s
    { t with txState := if s.txState = TxState.idle then .slot1 else s.txState } :=
  { h with
    txState := fun hne => by
      by_cases hidle : s.txState = .idle
      · exact .inr (.inr (.inr ⟨hidle, if_pos hidle, p, rfl⟩))
      · exact absurd (if_neg hidle) hne }

theorem writeBurst (s : State) {sel : Byte} {k : Slot} (hk : sel.toNat = k.index + 1) (p : List Byte) :
    Writers (.writeSlotData (sel :: p)) s (s.writeBurst k p) := by
  unfold State.writeBurst
  split
  · exact (withFifo (.reset (.inr ⟨k, rfl, .inr ⟨sel, p, rfl, hk⟩⟩))).answer ..
  · exact (withFifo (.putAll (.inr (.inr (.inr ⟨k, sel, p, rfl, rfl, hk⟩))) ..)).leaveIdle.answer ..

theorem afterService (s : State) (rx rssi : Word16) (on : Bool) (out : Item) :
    Writers (.ioService rx rssi) s (s.afterService rx rssi on out) :=
  { unchanged _ s with
    txOn := fun _ => .inr (.inr (.inr ⟨rx, rssi, rfl⟩))
    sample := fun q => by
      cases q with
      | txq => exact .get (.inr (.inl ⟨rfl, rx, rssi, rfl⟩)) _
      | rxq => exact .put (.inr (.inr (.inl ⟨.inl rfl, rx, rssi, rfl⟩))) ..
      | rssiq =>
        dsimp only [State.sampleRing, State.afterService]
        split
        · exact .put (.inr (.inr (.inl ⟨.inr rfl, rx, rssi, rfl⟩))) ..
        · exact .unchanged }

end Writers

/-- Whatever an operation did, it is a writer of what it changed. -/
theorem Effect.writers {i : Instr} {s t : State} (he : Effect s i t) : Writers i s t := by
  cases he with
  | answered => exact (Writers.unchanged i s).answer ..
  | returned => exact (Writers.unchanged i s).returned ..
  | burstWritten _ _ p hk => exact .writeBurst s hk p
  | slcWritten => exact { Writers.unchanged _ s with slcPending := fun _ => ⟨_, rfl⟩ }
  | aborted =>
    exact { Writers.unchanged _ s with
      abort := fun _ => .inr (.inl ⟨_, rfl⟩), abortCount := fun _ => .inr (.inl ⟨_, rfl⟩) }
  | started =>
    exact { Writers.unchanged _ s with
      txState := fun _ => .inr (.inl ⟨_, rfl⟩), frameCount := fun _ => .inr ⟨_, rfl⟩
      abort := fun _ => .inr (.inr ⟨_, rfl⟩), abortCount := fun _ => .inr (.inr ⟨_, rfl⟩) }
  | calibrated => exact { Writers.unchanged _ s with txState := fun _ => .inr (.inr (.inl ⟨_, rfl⟩)) }
  | trimmed => exact { Writers.unchanged _ s with trims := fun _ => ⟨_, rfl⟩ }
  | suppressed => exact { Writers.unchanged _ s with atMode := fun _ => ⟨_, rfl⟩ }
  | coloured => exact { Writers.unchanged _ s with colour := fun _ => ⟨_, rfl⟩ }
  | polled b q d hq => exact (Writers.clearRingOverflow (.inr ⟨b, rfl, hq⟩)).answer ..
  | dataBuilt k => exact (Writers.dataBranch s k).advance (.inl ⟨k, rfl⟩)
  | idleBuilt k p => exact (Writers.idleBranch s k p).advance (.inl ⟨k, rfl⟩)
  | cachBuilt tx rx => exact (Writers.loadCach tx rx s).advance (.inr (.inl ⟨tx, rx, rfl⟩))
  | calBuilt => exact ((Writers.unchanged _ s).loadPo (.inr (.inr rfl)) _ _ _).advance (.inr (.inr rfl))
  | emitted => exact .emitCurrent s
  | modulated b u => exact { Writers.unchanged _ s with fir := fun _ => .inr (.inl ⟨b, u, rfl⟩) }
  | filtered x => exact { Writers.unchanged _ s with fir := fun _ => .inr (.inr ⟨x, rfl⟩) }
  | samplePut q x => exact (Writers.withSampleRing (.put (.inl ⟨_, rfl, rfl⟩) ..)).returned _
  | bytePut k b => exact (Writers.withFifo (.put (.inl ⟨_, rfl, rfl⟩) ..)).returned _
  | sampleGot q => exact (Writers.withSampleRing (.get (.inl rfl) _)).returned _
  | byteGot k => exact (Writers.withFifo (.get (.inl rfl) _)).returned _
  | ringReset q => exact .resetRing (.inl rfl)
  | overflowTaken q => exact (Writers.clearRingOverflow (.inl rfl)).returned _
  | transmitSet b => exact { Writers.unchanged _ s with txOn := fun _ => .inr (.inr (.inl ⟨b, rfl⟩)) }
  | pushed mode batch =>
    have hput : Writers (.ioPush mode batch) s (s.withSampleRing .txq (s.txq.putAll s.cfg.nTx batch)) :=
      Writers.withSampleRing (.putAll (.inr (.inl ⟨rfl, .inr ⟨mode, batch, rfl⟩⟩)) ..)
    exact { hput with txOn := fun _ => .inr (.inl ⟨mode, batch, rfl⟩) }
  | serviced rx rssi on out => exact .afterService s rx rssi on out

/-! ## The statements -/

/-- Settles O55: every effect an operation can have keeps the invariant, and a step moves bytes and turns or runs one
operation. -/
theorem everyStepKeepsTheInvariant : Obligations.EveryStepKeepsTheInvariant := by
  intro s t h hstep
  obtain ⟨-, turns, n, ⟨bytes, out, rfl⟩ | ⟨bytes, i, he, -⟩⟩ := step_next hstep
  · exact h.unreadFields ..
  · exact (exec_effect he).inv (h.unreadFields ..)

/-- Settles O56: every field of the reset state is in its legal set, and the configuration of log 2 is well-formed. -/
theorem resetMeetsTheInvariant : Obligations.ResetMeetsTheInvariant :=
  ⟨fun _ hc => ⟨State.resetWith_inv hc, rfl, rfl⟩, State.resetWith_inv (by decide)⟩

/-- Settles O60: `Writers` of the operation's effect, ring by ring. -/
theorem registersHaveOnlyTheirWriters : Obligations.RegistersHaveOnlyTheirWriters := by
  intro i s t e
  have h := (exec_effect e).writers
  refine ⟨h.cfg, h.frameCount, h.abort, h.abortCount, h.slcLive, h.slcPending, h.cachPtr, h.trims, h.atMode, h.colour, h.fir,
    h.txOn, h.txState, h.poBytes, h.poCursor, fun q => (h.sample q).buf, fun k => (h.fifo k).buf, fun q => ?_⟩
  cases q with
  | sample q => exact ⟨(h.sample q).head, (h.sample q).tail, (h.sample q).full, (h.sample q).overflow⟩
  | fifo k => exact ⟨(h.fifo k).head, (h.fifo k).tail, (h.fifo k).full, (h.fifo k).overflow⟩

end Sys2Proof.Machine

/-! # Proofs: memory (spec/20_memory.md)

R72: a ring is a bounded queue. Every ring operation commutes with reading a ring as the queue of its stored items and
its latch. -/

namespace Sys2Proof.Machine

open Sys2Proof.Claims

section

variable {α : Type} {n : Nat} {r : RingBuf α}

/-- What a ring of capacity `n` stands for: its stored items and its lost-item latch (R72). -/
def RingBuf.toQueue (n : Nat) (r : RingBuf α) : List α × Bool := (r.items n, r.overflow)

theorem RingBuf.toQueue_fresh (n : Nat) (filler : α) : (RingBuf.fresh n filler).toQueue n = ([], false) :=
  congrArg (·, false) (items_fresh n filler)

theorem RingBuf.notFull_iff (hw : r.Wf n) : r.full = false ↔ (r.items n).length < n := by
  rw [← Bool.not_eq_true, full_iff hw]
  exact ⟨(length_items_le hw).lt_of_ne, Nat.ne_of_lt⟩

theorem ringStep_wf (hw : r.Wf n) (op : QueueOp α) : (ringStep n r op).2.Wf n := by
  cases op with
  | put x => exact RingBuf.put_wf x hw
  | get => exact RingBuf.get_wf hw
  | reset => exact RingBuf.reset_wf hw
  | takeOverflow => exact RingBuf.clearOverflow_wf hw

/-- One operation on a ring answers what the queue answers, and leaves a ring that stands for the queue's next state. -/
theorem queueStep_toQueue (hw : r.Wf n) (op : QueueOp α) :
    queueStep n (r.toQueue n) op = ((ringStep n r op).1, (ringStep n r op).2.toQueue n) := by
  cases op with
  | put x =>
    cases hfull : r.full with
    | true =>
      have hroom : ¬ (r.items n).length < n := by rw [← RingBuf.notFull_iff hw, hfull]; decide
      simp only [queueStep, ringStep, RingBuf.toQueue, RingBuf.put_full n r x hfull]
      exact if_neg hroom
    | false =>
      obtain ⟨hret, hover, hitems⟩ := RingBuf.put_notFull x hw hfull
      simp only [queueStep, ringStep, RingBuf.toQueue, hret, hover, hitems]
      exact if_pos ((RingBuf.notFull_iff hw).mp hfull)
  | get =>
    obtain ⟨hret, hitems, hover, -⟩ := RingBuf.get_spec hw
    simp only [queueStep, ringStep, RingBuf.toQueue, hret, hitems, hover]
  | reset =>
    simp only [queueStep, ringStep, RingBuf.toQueue, RingBuf.items_reset]
    rfl
  | takeOverflow => rfl

/-- From any well-formed ring, a sequence of operations answers what the queue the ring stands for answers. -/
theorem ringRun_eq_queueRun (hw : r.Wf n) (ops : List (QueueOp α)) :
    ringRun n r ops = queueRun n (r.toQueue n) ops := by
  induction ops generalizing r with
  | nil => rfl
  | cons op ops ih => rw [ringRun, queueRun, queueStep_toQueue hw op, ih (ringStep_wf hw op)]

end

/-- Settles O13: a fresh ring is well-formed and stands for the empty queue, and every run from there agrees. -/
theorem ringsRefineBoundedQueues : Obligations.RingsRefineBoundedQueues := by
  intro α n filler ops hn
  rw [ringRun_eq_queueRun (RingBuf.fresh_wf filler hn), RingBuf.toQueue_fresh]

end Sys2Proof.Machine

/-! # Proofs: encoding (spec/30_encoding.md)

An operation and its written form determine each other: `decode_encode` reads back what the encoder writes, and
`encode_of_decode` says that nothing else is read. The maps of R84 and R98 follow from these two. -/

namespace Sys2Proof

open Sys2Proof.Claims

/-! ## Chains of tests as tables

Both maps test a code against one row after another. As a table, each is read row by row. -/

section

variable {κ β : Type} [DecidableEq κ]

/-- The entry of the first row with the key `k`, or `other` where no row has it. -/
def firstRow (k : κ) (rows : List (κ × β)) (other : β) : β :=
  rows.foldr (fun row rest => if k = row.1 then row.2 else rest) other

theorem firstRow_cases (k : κ) (rows : List (κ × β)) (other : β) :
    (∃ row ∈ rows, k = row.1 ∧ firstRow k rows other = row.2)
      ∨ ((∀ row ∈ rows, k ≠ row.1) ∧ firstRow k rows other = other) := by
  induction rows with
  | nil => exact .inr ⟨nofun, rfl⟩
  | cons row rows ih =>
    by_cases hk : k = row.1
    · exact .inl ⟨row, List.mem_cons_self, hk, if_pos hk⟩
    · rw [show firstRow k (row :: rows) other = firstRow k rows other from if_neg hk]
      rcases ih with ⟨r, hr, hkr, he⟩ | ⟨hne, he⟩
      · exact .inl ⟨r, List.mem_cons_of_mem _ hr, hkr, he⟩
      · exact .inr ⟨List.forall_mem_cons.mpr ⟨hk, hne⟩, he⟩

end

/-! ## Frames (R81, R84) -/

/-- R84's map, at given operand bytes. -/
def hostRows (ops : List Byte) : List (Byte × Option Instr) :=
  [(0x01, some (.writeSlotData ops)), (0x02, some (.writeShortLc ops)), (0x03, some (.writeAbort ops)),
   (0x04, some (.start ops)), (0x05, some (.setCal ops)), (0x06, some (.setSymlvl ops)), (0x07, some (.setAtSupp ops)),
   (0x08, some (.setColorCode ops)), (0x09, some (.readFreeSpace ops)), (0x0A, some (.readFrameCount ops)),
   (0x0B, some (.pollOverflow ops))]

theorem hostCommand_eq_firstRow (op : Byte) (ops : List Byte) : hostCommand op ops = firstRow op (hostRows ops) none := rfl

/-- Each row is a command that is written under the row's opcode. -/
theorem hostRows_encode (ops : List Byte) : ∀ row ∈ hostRows ops, ∃ i,
    row.2 = some i ∧ encode i = frameOf row.1 ops ∧ i.wf = operandsFit ops := by
  simp [hostRows, encode, Instr.wf]

section

variable {op : Byte} {ops bytes rest : List Byte} {i : Instr}

/-- A command that is read stands in front of the input as one frame, whose `len` counts its operand bytes. -/
theorem readFrame_command (h : readFrame bytes = .command i rest) :
    ∃ op ops, bytes = op :: BitVec.ofNat 8 ops.length :: (ops ++ rest) ∧ ops.length ≤ 255 ∧ hostCommand op ops = some i := by
  match bytes with
  | [] | [_] => simp [readFrame] at h
  | op :: len :: tail =>
    rw [readFrame] at h
    split_ifs at h with hshort
    have hlen : (tail.take len.toNat).length = len.toNat := List.length_take_of_le (not_lt.mp hshort)
    refine ⟨op, tail.take len.toNat, ?_, ?_, ?_⟩
    · rw [hlen, BitVec.ofNat_toNat, BitVec.setWidth_eq]
      split at h <;> cases h
      rw [List.take_append_drop]
    · have := len.isLt
      omega
    · split at h <;> cases h
      assumption

/-- A command is written under the opcode that selects it, and its `len` byte can count its operands. -/
theorem encode_of_hostCommand (h : hostCommand op ops = some i) :
    encode i = frameOf op ops ∧ i.wf = operandsFit ops := by
  rw [hostCommand_eq_firstRow] at h
  rcases firstRow_cases op (hostRows ops) none with ⟨row, hrow, rfl, he⟩ | ⟨-, he⟩
  · obtain ⟨j, hj, hwritten⟩ := hostRows_encode ops row hrow
    rw [he, hj] at h
    cases h
    exact hwritten
  · rw [he] at h
    cases h

theorem hostCommand_eq_none_iff : hostCommand op ops = none ↔ ∀ row ∈ hostRows ops, op ≠ row.1 := by
  rw [hostCommand_eq_firstRow]
  rcases firstRow_cases op (hostRows ops) none with ⟨row, hrow, hop, he⟩ | ⟨hne, he⟩
  · obtain ⟨i, hi, -⟩ := hostRows_encode ops row hrow
    rw [he, hi]
    exact iff_of_false nofun fun h => h row hrow hop
  · exact iff_of_true he hne

theorem decode_frameOf (hc : hostCommand op ops = some i) (hlen : ops.length ≤ 255) : decode (frameOf op ops) = .ok i := by
  have h := readFrame_append op ops [] hlen
  rw [List.append_nil, hc] at h
  rw [frameOf, decode, h]

theorem encode_of_decode_frame (h : decode (.frame bytes) = .ok i) : encode i = .frame bytes ∧ i.wf = true := by
  rw [decode] at h
  split at h <;> cases h
  next hr =>
    obtain ⟨op, ops, rfl, hlen, hc⟩ := readFrame_command hr
    obtain ⟨he, hw⟩ := encode_of_hostCommand hc
    rw [he, hw, frameOf, List.append_nil]
    exact ⟨rfl, decide_eq_true hlen⟩

end

/-! ## What the shapes of words write and read (R97-R99) -/

section

variable {code field : Nat} {ops : List Word16} {i j : Instr}

theorem RingId.code_lt (q : RingId) : q.code < 256 := by rcases q with q | k <;> [cases q; cases k] <;> decide

theorem putOperand_words (a : PutArg) : putOperand a.ring a.words = some a := by
  cases a with
  | sample q x => simp [putOperand, PutArg.ring, PutArg.words, Item.words, tagOperand_word]
  | fifo k b => simp [putOperand, PutArg.ring, PutArg.words, byteOperand_word]

theorem decode_wordOf (hc : code < 256) (hf : field < 256) : decode (wordOf code field ops) = decodeFields code field ops :=
  decodeWord_fields code field ops hc hf

/-- Code and field are the two bytes of the word (R97). -/
theorem wordOf_div_mod (w : Word16) : wordOf (w.toNat / 256) (w.toNat % 256) ops = .word w ops := by
  rw [wordOf, Nat.div_add_mod', BitVec.ofNat_toNat, BitVec.setWidth_eq]

theorem wordOf_eq_add (code field : Nat) (ops : List Word16) :
    wordOf code field ops = .word (BitVec.ofNat 16 (code * 256) + BitVec.ofNat 16 field) ops := by
  rw [wordOf, BitVec.ofNat_add]

/-- A code whose field is a ring id reads back the ring. -/
theorem decode_ringWord {make : RingId → Instr} (hc : code < 256)
    (hd : ∀ f, decodeFields code f [] = ringWord f [] make) (q : RingId) :
    decode (wordOf code q.code []) = .ok (make q) := by
  rw [decode_wordOf hc q.code_lt, hd, ringWord, ringOfCode_code]

/-- The operation `i` is what the code, field and operand words write, and it can be written. -/
def WrittenAs (i : Instr) (code field : Nat) (ops : List Word16) : Prop :=
  encode i = wordOf code field ops ∧ i.wf = true

theorem writtenAs_of_plainWord (h : plainWord field ops i = .ok j) (hi : WrittenAs i code 0 []) :
    WrittenAs j code field ops := by
  obtain ⟨rfl, rfl, rfl⟩ := plainWord_ok h
  exact hi

theorem writtenAs_of_ringWord {make : RingId → Instr} (h : ringWord field ops make = .ok j)
    (hm : ∀ q, WrittenAs (make q) code q.code []) : WrittenAs j code field ops := by
  obtain ⟨q, rfl, rfl, rfl⟩ := ringWord_ok h
  exact hm q

theorem writtenAs_of_operandWord {read : List Word16 → Option Instr} (h : operandWord field (read ops) = .ok j)
    (hr : read ops = some j → WrittenAs j code 0 ops) : WrittenAs j code field ops := by
  obtain ⟨rfl, hread⟩ := operandWord_ok h
  exact hr hread

theorem writtenAs_of_buildDataWord (h : buildDataWord field ops = .ok j) : WrittenAs j 0x80 field ops := by
  obtain ⟨k, rfl, rfl, rfl⟩ := buildDataWord_ok h
  exact ⟨rfl, rfl⟩

theorem writtenAs_of_buildCachWord (h : buildCachWord field ops = .ok j) : WrittenAs j 0x81 field ops := by
  obtain ⟨tx, rx, hne, rfl, rfl, rfl⟩ := buildCachWord_ok h
  exact ⟨rfl, decide_eq_true hne⟩

theorem writtenAs_of_ringPutWord (h : ringPutWord field ops = .ok j) : WrittenAs j 0x8B field ops := by
  obtain ⟨a, rfl, rfl, rfl⟩ := ringPutWord_ok h
  exact ⟨rfl, rfl⟩

theorem writtenAs_of_setTransmitWord (h : setTransmitWord field ops = .ok j) : WrittenAs j 0x92 field ops := by
  obtain ⟨b, rfl, rfl, rfl⟩ := setTransmitWord_ok h
  exact ⟨rfl, rfl⟩

theorem writtenAs_of_modulateOperands (h : modulateOperands ops = some j) : WrittenAs j 0x84 0 ops := by
  obtain ⟨b, t, rfl, rfl⟩ := modulateOperands_some h
  exact ⟨rfl, rfl⟩

theorem writtenAs_of_firStepOperands (h : firStepOperands ops = some j) : WrittenAs j 0x85 0 ops := by
  unfold firStepOperands at h
  split at h <;> cases h
  exact ⟨rfl, rfl⟩

theorem writtenAs_of_symbolMapOperands (h : symbolMapOperands ops = some j) : WrittenAs j 0x86 0 ops := by
  unfold symbolMapOperands at h
  split at h
  · obtain ⟨d, hd, rfl⟩ := Option.map_eq_some_iff.mp h
    rw [dibitOperand_some hd]
    exact ⟨rfl, rfl⟩
  · cases h

theorem writtenAs_of_ioPushOperands (h : ioPushOperands ops = some j) : WrittenAs j 0x93 0 ops := by
  obtain ⟨m, batch, rfl, rfl⟩ := ioPushOperands_some h
  exact ⟨rfl, rfl⟩

theorem writtenAs_of_ioServiceOperands (h : ioServiceOperands ops = some j) : WrittenAs j 0x94 0 ops := by
  unfold ioServiceOperands at h
  split at h <;> cases h
  exact ⟨rfl, rfl⟩

/-- R98's map by operation code, at a given field and given operand words. -/
def wordRows (field : Nat) (ops : List Word16) : List (Nat × Except Reject Instr) :=
  [(0x80, buildDataWord field ops), (0x81, buildCachWord field ops),
   (0x82, plainWord field ops .buildCal), (0x83, plainWord field ops .emitByte),
   (0x84, operandWord field (modulateOperands ops)), (0x85, operandWord field (firStepOperands ops)),
   (0x86, operandWord field (symbolMapOperands ops)),
   (0x88, ringWord field ops .ringCapacity), (0x89, ringWord field ops .ringFree),
   (0x8A, ringWord field ops .ringOccupied), (0x8B, ringPutWord field ops), (0x8C, ringWord field ops .ringGet),
   (0x8D, ringWord field ops .ringReset), (0x8E, ringWord field ops .ringTakeOverflow),
   (0x90, plainWord field ops .ioSpace), (0x91, plainWord field ops .ioIsTransmitting),
   (0x92, setTransmitWord field ops), (0x93, operandWord field (ioPushOperands ops)),
   (0x94, operandWord field (ioServiceOperands ops))]

theorem decodeFields_eq_firstRow (code field : Nat) (ops : List Word16) :
    decodeFields code field ops = firstRow code (wordRows field ops) (.error .unlistedCode) := rfl

/-- Each row accepts only what is written under the row's code. -/
theorem wordRows_writtenAs (field : Nat) (ops : List Word16) : ∀ row ∈ wordRows field ops,
    row.2 = .ok j → WrittenAs j row.1 field ops := by
  simp only [wordRows, List.forall_mem_cons]
  exact ⟨writtenAs_of_buildDataWord, writtenAs_of_buildCachWord,
    (writtenAs_of_plainWord · ⟨rfl, rfl⟩), (writtenAs_of_plainWord · ⟨rfl, rfl⟩),
    (writtenAs_of_operandWord · writtenAs_of_modulateOperands), (writtenAs_of_operandWord · writtenAs_of_firStepOperands),
    (writtenAs_of_operandWord · writtenAs_of_symbolMapOperands),
    (writtenAs_of_ringWord · fun _ => ⟨rfl, rfl⟩), (writtenAs_of_ringWord · fun _ => ⟨rfl, rfl⟩),
    (writtenAs_of_ringWord · fun _ => ⟨rfl, rfl⟩), writtenAs_of_ringPutWord, (writtenAs_of_ringWord · fun _ => ⟨rfl, rfl⟩),
    (writtenAs_of_ringWord · fun _ => ⟨rfl, rfl⟩), (writtenAs_of_ringWord · fun _ => ⟨rfl, rfl⟩),
    (writtenAs_of_plainWord · ⟨rfl, rfl⟩), (writtenAs_of_plainWord · ⟨rfl, rfl⟩),
    writtenAs_of_setTransmitWord, (writtenAs_of_operandWord · writtenAs_of_ioPushOperands),
    (writtenAs_of_operandWord · writtenAs_of_ioServiceOperands), nofun⟩

theorem writtenAs_of_decodeFields (h : decodeFields code field ops = .ok j) : WrittenAs j code field ops := by
  rw [decodeFields_eq_firstRow] at h
  rcases firstRow_cases code (wordRows field ops) (.error .unlistedCode) with ⟨row, hrow, rfl, he⟩ | ⟨-, he⟩
  · exact wordRows_writtenAs field ops row hrow (he.symm.trans h)
  · rw [he] at h
    cases h

theorem encode_of_decodeWord {w : Word16} (h : decodeWord w ops = .ok i) : encode i = .word w ops ∧ i.wf = true := by
  rw [← wordOf_div_mod]
  exact writtenAs_of_decodeFields h

end

/-! ## The two directions -/

theorem encode_of_decode {e : Encoded} {i : Instr} (h : decode e = .ok i) : encode i = e ∧ i.wf = true := by
  cases e with
  | frame bytes => exact encode_of_decode_frame h
  | word w ops => exact encode_of_decodeWord h

/-- Words first, shape by shape; every remaining operation is a host command. -/
theorem decode_encode {i : Instr} (h : i.wf = true) : decode (encode i) = .ok i := by
  cases i with
  | buildCal | emitByte | firStep _ | ioSpace | ioIsTransmitting | ioService _ _ => rfl
  | buildData k => cases k <;> rfl
  | buildCach tx rx =>
    cases tx <;> cases rx
    exacts [absurd h (by decide), rfl, rfl, absurd h (by decide)]
  | ioSetTransmit b => cases b <;> rfl
  | modulate b t =>
    rw [encode, decode_wordOf (by decide) (by decide)]
    simp [decodeFields, operandWord, modulateOperands, byteOperand_word, tagOperand_word]
  | symbolMap d =>
    rw [encode, decode_wordOf (by decide) (by decide)]
    simp [decodeFields, operandWord, symbolMapOperands, dibitOperand_word]
  | ioPush mode batch =>
    rw [encode, decode_wordOf (by decide) (by decide)]
    simp [decodeFields, operandWord, ioPushOperands, byteOperand_word, batchOperand_words]
  | ringPut a =>
    rw [encode, decode_wordOf (by decide) a.ring.code_lt]
    simp [decodeFields, ringPutWord, operandWord, ringOfCode_code, putOperand_words]
  | ringCapacity q | ringFree q | ringOccupied q | ringGet q | ringReset q | ringTakeOverflow q =>
    exact decode_ringWord (by decide) (fun _ => rfl) q
  | _ => exact decode_frameOf rfl (of_decide_eq_true h)

/-- Settles O1: the word shapes read back their fields and operands, and a frame its operand bytes. -/
theorem decodeInvertsEncode : Obligations.DecodeInvertsEncode := fun _ => decode_encode

/-- Settles O2: a frame is cut by its `len` byte, and each shape of word accepts only what the encoder writes. -/
theorem encodeInvertsDecode : Obligations.EncodeInvertsDecode := fun _ _ => encode_of_decode

/-! ## The two maps (R84, R98) -/

theorem wordOf_ring_listed : ∀ code ∈ [0x88, 0x89, 0x8A, 0x8B, 0x8C, 0x8D, 0x8E], ∀ q : RingId,
    (BitVec.ofNat 16 (code * 256 + q.code)).toNat ∈ listedWords := by
  intro code hcode q
  rcases q with q | k <;> [cases q; cases k] <;> revert code <;> decide

/-- Every word the encoder writes stands in R98's map. -/
theorem encode_word_listed {i : Instr} {w : Word16} {ops : List Word16} (hw : i.wf = true) (h : encode i = .word w ops) :
    w.toNat ∈ listedWords := by
  cases i with
  | buildCal | emitByte | modulate _ _ | firStep _ | symbolMap _ | ioSpace | ioIsTransmitting | ioPush _ _
  | ioService _ _ => cases h; decide
  | buildData k => cases h; cases k <;> decide
  | buildCach tx rx =>
    cases h
    cases tx <;> cases rx
    exacts [absurd hw (by decide), by decide, by decide, absurd hw (by decide)]
  | ioSetTransmit b => cases h; cases b <;> decide
  | ringCapacity q | ringFree q | ringOccupied q | ringGet q | ringReset q | ringTakeOverflow q =>
    cases h; exact wordOf_ring_listed _ (by decide) q
  | ringPut a => cases h; exact wordOf_ring_listed _ (by decide) a.ring
  | _ => cases h

/-- Each listed word names an operation, beside at most two zero operand words. -/
theorem listed_decodes : ∀ n ∈ listedWords, ∃ ops ∈ [[], [0], [0, 0]],
    (decodeWord (BitVec.ofNat 16 n) ops).isOk = true := by decide

/-- Settles O4: what decodes is an encoding, whose word is listed; and each listed word decodes beside zero operands. -/
theorem listedWordsAloneDecode : Obligations.ListedWordsAloneDecode := by
  intro w
  constructor
  · rintro ⟨ops, i, h⟩
    obtain ⟨he, hw⟩ := encode_of_decodeWord h
    exact encode_word_listed hw he
  · intro hw
    obtain ⟨ops, -, hok⟩ := listed_decodes _ hw
    rw [BitVec.ofNat_toNat, BitVec.setWidth_eq] at hok
    cases hd : decodeWord w ops with
    | ok i => exact ⟨ops, i, hd⟩
    | error e => rw [hd] at hok; cases hok

/-- Settles O5: `readFrame_append`, and the two inputs that are shorter than their frame. -/
theorem lenByteFramesTheCommand : Obligations.LenByteFramesTheCommand := by
  refine ⟨readFrame_append, fun op len bytes h => if_pos h, fun bytes h => ?_⟩
  match bytes with
  | [] | [_] => rfl
  | _ :: _ :: _ => simp at h

/-- Settles O6: the opcodes that select a command are 0x01 to 0x0B. -/
theorem reservedOpcodesNameNoCommand : Obligations.ReservedOpcodesNameNoCommand := by
  intro op ops
  rw [hostCommand_eq_none_iff]
  simp only [hostRows, List.forall_mem_cons, List.not_mem_nil, false_implies, implies_true, and_true]
  bv_omega

/-- A written form decodes to the operation it is written for. -/
theorem decode_of_encode {e : Encoded} {i : Instr} (he : encode i = e) (hw : i.wf = true) : decode e = .ok i :=
  he ▸ decode_encode hw

theorem eq_code_of_mem_ringIds {p : Word16 × RingId} (h : p ∈ ringIds) : p.1 = BitVec.ofNat 16 p.2.code := by
  revert p
  decide

/-- Settles O3: each row is the written form of its operation. -/
theorem wordsOfTheSpecDecode : Obligations.WordsOfTheSpecDecode := by
  refine ⟨fun ops hlen => ?hosts, ?_, ?_, ?_, ?_, ?_, ?_, ?_, ?_, ?_, fun p hp => ?rings, ?_⟩
  case hosts =>
    have hw : operandsFit ops = true := decide_eq_true hlen
    and_intros <;> exact decode_of_encode rfl hw
  case rings =>
    rw [eq_code_of_mem_ringIds hp]
    and_intros <;> exact decode_of_encode (wordOf_eq_add ..) rfl
  all_goals and_intros <;> intros <;> and_intros <;> exact decode_of_encode rfl rfl

end Sys2Proof

/-! # Proofs: ring buffers (spec/40_ring_buffers.md)

The queries count the stored items (`stored`), and each ring operation hands on what its primitive of `RingBuf` returns,
which `RingBuf.put_spec` and `RingBuf.get_spec` say in full. -/

namespace Sys2Proof.Machine

open Sys2Proof.Claims

section

variable {s : State}

/-! ## The queries count the stored items (R113, R114, R120) -/

theorem State.ringOccupied_eq_stored (h : s.Inv) (q : RingId) : s.ringOccupied q = stored s q := by
  cases q with
  | sample q => exact RingBuf.occupied_eq_length (h.sample q)
  | fifo k => exact RingBuf.occupied_eq_length (h.fifoWf k)

theorem State.ringFree_eq_capacity_sub_stored (h : s.Inv) (q : RingId) :
    s.ringFree q = s.cfg.capacity q - stored s q := by
  cases q with
  | sample q => exact RingBuf.free_eq_length (h.sample q)
  | fifo k => exact RingBuf.free_eq_length (h.fifoWf k)

theorem stored_le_capacity (h : s.Inv) (q : RingId) : stored s q ≤ s.cfg.capacity q := by
  cases q with
  | sample q => exact RingBuf.length_items_le (h.sample q)
  | fifo k => exact RingBuf.length_items_le (h.fifoWf k)

end

/-! ## What a reset and a take leave (R117, R118) -/

@[simp] theorem stored_resetRing (s : State) (q : RingId) : stored (s.resetRing q) q = 0 := by
  cases q <;> simp [State.resetRing, stored, RingBuf.items_reset]

@[simp] theorem State.ringOverflow_returned (s : State) (r : Result) (q : RingId) :
    (s.returned r).ringOverflow q = s.ringOverflow q := by
  cases q <;> rfl

@[simp] theorem State.ringOverflow_clearRingOverflow (s : State) (q : RingId) :
    (s.clearRingOverflow q).ringOverflow q = false := by
  cases q <;> simp [State.clearRingOverflow, State.ringOverflow, RingBuf.clearOverflow]

theorem exec_ringTakeOverflow (s : State) (q : RingId) :
    exec (.ringTakeOverflow q) s = .next ((s.clearRingOverflow q).returned (.flag (s.ringOverflow q))) := rfl

/-! ## The statements -/

/-- Settles O12: the stored items are at most the capacity, and what is free is the rest of it. -/
theorem occupiedPlusFreeIsCapacity : Obligations.OccupiedPlusFreeIsCapacity := by
  intro s h q
  rw [State.ringOccupied_eq_stored h, State.ringFree_eq_capacity_sub_stored h]
  have hle := stored_le_capacity h q
  exact ⟨Nat.add_sub_of_le hle, hle⟩

/-- Settles O14: each kind of ring stores what `RingBuf.put` returns and answers its flag. -/
theorem ringPutCompletes : Obligations.RingPutCompletes := by
  intro s h
  constructor
  · intro q x
    obtain ⟨hflag, hfull, hroom⟩ := RingBuf.put_spec x (h.sample q)
    exact ⟨_, by rw [← hflag]; rfl, hfull, hroom⟩
  · intro k b
    obtain ⟨hflag, hfull, hroom⟩ := RingBuf.put_spec b (h.fifoWf k)
    exact ⟨_, by rw [← hflag]; rfl, hfull, hroom⟩

/-- Settles O15: each kind of ring keeps what `RingBuf.get` leaves and answers its item. -/
theorem ringGetCompletes : Obligations.RingGetCompletes := by
  intro s h
  constructor
  · intro q
    obtain ⟨hitem, hleft⟩ := RingBuf.get_spec (h.sample q)
    exact ⟨_, by rw [← hitem]; rfl, hleft⟩
  · intro k
    obtain ⟨hitem, hleft⟩ := RingBuf.get_spec (h.fifoWf k)
    exact ⟨_, by rw [queued, ← hitem]; rfl, hleft⟩

/-- Settles O16: `RingFree` and `RingOccupied` in terms of the stored items. -/
theorem ringQueriesComplete : Obligations.RingQueriesComplete := by
  intro s q h
  rw [← State.ringFree_eq_capacity_sub_stored h, ← State.ringOccupied_eq_stored h]
  exact ⟨rfl, rfl, rfl⟩

/-- Settles O17: the operation is `RingReset` of the named ring, after which nothing is stored. -/
theorem ringResetCompletes : Obligations.RingResetCompletes := by
  refine ⟨fun _ _ => rfl, fun _ _ => rfl, fun s t q ht => ?_⟩
  cases ht
  exact stored_resetRing s q

/-- Settles O18: the flag is answered from before the take, and a second take finds it cleared. -/
theorem takeOverflowCompletes : Obligations.TakeOverflowCompletes := by
  refine ⟨fun _ _ => rfl, fun _ _ => rfl, fun s t q ht => ?_⟩
  rw [exec_ringTakeOverflow] at ht
  cases ht
  exact ⟨_, exec_ringTakeOverflow _ q, by simp⟩

end Sys2Proof.Machine

/-! # Proofs: framing (spec/41_framing.md)

Each build and each emit is one record update of an invariant state; which of them runs, what it sends and what it leaves of
TXQ are read off that record. -/

namespace Sys2Proof.Machine

open Sys2Proof.Claims

section

variable {s t : State} {i : Instr} {k tx rx : Slot} {p : List Byte}

/-! ## The emit step and TXQ (R155, R156) -/

/-- A batch shorter than the free space is stored whole and in order, and does not fill the ring (R156). -/
theorem RingBuf.putAll_room_left {α : Type} {n : Nat} {r : RingBuf α} {xs : List α} (hw : r.Wf n) (h : xs.length < r.free n) :
    (r.putAll n xs).items n = r.items n ++ xs ∧ (r.putAll n xs).overflow = r.overflow ∧ (r.putAll n xs).full = false := by
  rw [free_eq_length hw] at h
  obtain ⟨hitems, hover⟩ := putAll_room xs hw (by omega)
  refine ⟨hitems, hover, (notFull_iff (putAll_wf xs hw)).mpr ?_⟩
  rw [hitems, List.length_append]
  omega

@[simp] theorem State.emitCurrent_txq (s : State) :
    s.emitCurrent.txq =
      s.txq.putAll s.cfg.nTx (modulateBatch s (s.poBuf.getD s.poPtr 0) (s.poTag.getD s.poPtr .none)) := by
  simp [State.emitCurrent]

/-- An enabled emit has room for its batch and one item more (R156). -/
theorem State.Inv.emitCurrent_txq_spec (h : s.Inv) (hroom : 4 * s.cfg.osr < s.txq.free s.cfg.nTx) :
    s.emitCurrent.txq.items s.cfg.nTx =
        txItems s ++ modulateBatch s (s.poBuf.getD s.poPtr 0) (s.poTag.getD s.poPtr .none)
      ∧ s.emitCurrent.txq.overflow = s.txq.overflow ∧ s.emitCurrent.txq.full = false := by
  rw [State.emitCurrent_txq]
  exact RingBuf.putAll_room_left h.txqWf (by simpa using hroom)

@[simp] theorem State.idleBranch_txq (s : State) (k : Slot) (p : List Byte) : (s.idleBranch k p).txq = s.txq := by
  cases h : s.abort.get k <;> simp [State.idleBranch, h]

theorem exec_txq_of_isBuild (hi : isBuild i) (e : exec i s = .next t) : t.txq = s.txq := by
  rcases hi with ⟨k, rfl⟩ | ⟨tx, rx, rfl⟩ | rfl
  · obtain ⟨-, ⟨-, rfl⟩ | ⟨-, p, -, rfl⟩⟩ := execBuildData_next e
    · rfl
    · simp
  · simp [(execBuildCach_next e).2]
  · rw [(execBuildCal_next e).2]
    rfl

/-- What the sequencer takes is a build with an empty buffer, or an enabled emit (R150). -/
theorem State.isBuild_or_emit_of_sequencerStep (h : s.sequencerStep = some i) :
    (s.poLen = 0 ∧ isBuild i) ∨ (s.poLen ≠ 0 ∧ s.emitEnabled = true ∧ i = .emitByte) := by
  refine (State.sequencerStep_some h).imp_left (And.imp_right ?_)
  rintro (⟨-, rfl⟩ | ⟨-, rfl⟩ | ⟨-, rfl⟩ | ⟨-, rfl⟩ | ⟨-, rfl⟩)
  exacts [.inl ⟨_, rfl⟩, .inr (.inl ⟨_, _, rfl⟩), .inl ⟨_, rfl⟩, .inr (.inl ⟨_, _, rfl⟩), .inr (.inr rfl)]

/-- A get frees an item or changes nothing. -/
theorem RingBuf.get_notFull {α : Type} (n : Nat) {r : RingBuf α} (h : r.full = false) : (r.get n).2.full = false := by
  unfold RingBuf.get
  split
  · exact h
  · split
    · exact h
    · rfl

theorem State.TxSafe.hostCommand {op : Byte} {ops : List Byte} (hs : s.TxSafe) (hi : hostCommand op ops = some i)
    (e : exec i s = .next t) : t.TxSafe := by
  rcases exec_hostCommand hi s with ⟨_, -, -, g⟩ | ⟨_, _, _, -, -, g⟩ | ⟨_, _, g⟩ | ⟨q, _, g⟩ |
    ⟨_, _, _, _, _, _, _, _, _, _, _, g⟩ <;> cases g.symm.trans e
  case inr.inr.inr.inl =>
    rcases q with (_ | _ | _) | k
    exacts [⟨hs.1, rfl⟩, hs, hs, hs]
  all_goals exact hs

theorem State.TxSafe.ioService {rx rssi : Word16} (hs : s.TxSafe) (e : exec (.ioService rx rssi) s = .next t) :
    t.TxSafe := by
  obtain ⟨_, _, _, g, rfl, -⟩ := execIoService_eq s rx rssi
  cases g.symm.trans e
  obtain ⟨-, -, hover⟩ := s.txq.get_frame s.cfg.nTx
  exact ⟨RingBuf.get_notFull _ hs.1, hover.trans hs.2⟩

theorem State.TxSafe.sequencer (hs : s.TxSafe) (h : s.Inv) (hi : s.sequencerStep = some i) (e : exec i s = .next t) :
    t.TxSafe := by
  rcases State.isBuild_or_emit_of_sequencerStep hi with ⟨-, hb⟩ | ⟨-, hemit, rfl⟩
  · rwa [State.TxSafe, exec_txq_of_isBuild hb e]
  · obtain ⟨-, -, hroom⟩ := State.emitEnabled_iff.mp hemit
    obtain ⟨-, hover, hfull⟩ := h.emitCurrent_txq_spec hroom
    rw [(execEmitByte_next e).2]
    exact ⟨hfull, hover.trans hs.2⟩

/-! ## The builds and the emit as one record update (R153-R155, R158) -/

/-- A whole burst replaces the provisional buffer (R153, R154). -/
theorem State.Inv.loadBurst_eq (h : s.Inv) (hp : p.length = s.cfg.burstBytes) :
    s.loadBurst p = { s with
      poBuf := p
      poTag := List.replicate s.cfg.burstBytes .none
      poLen := s.cfg.burstBytes
      poPtr := 0 } := by
  obtain ⟨-, -, ⟨hbuf, htag, -⟩, -⟩ := h
  simp [State.loadBurst, State.loadPo, hp, hbuf, htag]

theorem State.Inv.dataBranch_eq (h : s.Inv) (hr : s.dataReady k = true) :
    s.dataBranch k = { s with
      fifo := s.fifo.set k ((s.fifo.get k).afterGets s.cfg.nFifo s.cfg.burstBytes)
      poBuf := (queued s k).take s.cfg.burstBytes
      poTag := List.replicate s.cfg.burstBytes .none
      poLen := s.cfg.burstBytes
      poPtr := 0 } := by
  have hinv := h.withFifo k (RingBuf.afterGets_wf s.cfg.burstBytes (h.fifoWf k))
  rw [State.dataBranch, hinv.loadBurst_eq (h.length_taken hr), (RingBuf.gets_spec _ (h.fifoWf k)).1]
  rfl

theorem State.Inv.idleBranch_eq (h : s.Inv) (hp : p.length = s.cfg.burstBytes) :
    s.idleBranch k p = { s with
      fifo := s.fifo.set k (fifoAfterIdle s k)
      abort := s.abort.set k false
      poBuf := p
      poTag := List.replicate s.cfg.burstBytes .none
      poLen := s.cfg.burstBytes
      poPtr := 0 } := by
  rw [State.idleBranch, fifoAfterIdle]
  cases s.abort.get k with
  | true => exact State.Inv.loadBurst_eq ((h.withFifo k (RingBuf.reset_wf (h.fifoWf k))).unreadFields ..) hp
  | false =>
    simp only [Bool.false_eq_true, if_false, PerSlot.set_get]
    exact State.Inv.loadBurst_eq (h.unreadFields ..) hp

theorem nextTxState_dueState (k : Slot) : nextTxState (dueState k) = stateAfterData k := by cases k <;> rfl

/-- R157 in the spec's words. -/
theorem State.Inv.dataReady_iff (h : s.Inv) : s.dataReady k = true ↔ Claims.dataReady s k := State.dataReady_iff h

theorem State.dataEnabled_of_due (hp : s.poLen = 0) (hs : s.txState = dueState k) : s.dataEnabled k = true :=
  State.dataEnabled_iff.mpr ⟨hp, hs.trans (dueState_eq_dataState k)⟩

/-- A data build that is not ready, where it completes, sends the template and serves a pending abort (R158). -/
theorem State.Inv.of_idleBuild (h : s.Inv) (hr : ¬ Claims.dataReady s k) (e : exec (.buildData k) s = .next t) :
    some t.poBuf = s.idle ∧ queued t k = (fifoAfterIdle s k).items s.cfg.nFifo ∧ t.abort.get k = false := by
  obtain ⟨-, ⟨hready, -⟩ | ⟨-, template, hidle, rfl⟩⟩ := execBuildData_next e
  · exact absurd (h.dataReady_iff.mp hready) hr
  · rw [h.idleBranch_eq (h.length_template hidle)]
    simp [State.advance, queued, hidle]

/-- The cursor of a burst stands on one of its bytes and on its tag (R33). -/
theorem State.Inv.cursor_on_byte (h : s.Inv) (hlen : 0 < s.poLen) :
    s.poPtr < s.poLen ∧ s.poBuf[s.poPtr]? = some (s.poBuf.getD s.poPtr 0)
      ∧ s.poTag[s.poPtr]? = some (s.poTag.getD s.poPtr .none) := by
  have hburst := h.clauses.burst
  obtain ⟨-, -, ⟨hbuf, htag, hshape, -, hptr⟩, -⟩ := h
  have hlt := hptr hlen
  rw [cachBytes] at hshape
  have hin : s.poPtr < s.cfg.burstBytes := by omega
  rw [List.getD_eq_getElem _ _ (hbuf ▸ hin), List.getD_eq_getElem _ _ (htag ▸ hin)]
  exact ⟨hlt, List.getElem?_eq_getElem _, List.getElem?_eq_getElem _⟩

/-- R155: at the end of the burst the cursor and the length are cleared. -/
theorem State.advancePo_eq (h : s.poPtr < s.poLen) :
    s.advancePo = { s with
      poPtr := if s.poPtr + 1 = s.poLen then 0 else s.poPtr + 1
      poLen := if s.poPtr + 1 = s.poLen then 0 else s.poLen } := by
  unfold State.advancePo
  by_cases hlast : s.poPtr + 1 = s.poLen
  · simp [hlast]
  · rw [if_neg hlast, if_neg hlast, if_neg (by omega)]

/-- An emit as one record update, TXQ aside (R155). -/
theorem State.emitCurrent_eq (h : s.poPtr < s.poLen) :
    s.emitCurrent = { s with
      fir := modulateFir s (s.poBuf.getD s.poPtr 0)
      txq := s.emitCurrent.txq
      txOn := true
      poPtr := if s.poPtr + 1 = s.poLen then 0 else s.poPtr + 1
      poLen := if s.poPtr + 1 = s.poLen then 0 else s.poLen } := by
  rw [State.emitCurrent_txq, State.emitCurrent]
  exact State.advancePo_eq h

/-! ## The CACH build (R160-R167) -/

theorem State.Inv.fifosEmpty_iff (h : s.Inv) : s.fifosEmpty = true ↔ queued s .slot0 = [] ∧ queued s .slot1 = [] := by
  simp [State.fifosEmpty, State.ringOccupied_fifo h, queued]

/-- R162. -/
theorem State.Inv.slcSwap_eq (h : s.Inv) :
    s.slcSwap = { s with
      slcLive := if s.cachPtr ≠ 0 then s.slcLive
        else if queued s .slot0 = [] ∧ queued s .slot1 = [] then List.replicate 12 0 else s.slcPending } := by
  unfold State.slcSwap
  by_cases hptr : s.cachPtr = 0
  · rw [if_pos hptr, if_neg (not_not.mpr hptr)]
    simp only [← h.fifosEmpty_iff]
    rfl
  · rw [if_neg hptr, if_pos hptr]

/-- The control bits of a build, from the conditions of R164 and R165. -/
theorem State.cachBits_eq {accessType tc ls1 ls0 : Bool} (hat : s.accessType rx = accessType) (htc : tc = true ↔ tx = .slot1)
    (hls1 : ls1 = true ↔ s.cachPtr ≠ 0) (hls0 : ls0 = true ↔ s.cachPtr ≠ 9) :
    s.cachBits tx rx = controlBits accessType tc ls1 ls0 := by
  have h1 : tcBit tx = tc := Bool.eq_iff_iff.mpr (by simp [htc, tcBit])
  have h2 : ls1Bit s.cachPtr = ls1 := Bool.eq_iff_iff.mpr (by simp [hls1, ls1Bit])
  have h3 : ls0Bit s.cachPtr = ls0 := Bool.eq_iff_iff.mpr (by simp [hls0, ls0Bit])
  rw [State.cachBits, hat, h1, h2, h3]

/-- R164 with the FIFO as its queued bytes. -/
theorem State.Inv.accessType_iff (h : s.Inv) :
    s.accessType rx = true ↔ s.cfg.startupCount.toNat ≤ s.frameCount.toNat ∧ queued s rx ≠ []
      ∧ ¬(s.atMode = 3 ∨ (s.atMode = 1 ∧ rx = .slot0) ∨ (s.atMode = 2 ∧ rx = .slot1)) := by
  rw [State.accessType_iff, suppressed_iff, State.ringOccupied_fifo h, List.length_pos_iff, and_comm (b := _ ≠ [])]
  rfl

/-- The build after the counters and the swap, as one record update (R163, R167). -/
theorem State.loadCach_eq (s : State) (tx rx : Slot) :
    s.loadCach tx rx = { s with
      poBuf := orControlBits s.cfg.ctrlPos (s.cachBits tx rx) s.fragment ++ s.poBuf.drop 3
      poTag := [.none, if rx = .slot1 then .slot1 else .slot2, .none] ++ s.poTag.drop 3
      poLen := 3
      poPtr := 0
      cachPtr := BitVec.ofNat 8 ((s.cachPtr.toNat + 3) % 12) } := by
  have hlen : (orControlBits s.cfg.ctrlPos (s.cachBits tx rx) s.fragment).length = 3 := by simp [State.fragment, cachBytes]
  rw [State.loadCach, State.loadPo, hlen]
  cases rx <;> rfl

/-! ## The printed masks (R167) -/

theorem orBit_eq_modify_or (p : List Byte) (i : Nat) (b : Bool) :
    orBit p i b = p.modify (i / 8) (· ||| if b then bitMask (7 - i % 8) else 0) := by
  cases b <;> simp [orBit]

/-! ## Short link control (R170-R173) -/

/-- The first list's bits come first. -/
theorem readBit_append (p q : List Byte) (j : Nat) :
    readBit (p ++ q) j = if j < 8 * p.length then readBit p j else readBit q (j - 8 * p.length) := by
  unfold readBit
  split
  · rw [List.getD_append _ _ _ _ (by omega)]
  · rw [List.getD_append_right _ _ _ _ (by omega), show (j - 8 * p.length) / 8 = j / 8 - p.length by omega,
      show (j - 8 * p.length) % 8 = j % 8 by omega]

/-- Stream bit `j` of a payload sent as three-byte fragments is bit `j mod 24` of its fragment. -/
theorem readBit_flatMap_fragments (f : Nat → List Byte) (hf : ∀ k, (f k).length = 3) (n j : Nat) (hj : j < 24 * n) :
    readBit ((List.range n).flatMap f) j = readBit (f (j / 24)) (j % 24) := by
  induction n with
  | zero => omega
  | succ n ih =>
    have hlen : ((List.range n).flatMap f).length = 3 * n := by simp [List.length_flatMap, hf, Nat.mul_comm]
    rw [List.range_succ, List.flatMap_append, readBit_append, hlen]
    split
    · exact ih (by omega)
    · rw [List.flatMap_singleton, show j / 24 = n by omega, show j % 24 = j - 8 * (3 * n) by omega]

theorem readBit_fragmentAt (p : List Byte) (k j : Nat) (hj : j < 24) : readBit (fragmentAt p k) j = readBit p (24 * k + j) := by
  rw [show 24 * k + j = 8 * (3 * k) + j by omega, ← readBit_cut p (3 * k) j hj]
  rfl

/-- Where no control bit stands, the fragment's own bit does (R167, R172). -/
theorem readBit_orControlBits_of_not_mem {pos : CtrlPos} {p : List Byte} {j : Nat} (v : ControlBits) (hp : p.length = 3)
    (hpos : ∀ i ∈ pos.toList, i < 24) (hj : j ∉ pos.toList) : readBit (orControlBits pos v p) j = readBit p j := by
  simp only [CtrlPos.toList, List.mem_cons, List.not_mem_nil, or_false, not_or, ← ne_eq, ← beq_eq_false_iff_ne] at hj
  rw [readBit_orControlBits pos v p j hp hpos]
  simp [hj]

/-! ## The sequencer's turn and the cycle (R150-R152, R179, R180) -/

/-- R152. -/
theorem State.sequencerStep_of_idle (h : s.txState = .idle) : s.sequencerStep = none := by
  simp [State.sequencerStep, State.emitEnabled, h]

theorem State.sequencerStep_of_burst (hidle : s.txState ≠ .idle) (hlen : s.poLen ≠ 0) :
    s.sequencerStep = if 4 * s.cfg.osr < s.txq.free s.cfg.nTx then some .emitByte else none := by
  simp [State.sequencerStep, State.emitEnabled_iff, hidle, hlen, Nat.pos_of_ne_zero hlen]

theorem nextTxState_eq_idle_iff {st : TxState} : nextTxState st = .idle ↔ st = .idle := by cases st <;> decide

/-- Every build is enabled outside Idle alone and moves once around the cycle (R151). -/
theorem exec_txState_of_isBuild (hi : isBuild i) (e : exec i s = .next t) :
    s.txState ≠ .idle ∧ t.txState = nextTxState s.txState := by
  rcases hi with ⟨k, rfl⟩ | ⟨tx, rx, rfl⟩ | rfl
  · obtain ⟨he, ht⟩ := execBuildData_next e
    obtain ⟨-, hs⟩ := State.dataEnabled_iff.mp he
    refine ⟨by rw [hs]; cases k <;> decide, ?_⟩
    rcases ht with ⟨-, rfl⟩ | ⟨-, p, -, rfl⟩ <;> simp
  · obtain ⟨he, rfl⟩ := execBuildCach_next e
    obtain ⟨-, ⟨hs, -⟩ | ⟨hs, -⟩⟩ := State.cachEnabled_iff.mp he <;> simp [hs]
  · obtain ⟨he, rfl⟩ := execBuildCal_next e
    simp [(State.calEnabled_iff.mp he).2]

/-- A sequencer turn builds with an empty buffer and leaves the framing state with a burst (R151, R155). -/
theorem runSequencer_txState (e : runSequencer s = .next t) :
    t.txState = if s.poLen ≠ 0 then s.txState else nextTxState s.txState := by
  unfold runSequencer at e
  split at e
  · rename_i hnone
    cases e
    rcases State.sequencerStep_none hnone with ⟨hlen, hidle⟩ | ⟨hlen, -⟩
    · simp [hlen, hidle, nextTxState]
    · simp [hlen]
  · rename_i i hsome
    rcases State.isBuild_or_emit_of_sequencerStep hsome with ⟨hlen, hb⟩ | ⟨hlen, -, rfl⟩
    · simp [hlen, (exec_txState_of_isBuild hb e).2]
    · simp [hlen, (execEmitByte_next e).2]

/-! ## Host commands on the framing state (R175-R178) -/

theorem slotSelector_cases {b : Byte} {k : Slot} (h : slotSelector b = some k) :
    (b = 1 ∧ k = .slot0) ∨ (b = 2 ∧ k = .slot1) := by
  unfold slotSelector at h
  split at h
  · exact .inl ⟨‹_›, (Option.some.inj h).symm⟩
  · split at h
    · exact .inr ⟨‹_›, (Option.some.inj h).symm⟩
    · simp at h

theorem ne_singleton {ops : List Byte} (h : ops.length ≠ 1) (b : Byte) : ops ≠ [b] := fun e => h (e ▸ rfl)

end

/-! ## The statements -/

/-- Settles O54: of the operations an agent takes, an emit alone stores on TXQ, and it leaves one item free. -/
theorem txqNeverOverflows : Obligations.TxqNeverOverflows := by
  intro s t h hs hagent hstep
  obtain ⟨-, turns, n, ⟨bytes, out, rfl⟩ | ⟨bytes, i, e, hi⟩⟩ := step_next hstep
  · exact hs
  · have hsafe : State.TxSafe { s with sched := turns, freeCount := n, cmdIn := bytes } := hs
    have hinv : State.Inv { s with sched := turns, freeCount := n, cmdIn := bytes } := h
    rcases hi with ⟨w, operands, hissue⟩ | ⟨op, ops, hhost⟩ | ⟨rx, rssi, rfl⟩ | rfl | rfl | hseq
    · exact absurd hissue (hagent w operands)
    · exact hsafe.hostCommand hhost e
    · exact hsafe.ioService e
    · cases e
      exact hs
    · cases e
      exact hs
    · exact hsafe.sequencer hinv hseq e

/-- Settles O24: the gets of the data branch return the oldest burst and leave the rest. -/
theorem dataBranchTakesOneBurst : Obligations.DataBranchTakesOneBurst := by
  intro s k h hp hs hready
  have hr := h.dataReady_iff.mpr hready
  obtain ⟨-, hrest, hover⟩ := RingBuf.gets_spec s.cfg.burstBytes (h.fifoWf k)
  refine ⟨_, ?_, hrest, hover⟩
  rw [← nextTxState_dueState, ← hs]
  simp [exec, execBuildData, State.dataEnabled_of_due hp hs, hr, h.dataBranch_eq hr, State.advance]

/-- Settles O25: the idle branch as one record. -/
theorem idleBranchSendsTheTemplate : Obligations.IdleBranchSendsTheTemplate := by
  intro s k template h hp hs hready hidle
  have hr : ¬ s.dataReady k = true := fun hr => hready (h.dataReady_iff.mp hr)
  rw [← nextTxState_dueState, ← hs]
  simp [exec, execBuildData, State.dataEnabled_of_due hp hs, hr, hidle, h.idleBranch_eq (h.length_template hidle),
    State.advance]

/-- Settles O28: the swap and the counters leave the live payload the statement names; its three bytes at the cursor take the
control bits. -/
theorem cachBuildCompletes : Obligations.CachBuildCompletes := by
  intro s tx rx accessType tc ls1 ls0 live h hp hs hat htc hls1 hls0 hlive
  have he : s.cachEnabled tx rx = true := State.cachEnabled_iff.mpr ⟨hp, hs⟩
  have hswap : s.bumpCounters.slcSwap = { s.bumpCounters with slcLive := live } := by
    rw [hlive]
    exact State.Inv.slcSwap_eq (s := s.bumpCounters) h
  have hinv : s.bumpCounters.slcSwap.Inv := State.Inv.slcSwap (s := s.bumpCounters) h
  have hacc : s.bumpCounters.slcSwap.accessType rx = accessType := by
    rw [Bool.eq_iff_iff, hinv.accessType_iff, hat]
    simp [queued, BitVec.toNat_add]
  have hbits : s.bumpCounters.slcSwap.cachBits tx rx = controlBits accessType tc ls1 ls0 :=
    State.cachBits_eq hacc htc (by simpa using hls1) (by simpa using hls0)
  have hnext : nextTxState s.txState = if tx = .slot1 then .slot2 else .slot1 := by
    rcases hs with ⟨hst, rfl, -⟩ | ⟨hst, rfl, -⟩ <;> rw [hst] <;> rfl
  refine ⟨orControlBits s.cfg.ctrlPos (controlBits accessType tc ls1 ls0)
    ((List.range cachBytes).map fun k => live.getD (s.cachPtr.toNat + k) 0), ?_, by simp [cachBytes], fun p hp24 => ?_⟩
  · rw [exec, execBuildCach, if_pos he, State.loadCach_eq, hbits, hswap, ← hnext]
    rfl
  · rw [readBit_orControlBits _ _ _ _ (by simp [cachBytes]) h.clauses.ctrlPos, readBit_cut _ _ _ hp24]
    rfl

/-- Settles O29: each standard position is a byte of the fragment and a mask in it. -/
theorem standardControlBitsAreTheMasks : Obligations.StandardControlBitsAreTheMasks := by
  intro b0 b1 b2 v
  simp [orControlBits, orBit_eq_modify_or, CtrlPos.standard, bitMask, List.modify]

/-- Settles O31: the byte at the cursor is in the burst, and the room an enabled emit has takes its whole batch. -/
theorem emitByteCompletes : Obligations.EmitByteCompletes := by
  intro s h hidle hlen hroom
  obtain ⟨hlt, hbyte, htag⟩ := h.cursor_on_byte hlen
  have he : s.emitEnabled = true := State.emitEnabled_iff.mpr ⟨hidle, hlen, hroom⟩
  refine ⟨s.emitCurrent.txq, _, _, ⟨_, _, hbyte, htag, rfl⟩, ?_, h.emitCurrent_txq_spec hroom⟩
  exact (if_pos he).trans (congrArg _ (State.emitCurrent_eq hlt))

/-- Settles O32: before warm-up no data build is ready, and without a pending abort the idle branch keeps the FIFO. -/
theorem startupGuardSendsIdle : Obligations.StartupGuardSendsIdle := by
  intro s t k h hstart e
  have hr : ¬ Claims.dataReady s k := fun ⟨_, hwarm, _⟩ => absurd hstart (Nat.not_lt.mpr hwarm)
  obtain ⟨hsent, hleft, -⟩ := h.of_idleBuild hr e
  exact ⟨hsent, fun hab => by rw [hleft, fifoAfterIdle, hab]; rfl⟩

/-- Settles O33: the abort leaves a cool-down of at least one build and a pending flag, so the idle branch resets the
FIFO. -/
theorem abortThenBuildDropsTheQueue : Obligations.AbortThenBuildDropsTheQueue := by
  intro s s1 t k sel h hsel hab hbuild
  have hs1 : s1 = { s with abort := s.abort.set k true, abortCount := s.abortCount.set k 0 }.answerOk := by
    have hk := slotSelector_some.mpr hsel
    simpa [exec, execWriteAbort, hk] using hab.symm
  have h1 : s1.Inv := hs1 ▸ h.unreadFields ..
  have hr : ¬ Claims.dataReady s1 k := by
    have hlimit := h.clauses.abortLimit
    rintro ⟨-, -, haged⟩
    simp [hs1] at haged
    omega
  obtain ⟨hsent, hleft, hflag⟩ := h1.of_idleBuild hr hbuild
  refine ⟨by rw [hsent, hs1]; rfl, ?_, hflag⟩
  rw [hleft, fifoAfterIdle, if_pos (by simp [hs1])]
  exact RingBuf.items_reset ..

/-- Settles O34: the turn of `runSequencer_txState`, with `nextTxState` written out. -/
theorem sequencerFollowsTheCycle : Obligations.SequencerFollowsTheCycle := by
  intro s t turns hsched hstep
  obtain ⟨hw, -⟩ := step_next hstep
  rw [step_of_sched_cons hw hsched] at hstep
  rw [runSequencer_txState (s := { s with sched := turns }) hstep]
  cases s.txState <;> rfl

/-- Settles O35: of the writers of the framing state a build keeps out of Idle, and the commands name what they write. -/
theorem onlyCommandsEnterOrLeaveIdle : Obligations.OnlyCommandsEnterOrLeaveIdle := by
  intro i s t e
  by_cases hne : t.txState = s.txState
  · rw [hne]
    exact ⟨fun h h' => absurd h h', fun h h' => absurd h h'⟩
  rcases (exec_effect e).writers.txState hne with hb | ⟨p, rfl⟩ | ⟨p, rfl⟩ | ⟨hs, ht, p, rfl⟩
  · obtain ⟨hs, ht⟩ := exec_txState_of_isBuild hb e
    exact ⟨fun h => absurd (nextTxState_eq_idle_iff.mp (ht ▸ h)) hs, fun h => absurd h hs⟩
  · rcases execStart_cases p s with ⟨on, rfl, g⟩ | ⟨_, -, -, -, g⟩ | ⟨-, g⟩ <;> cases g.symm.trans e
    · cases on <;> simp
    all_goals exact absurd rfl hne
  · rcases execSetCal_cases p s with ⟨on, rfl, g⟩ | ⟨_, -, -, -, g⟩ | ⟨-, g⟩ <;> cases g.symm.trans e
    · cases on <;> simp
    all_goals exact absurd rfl hne
  · refine ⟨fun _ h => absurd hs h, fun _ _ => .inr (.inr ?_)⟩
    rcases execWriteSlotData_cases p s with ⟨sel, p, _, rfl, hlen, -⟩ | ⟨_, _, -, -, -, g⟩ | ⟨-, g⟩
    · exact ⟨sel, p, rfl, hlen⟩
    all_goals
      cases g.symm.trans e
      exact absurd rfl hne

/-- Settles O36: a table position lies outside every control position of its fragment. -/
theorem shortLinkControlRoundTrips : Obligations.ShortLinkControlRoundTrips := by
  intro c d v hc _ i hi
  have h := (Config.wf_iff c).mp hc
  have hmem : c.slcInterleave.getD i 0 ∈ c.slcInterleave := by
    rw [List.getD_eq_getElem _ _ (h.tableLength ▸ hi)]
    exact List.getElem_mem _
  obtain ⟨-, hbits, -⟩ := scatterSlc_bits h d
  rw [← hbits i hi]
  generalize c.slcInterleave.getD i 0 = j at hmem
  have hj : j < 24 * 4 := h.tableRange j hmem
  have hfree : j % 24 ∉ c.ctrlPos.toList := fun hq => h.tableFree j hmem _ hq (j / 24) (by omega) (by omega)
  rw [readBit_flatMap_fragments _ (fun k => by simp [fragmentAt]) 4 j hj,
    readBit_orControlBits_of_not_mem _ rfl h.ctrlPos hfree, readBit_fragmentAt _ _ _ (by omega), Nat.div_add_mod]

/-- Settles O37: the scattered payload, which `scatterSlc_bits` gives bit by bit. -/
theorem writeShortLcCompletes : Obligations.WriteShortLcCompletes := by
  intro s d h
  rcases execWriteShortLc_cases d s with ⟨hlen, g⟩ | ⟨hlen, g⟩
  · obtain ⟨hl, hbits, hrest⟩ := scatterSlc_bits h.clauses d
    exact ⟨absurd hlen, fun _ => ⟨_, g, hl, hbits, fun j _ => hrest j⟩⟩
  · exact ⟨fun _ => g, fun hlen' => absurd hlen' hlen⟩

/-- Settles O38: the checks in R96's order, then the FIFO's free space against one burst. -/
theorem writeSlotDataCompletes : Obligations.WriteSlotDataCompletes := by
  intro s h
  refine ⟨rfl, fun sel p => ⟨fun hlen => ?_, fun hlen h1 h2 => ?_, fun k hlen hsel => ?_⟩⟩
  · simp [exec, execWriteSlotData, hlen, answered, State.answer, statusCode]
  · simp [exec, execWriteSlotData, hlen, slotSelector_none.mpr ⟨h1, h2⟩, answered, State.answer, statusCode]
  · have he : exec (.writeSlotData (sel :: p)) s = .next (s.writeBurst k p) := by
      simp [exec, execWriteSlotData, hlen, slotSelector_some.mpr hsel]
    have hfree : (s.fifo.get k).free s.cfg.nFifo = s.cfg.nFifo - (queued s k).length := RingBuf.free_eq_length (h.fifoWf k)
    rw [he, State.writeBurst, hfree]
    refine ⟨fun hfull => by rw [if_pos hfull]; rfl, fun hroom => ?_⟩
    have hstored := RingBuf.length_items_le (h.fifoWf k)
    refine ⟨_, ?_, RingBuf.putAll_room p (h.fifoWf k) ?_⟩
    · rw [if_neg (Nat.not_lt.mpr hroom)]
      rfl
    · rw [queued] at hroom
      omega

/-- Settles O9: `sequencerStep` in Idle, with an empty buffer and with a burst. -/
theorem stepRunsTheEnabledSequencerStep : Obligations.StepRunsTheEnabledSequencerStep := by
  rintro s _ turns hw hsched rfl
  rw [step_of_sched_cons hw hsched]
  by_cases hidle : s.txState = .idle
  · simp [runTurn, runAgent, runSequencer, State.sequencerStep_of_idle, hidle]
  by_cases hlen : s.poLen = 0
  · cases hst : s.txState with
    | idle => exact absurd hst hidle
    | _ => simp [runTurn, runAgent, runSequencer, State.sequencerStep, hlen]
  · have hburst := State.sequencerStep_of_burst (s := { s with sched := turns }) hidle hlen
    by_cases hroom : 4 * s.cfg.osr < s.txq.free s.cfg.nTx <;>
      simp [runTurn, runAgent, runSequencer, hburst, hidle, hlen, hroom]

/-- Settles O30: the calibration burst has one burst's length, and `Calibration` follows itself. -/
theorem calibrationBuildCompletes : Obligations.CalibrationBuildCompletes := by
  intro s h hp hs
  have he : s.calEnabled = true := State.calEnabled_iff.mpr ⟨hp, hs⟩
  simp [exec, execBuildCal, he, h.loadBurst_eq h.clauses.calBurst, State.advance, hs, nextTxState]

/-- Settles O39: the selector's two values, another value, another length. -/
theorem writeAbortCompletes : Obligations.WriteAbortCompletes := by
  intro s ops
  rcases execWriteAbort_cases ops s with ⟨sel, k, rfl, hk, g⟩ | ⟨sel, rfl, hk, g⟩ | ⟨hlen, g⟩
  · rcases slotSelector_cases hk with ⟨rfl, rfl⟩ | ⟨rfl, rfl⟩ <;> exact g
  · obtain ⟨h1, h2⟩ := slotSelector_none.mp hk
    rw [if_neg (mt List.singleton_inj.mp h1), if_neg (mt List.singleton_inj.mp h2)]
    exact g
  · rw [if_neg (ne_singleton hlen 1), if_neg (ne_singleton hlen 2), if_neg hlen]
    exact g

/-- Settles O40: the flag's two values, another value, another length. -/
theorem startCompletes : Obligations.StartCompletes := by
  intro s ops
  rcases execStart_cases ops s with ⟨on, rfl, g⟩ | ⟨b, rfl, h0, h1, g⟩ | ⟨hlen, g⟩
  · cases on <;> exact g
  · rw [if_neg (not_or.mpr ⟨mt List.singleton_inj.mp h0, mt List.singleton_inj.mp h1⟩)]
    exact g
  · rw [if_neg (not_or.mpr ⟨ne_singleton hlen 0, ne_singleton hlen 1⟩), if_neg hlen]
    exact g

/-- Settles O41: as START, on the framing state alone. -/
theorem setCalCompletes : Obligations.SetCalCompletes := by
  intro s ops
  rcases execSetCal_cases ops s with ⟨on, rfl, g⟩ | ⟨b, rfl, h0, h1, g⟩ | ⟨hlen, g⟩
  · cases on <;> exact g
  · rw [if_neg (not_or.mpr ⟨mt List.singleton_inj.mp h0, mt List.singleton_inj.mp h1⟩)]
    exact g
  · rw [if_neg (not_or.mpr ⟨ne_singleton hlen 0, ne_singleton hlen 1⟩), if_neg hlen]
    exact g

end Sys2Proof.Machine

/-! # Proofs: modulator (spec/42_modulator.md)

A run of FIR_STEPs is `firOutAll` (R194), and the window before symbol n of a run from a zero delay line holds the symbols
`x[n − q]` (R198). -/

namespace Sys2Proof.Machine

open Sys2Proof.Claims

/-! ## The four levels (R191, R192) -/

/-- R7 clause 3 and R29 leave room for the trim, so the level is not wrapped (R192). -/
theorem State.Inv.toInt_symbolMap {s : State} (h : s.Inv) (d : BitVec 2) :
    (symbolMap s.cfg s.trim3 s.trim1 d).toInt =
      if d = 0b11#2 then s.cfg.levelA.toInt + s.trim3.toInt
      else if d = 0b10#2 then s.cfg.levelB.toInt + s.trim1.toInt
      else if d = 0b00#2 then s.cfg.levelC.toInt - s.trim1.toInt
      else s.cfg.levelD.toInt - s.trim3.toInt := by
  have hlevels := h.clauses.levels
  simp only [List.mem_cons, List.not_mem_nil, or_false, forall_eq_or_imp, forall_eq] at hlevels
  obtain ⟨hA, hB, hC, hD⟩ := hlevels
  obtain ⟨-, -, -, -, htrim3, htrim1, -⟩ := h
  unfold trimOk at htrim3 htrim1
  unfold symbolMap
  split_ifs
  · exact toInt_add_of_fits _ _ (by omega) (by omega)
  · exact toInt_add_of_fits _ _ (by omega) (by omega)
  · exact toInt_sub_of_fits _ _ (by omega) (by omega)
  · exact toInt_sub_of_fits _ _ (by omega) (by omega)

/-- Dibit k is `(b >> (6 − 2k)) & 3` (R191). -/
theorem dibit_eq_ofNat_div (b : Byte) (k : Nat) : dibit b k = BitVec.ofNat 2 (b.toNat / 2 ^ (6 - 2 * k)) := by
  rw [dibit, BitVec.extractLsb', Nat.shiftRight_eq_div_pow]

/-- The four symbols of a byte, most significant pair first (R191). -/
theorem byteSymbols_eq (c : Config) (trim3 trim1 : Sample) (b : Byte) :
    byteSymbols c trim3 trim1 b =
      [symbolMap c trim3 trim1 (BitVec.ofNat 2 (b.toNat / 64)), symbolMap c trim3 trim1 (BitVec.ofNat 2 (b.toNat / 16)),
        symbolMap c trim3 trim1 (BitVec.ofNat 2 (b.toNat / 4)), symbolMap c trim3 trim1 (BitVec.ofNat 2 b.toNat)] := by
  simp [byteSymbols, dibit_eq_ofNat_div]

/-! ## Runs of the filter (R194, R197) -/

theorem firNext_eq_drop (fir : List Sample) (x : Sample) : firNext fir x = (fir ++ [x]).drop 1 := List.drop_one.symm

/-- A FIR_STEP outputs `firOut` and hands on `firNext`, so a run of them is `firOutAll`. -/
theorem firRun_eq_firOutAll (s : State) (xs : List Sample) : firRun s xs = firOutAll s.cfg s.fir xs := by
  induction xs generalizing s with
  | nil => rfl
  | cons x xs ih => exact congrArg (firOut s.cfg s.fir x ++ ·) (ih _)

/-! ## The accumulator (R199) -/

theorem abs_toInt_le (a : Sample) : |a.toInt| ≤ 2 ^ 15 := abs_le.mpr ⟨a.le_toInt, a.toInt_lt.le⟩

/-- Each product is at most `2^30` in magnitude (R199). -/
theorem abs_toInt_mul_toInt_le (a b : Sample) : |a.toInt * b.toInt| ≤ 2 ^ 30 := by
  calc |a.toInt * b.toInt| = |a.toInt| * |b.toInt| := abs_mul ..
    _ ≤ 2 ^ 15 * 2 ^ 15 := mul_le_mul (abs_toInt_le a) (abs_toInt_le b) (abs_nonneg _) (by norm_num)
    _ = 2 ^ 30 := by norm_num

/-! ## The natural form (R196, R198) -/

/-- From a zero delay line of L symbols, entry t of the window that symbol n completes is `x[n − (L − t)]` (R198). -/
theorem toInt_getD_window (xs : List Sample) {n L t : Nat} (hn : n < xs.length) (ht : t ≤ L) :
    (((List.replicate L 0 ++ xs.take n).drop n ++ [xs.getD n 0]).getD t 0).toInt = symbolBefore xs n (L - t) := by
  have hwindow : (List.replicate L 0 ++ xs.take n).drop n ++ [xs.getD n 0] =
      (List.replicate L 0 ++ xs.take (n + 1)).drop n := by
    rw [List.take_add_one, List.getElem?_eq_getElem hn, List.getD_eq_getElem _ _ hn, ← List.append_assoc,
      List.drop_append_of_le_length (l₁ := _ ++ _) (by simp; omega)]
    rfl
  rw [hwindow, List.getD_eq_getElem?_getD, List.getElem?_drop, symbolBefore]
  by_cases hq : L - t ≤ n
  · rw [if_pos hq, List.getElem?_append_right (by simp; omega), List.getElem?_take_of_lt (by simp; omega),
      List.getD_eq_getElem?_getD, List.length_replicate, show n + t - L = n - (L - t) by omega]
  · rw [if_neg hq, List.getElem?_append_left (by simp; omega), List.getElem?_replicate_of_lt (by omega)]
    rfl

/-- Read from its newest end, phase p of the stored table is phase p of the prototype response (R196). -/
theorem coef_eq_prototype (c : Config) {p q : Nat} (hp : p < c.osr) (hq : q < c.phaseLen) :
    (c.rrcCoef.getD ((c.osr - (p + 1)) + (c.phaseLen - 1 - q) * c.osr) 0).toInt = prototype c (q * c.osr + p) := by
  obtain ⟨r, hr⟩ := Nat.exists_eq_add_of_lt hq
  have hlen : c.osr * c.phaseLen = q * c.osr + r * c.osr + c.osr := by rw [hr]; ring
  rw [prototype, hlen, show c.phaseLen - 1 - q = r by omega]
  congr 2
  omega

/-- The accumulator of symbol n of a run from a zero delay line, as the convolution with the prototype (R198). -/
theorem firAcc_eq_convolution (c : Config) (xs : List Sample) {n p : Nat} (hn : n < xs.length) (hp : p < c.osr) :
    firAcc c ((List.replicate (c.phaseLen - 1) 0 ++ xs.take n).drop n ++ [xs.getD n 0]) (c.osr - (p + 1)) =
      ∑ q ∈ Finset.range c.phaseLen, prototype c (q * c.osr + p) * symbolBefore xs n q := by
  rw [firAcc_eq_sum, ← Finset.sum_range_reflect]
  refine Finset.sum_congr rfl fun q hq => ?_
  have hq := Finset.mem_range.mp hq
  rw [toInt_getD_window xs hn (by omega), coef_eq_prototype c hp hq, mul_comm, Nat.sub_sub_self (by omega)]

/-! ## The tags of a byte (R195) -/

theorem getElem?_byteTags (c : Config) (t : Tag) {i : Nat} (hi : i < 4 * c.osr) :
    (byteTags c t)[i]? = some (if i = 2 * c.osr then t else .none) := by
  simp [byteTags, Config.batchLen, hi]

/-! ## The statements -/

/-- Settles O19: SYMBOL_MAP returns `symbolMap`, whose sums fit. -/
theorem symbolMapCompletes : Obligations.SymbolMapCompletes :=
  fun _ d h => ⟨_, rfl, h.toInt_symbolMap d⟩

/-- Settles O20: FIR_STEP returns `firOut`, output j at index `j − 1`. -/
theorem firStepCompletes : Obligations.FirStepCompletes := by
  intro s x _
  refine ⟨firOut s.cfg s.fir x, ?_, length_firOut .., fun j h1 hj => ?_⟩
  · rw [← firNext_eq_drop]
    rfl
  · obtain ⟨p, rfl⟩ := Nat.exists_eq_add_of_le' h1
    rw [Nat.add_sub_cancel, getD_firOut _ _ _ _ hj, firAcc_eq_sum]

/-- Settles O21: the window that symbol n completes, convolved with its phase of the table. -/
theorem filterIsPolyphaseConvolution : Obligations.FilterIsPolyphaseConvolution := by
  intro s xs n p _ hzero hn hp
  rw [firRun_eq_firOutAll]
  refine ⟨length_firOutAll .., ?_⟩
  rw [getD_firOutAll _ _ hp _ _ _ hn, getD_firOut _ _ _ _ hp, hzero, firAcc_eq_convolution _ _ hn hp]

/-- Settles O22: PHASE_LEN products, each of them bounded. -/
theorem accumulatorIsBounded : Obligations.AccumulatorIsBounded := by
  intro c w m
  rw [firAcc_eq_sum]
  refine (Finset.abs_sum_le_sum_abs _ _).trans ?_
  refine (Finset.sum_le_card_nsmul _ _ (2 ^ 30) fun t _ => abs_toInt_mul_toInt_le _ _).trans ?_
  simp

/-- Settles O23: the byte's symbols as SYMBOL_MAP gives them, filtered as a run of FIR_STEPs, with the byte's tags. -/
theorem modulateCompletes : Obligations.ModulateCompletes := by
  intro s b t _
  have hsymbols := byteSymbols_eq s.cfg s.trim3 s.trim1 b
  refine ⟨_, _, _, _, modulateBatch s b t, rfl, rfl, rfl, rfl, ?_, ?_, length_modulateBatch s b t, fun i hi => ?_⟩
  · rw [← hsymbols, ← length_byteSymbols s.cfg s.trim3 s.trim1 b, ← firNextAll_eq_drop]
    rfl
  · rw [modulateBatch_values, firRun_eq_firOutAll, hsymbols]
  · rw [modulateBatch_tags, getElem?_byteTags _ _ hi]

end Sys2Proof.Machine

/-! # Proofs: I/O contract (spec/43_io_contract.md)

A service step, in the items TXQ holds; and what each operation an agent takes by itself does to TXQ's items and to
`tx_out`: of these a service step alone delivers, and an emit alone stores. -/

namespace Sys2Proof.Machine

open Sys2Proof.Claims

section

variable {s t : State} {i : Instr}

/-! ## The service step (R226) -/

/-- The TX half in the items TXQ holds: the oldest goes out, or silence from an empty TXQ (R226). -/
theorem State.Inv.exec_ioService (h : s.Inv) (rx rssi : Word16) :
    exec (.ioService rx rssi) s =
      .next (s.afterService rx rssi (if txItems s = [] then false else s.txOn)
        ((txItems s).headD ⟨s.cfg.silence, .none⟩)) := by
  obtain ⟨hitem, -⟩ := RingBuf.get_spec h.txqWf
  obtain ⟨_, on, out, g, rfl, ⟨hget, rfl⟩ | ⟨hget, rfl, rfl⟩⟩ := execIoService_eq s rx rssi
  · obtain ⟨xs, hxs⟩ := List.head?_eq_some_iff.mp (hitem.symm.trans hget)
    rw [txItems, hxs, if_neg (List.cons_ne_nil out xs)]
    exact g
  · have hnil := List.head?_eq_none_iff.mp (hitem.symm.trans hget)
    rw [txItems, hnil, if_pos rfl]
    exact g

/-- A service step delivers TXQ's oldest item, or silence from an empty TXQ (R227). -/
theorem State.Inv.ioService_output (h : s.Inv) {rx rssi : Word16} (e : exec (.ioService rx rssi) s = .next t) :
    (∃ x, t.txOut = s.txOut ++ [x] ∧ txItems s = x :: txItems t)
      ∨ (t.txOut = s.txOut ++ [⟨s.cfg.silence, .none⟩] ∧ txItems s = [] ∧ txItems t = []) := by
  cases (h.exec_ioService rx rssi).symm.trans e
  obtain ⟨-, hleft, -⟩ := RingBuf.get_spec h.txqWf
  cases hitems : txItems s with
  | nil => exact .inr ⟨rfl, rfl, hleft.trans (congrArg List.tail hitems)⟩
  | cons x xs => exact .inl ⟨x, rfl, congrArg (x :: ·) (hleft.trans (congrArg List.tail hitems)).symm⟩

/-! ## The push (R223) -/

/-- A batch longer than the free space fills the ring and loses an item (R115). -/
theorem RingBuf.putAll_excess {α : Type} {n : Nat} {r : RingBuf α} {xs : List α} (hw : r.Wf n)
    (h : r.free n < xs.length) :
    (r.putAll n xs).items n = r.items n ++ xs.take (r.free n) ∧ (r.putAll n xs).overflow = true
      ∧ (r.putAll n xs).full = true := by
  obtain ⟨hitems, hover⟩ := putAll_spec xs hw
  refine ⟨hitems, by simp [hover, h], (full_iff (putAll_wf xs hw)).mpr ?_⟩
  have hle := length_items_le hw
  rw [hitems, List.length_append, List.length_take_of_le h.le, free_eq_length hw]
  omega

/-! ## TXQ and `tx_out` under the other operations of an agent (R227, R233) -/

/-- A host command neither delivers nor moves what TXQ holds: at most it clears the latch. -/
theorem exec_hostCommand_output {op : Byte} {ops : List Byte} (hi : hostCommand op ops = some i)
    (e : exec i s = .next t) : t.txOut = s.txOut ∧ txItems t = txItems s := by
  rcases exec_hostCommand hi s with ⟨_, -, -, g⟩ | ⟨_, _, _, -, -, g⟩ | ⟨_, _, g⟩ | ⟨q, _, g⟩ |
    ⟨_, _, _, _, _, _, _, _, _, _, _, g⟩ <;> cases g.symm.trans e
  case inr.inr.inr.inl => rcases q with (_ | _ | _) | _ <;> exact ⟨rfl, rfl⟩
  all_goals exact ⟨rfl, rfl⟩

@[simp] theorem State.idleBranch_txOut (s : State) (k : Slot) (p : List Byte) : (s.idleBranch k p).txOut = s.txOut := by
  cases h : s.abort.get k <;> simp [State.idleBranch, h]

theorem exec_txOut_of_isBuild (hi : isBuild i) (e : exec i s = .next t) : t.txOut = s.txOut := by
  rcases hi with ⟨k, rfl⟩ | ⟨tx, rx, rfl⟩ | rfl
  · obtain ⟨-, ⟨-, rfl⟩ | ⟨-, p, -, rfl⟩⟩ := execBuildData_next e
    · rfl
    · simp
  · simp [(execBuildCach_next e).2]
  · rw [(execBuildCal_next e).2]
    rfl

/-- A build writes the provisional buffer, not TXQ (R153, R154, R160). -/
theorem exec_build_output (hi : isBuild i) (e : exec i s = .next t) : t.txOut = s.txOut ∧ txItems t = txItems s :=
  ⟨exec_txOut_of_isBuild hi e, by rw [txItems, exec_txq_of_isBuild hi e, (exec_effect e).writers.cfg, txItems]⟩

/-- `t` holds on TXQ, behind what `s` held, exactly the modulated byte at `s`'s cursor, and its cursor is past that byte
(R155). -/
def EmittedByteAtCursor (s t : State) : Prop :=
  t.txOut = s.txOut ∧ s.poPtr < s.poLen
    ∧ ∃ (b : Byte) (tag : Tag), s.poBuf[s.poPtr]? = some b ∧ s.poTag[s.poPtr]? = some tag ∧ t.fir = modulateFir s b
      ∧ txItems t = txItems s ++ modulateBatch s b tag
      ∧ (t.poPtr, t.poLen) = if s.poPtr + 1 = s.poLen then (0, 0) else (s.poPtr + 1, s.poLen)

theorem State.Inv.emittedByteAtCursor (h : s.Inv) (e : exec .emitByte s = .next t) : EmittedByteAtCursor s t := by
  obtain ⟨henabled, rfl⟩ := execEmitByte_next e
  obtain ⟨-, hlen, hroom⟩ := State.emitEnabled_iff.mp henabled
  obtain ⟨hlt, hbyte, htag⟩ := h.cursor_on_byte hlen
  obtain ⟨hitems, -⟩ := h.emitCurrent_txq_spec hroom
  rw [State.emitCurrent_eq hlt]
  refine ⟨rfl, hlt, _, _, hbyte, htag, rfl, hitems, ?_⟩
  by_cases hlast : s.poPtr + 1 = s.poLen <;> simp [hlast]

end

/-! ## The statements -/

/-- Settles O53: of the operations an agent takes, a service step delivers, an emit stores its one batch, and the others do
neither. -/
theorem outputStreamIsConserved : Obligations.OutputStreamIsConserved := by
  intro s t h _ hagent hstep
  obtain ⟨-, turns, n, ⟨bytes, out, rfl⟩ | ⟨bytes, i, e, hi⟩⟩ := step_next hstep
  · exact .inr (.inr (.inl ⟨rfl, rfl⟩))
  · have hinv : State.Inv { s with sched := turns, freeCount := n, cmdIn := bytes } := h
    rcases hi with ⟨w, operands, hissue⟩ | ⟨op, ops, hhost⟩ | ⟨rx, rssi, rfl⟩ | rfl | rfl | hseq
    · exact absurd hissue (hagent w operands)
    · have hkeeps := exec_hostCommand_output hhost e
      exact .inr (.inr (.inl hkeeps))
    · have hdelivers := hinv.ioService_output e
      exact hdelivers.imp_right .inl
    · cases e
      exact .inr (.inr (.inl ⟨rfl, rfl⟩))
    · cases e
      exact .inr (.inr (.inl ⟨rfl, rfl⟩))
    · rcases State.isBuild_or_emit_of_sequencerStep hseq with ⟨-, hb⟩ | ⟨-, -, rfl⟩
      · have hkeeps := exec_build_output hb e
        exact .inr (.inr (.inl hkeeps))
      · obtain ⟨hout, hlt, b, tag, hbyte, htag, hfir, hitems, hcursor⟩ := hinv.emittedByteAtCursor e
        exact .inr (.inr (.inr ⟨hout, hlt, b, tag, modulateBatch s b tag, hbyte, htag, by rw [hfir]; rfl, hitems,
          length_modulateBatch .., hcursor⟩))

/-- Settles O50: `afterService` with the items TXQ holds; both inbound puts are `RingBuf.put`, as RING_PUT's are. -/
theorem serviceStepCompletes : Obligations.ServiceStepCompletes := by
  intro s rx rssi h
  obtain ⟨-, hleft, hover, -, -, hempty, -⟩ := RingBuf.get_spec h.txqWf
  exact ⟨_, _, _, _, h.exec_ioService rx rssi, rfl, hleft, hover, fun hnil => hempty (List.length_eq_zero_iff.mpr hnil),
    ⟨_, rfl, rfl⟩, ⟨_, rfl, rfl⟩⟩

/-- Settles O52: the puts of the batch in a row, with room for all of them and without. -/
theorem pushStoresTheBatchInOrder : Obligations.PushStoresTheBatchInOrder := by
  intro s mode batch h
  refine ⟨s.txq.putAll s.cfg.nTx batch, rfl, rfl, fun hroom => ?_, RingBuf.putAll_excess h.txqWf⟩
  have hle := RingBuf.length_items_le h.txqWf
  rw [RingBuf.free_eq_length h.txqWf] at hroom
  exact RingBuf.putAll_room batch h.txqWf (by omega)

/-- Settles O51: the free space of TXQ is what its items leave of the capacity. -/
theorem contractCallsComplete : Obligations.ContractCallsComplete := by
  intro s h
  have hfree : s.ringFree (.sample .txq) = s.cfg.nTx - (txItems s).length :=
    State.ringFree_eq_capacity_sub_stored h (.sample .txq)
  rw [← hfree]
  exact ⟨rfl, rfl, fun b => ⟨_, rfl, rfl, rfl⟩⟩

end Sys2Proof.Machine

/-! # Proofs: host commands (spec/44_host_commands.md)

`Laws/Host.lean` says what each command can answer; here its operands and result bytes are read as numbers (R83, R63), and
a command turn as the frame it takes (R240). -/

namespace Sys2Proof.Machine

open Sys2Proof.Claims

section

variable {s : State} {b : Byte} {q : RingId} {i : Instr} {op : Byte} {ops : List Byte}

/-! ## Operand forms (R83, R95, R242) -/

theorem toInt_s16Operand (hi lo : Byte) : (s16Operand hi lo).toInt = s16Value hi lo := by
  have hnat : (hi ++ lo).toNat = hi.toNat * 2 ^ 8 + lo.toNat := by
    rw [BitVec.toNat_append, ← Nat.shiftLeft_add_eq_or_of_lt lo.isLt, Nat.shiftLeft_eq]
  have hhi := hi.isLt
  have hlo := lo.isLt
  rw [s16Operand, s16Value, BitVec.toInt_eq_toNat_cond, hnat]
  split_ifs <;> omega

theorem toInt_clampTrim (v : Sample) : (clampTrim v).toInt = min 128 (max (-128) v.toInt) := by
  rw [clampTrim, clamp, trimLimit, BitVec.toInt_ofInt, Int.bmod_eq_of_le (by omega) (by omega)]

theorem ringOperand_some : ringOperand b = some q ↔ b = BitVec.ofNat 8 q.code := by
  constructor
  · intro h
    rw [← ringOfCode_some h, BitVec.ofNat_toNat, BitVec.setWidth_eq]
  · rintro rfl
    rw [ringOperand, BitVec.toNat_ofNat, Nat.mod_eq_of_lt q.code_lt, ringOfCode_code]

theorem ringOperand_none : ringOperand b = none ↔ ∀ q : RingId, b ≠ BitVec.ofNat 8 q.code := by
  simp only [ne_eq, ← ringOperand_some, Option.eq_none_iff_forall_ne_some]

/-! ## Result bytes (R63, R82) -/

theorem be32_eq_bigEndian (v : Count32) : be32 v = bigEndian v.toNat := by
  simp [be32, bigEndian, BitVec.extractLsb', Nat.shiftRight_eq_div_pow]

/-- Four bytes hold a count modulo 2^32 (log 24). -/
theorem bigEndian_mod (n : Nat) : bigEndian (n % 2 ^ 32) = bigEndian n := by
  simp only [bigEndian, List.cons.injEq, and_true, ← BitVec.toNat_inj, BitVec.toNat_ofNat]
  omega

theorem be32_ofNat (n : Nat) : be32 (BitVec.ofNat 32 n) = bigEndian n := by
  rw [be32_eq_bigEndian, BitVec.toNat_ofNat, bigEndian_mod]

theorem eq_ringFull_of_statusCode {st : Status} : statusCode st = 0x02 → st = .ringFull := by cases st <;> decide

/-! ## What a host command can leave (R241, R249) -/

/-- Clearing a latch moves no item: a sample ring differs by its flag at most (R118). -/
theorem State.clearRingOverflow_eq (s : State) (q : RingId) : ∃ tx rx rssi f, s.clearRingOverflow q = { s with
    txq := { s.txq with overflow := tx }, rxq := { s.rxq with overflow := rx }, rssiq := { s.rssiq with overflow := rssi }
    fifo := f } := by
  rcases q with (_ | _ | _) | _ <;> exact ⟨_, _, _, _, rfl⟩

/-- A host command fails and does no more, fails and resets a full FIFO, or answers `Ok` once (R241). -/
theorem exec_hostCommand_answer (hi : hostCommand op ops = some i) (s : State) :
    (∃ st, st ≠ .ok ∧ st ≠ .ringFull ∧ exec i s = .next (s.fail st))
      ∨ (∃ k sel p, i = .writeSlotData (sel :: p) ∧ sel.toNat = k.index + 1
          ∧ exec i s = .next ((s.withFifo k (s.fifo.get k).reset).fail .ringFull))
      ∨ ∃ (u : State) (d : List Byte), exec i s = .next (u.answer .ok d) ∧ u.rspOut = s.rspOut := by
  refine (exec_hostCommand hi s).imp_right (Or.imp_right ?_)
  rintro (⟨_, _, g⟩ | ⟨q, _, g⟩ | ⟨_, _, _, _, _, _, _, _, _, _, _, g⟩)
  · exact ⟨_, _, g, rfl⟩
  · obtain ⟨_, _, _, _, hq⟩ := s.clearRingOverflow_eq q
    exact ⟨_, _, g, by rw [hq]⟩
  · exact ⟨_, _, g, rfl⟩

/-! ## Command turns (R240) -/

/-- A placed command turn runs the main context's command step. -/
theorem step_of_command_turn {turns : List Turn} (hw : s.cfg.wf = true) (h : s.sched = .agent .command :: turns) :
    step s = runCommand { s with sched := turns } :=
  step_of_sched_cons hw h

end

/-! ## The statements -/

/-- Settles O48: a failure, a full FIFO's reset, or an `Ok`. -/
theorem failingCommandsChangeNothing : Obligations.FailingCommandsChangeNothing := by
  rintro i s ⟨op, ops, hi⟩
  rcases exec_hostCommand_answer hi s with ⟨st, -, hfull, g⟩ | ⟨k, sel, p, rfl, hsel, g⟩ | ⟨u, d, g, hu⟩
  · exact ⟨_, statusCode st, [], g, rfl, fun _ => rfl, fun _ _ => rfl, fun h => absurd (eq_ringFull_of_statusCode h) hfull⟩
  · exact ⟨_, 0x02, [], g, rfl, fun _ => rfl, fun _ h => absurd rfl h, fun _ => ⟨k, sel, p, rfl, hsel, rfl⟩⟩
  · exact ⟨_, 0x00, d, g, by rw [← hu]; rfl, fun h => absurd rfl h, fun h => absurd rfl h, fun h => absurd h (by decide)⟩

/-- Settles O49: what a host command can leave has the signal path of `s`, a polled ring's flag apart. -/
theorem hostCommandsLeaveTheSignalPath : Obligations.HostCommandsLeaveTheSignalPath := by
  rintro i s t ⟨op, ops, hi⟩ e
  rcases exec_hostCommand hi s with ⟨_, -, -, g⟩ | ⟨_, _, _, -, -, g⟩ | ⟨_, _, g⟩ | ⟨q, _, g⟩ |
    ⟨_, _, _, _, _, _, _, _, _, _, _, g⟩
  on_goal 4 =>
    obtain ⟨_, _, _, _, hq⟩ := s.clearRingOverflow_eq q
    rw [hq] at g
  all_goals
    cases g.symm.trans e
    exact ⟨rfl, rfl, rfl, rfl, rfl, rfl, rfl, rfl, rfl, rfl, fun p => by cases p <;> rfl⟩

/-- Settles O42: the operands as integers, clamped to a range that 16 bits hold. -/
theorem setSymlvlCompletes : Obligations.SetSymlvlCompletes := by
  refine ⟨fun s ops hlen => ?_, fun s a b c d => ⟨_, _, rfl, ?_, ?_⟩⟩
  · rcases execSetSymlvl_cases ops s with ⟨_, _, _, _, rfl, -⟩ | ⟨-, g⟩
    · exact absurd rfl hlen
    · exact g
  · rw [toInt_clampTrim, toInt_s16Operand]
  · rw [toInt_clampTrim, toInt_s16Operand]

/-- Settles O45: the selector's two values, another value, another length; the count is what the items leave free. -/
theorem readFreeSpaceCompletes : Obligations.ReadFreeSpaceCompletes := by
  intro s ops h
  rcases execReadFreeSpace_cases ops s with ⟨sel, k, rfl, hk, g⟩ | ⟨sel, rfl, hk, g⟩ | ⟨hlen, g⟩
  · rw [State.ringFree_eq_capacity_sub_stored h, be32_ofNat] at g
    rcases slotSelector_cases hk with ⟨rfl, rfl⟩ | ⟨rfl, rfl⟩ <;> exact g
  · obtain ⟨h1, h2⟩ := slotSelector_none.mp hk
    rw [if_neg (mt List.singleton_inj.mp h1), if_neg (mt List.singleton_inj.mp h2)]
    exact g
  · rw [if_neg (ne_singleton hlen 1), if_neg (ne_singleton hlen 2), if_neg hlen]
    exact g

/-- Settles O7: the frame that `readFrame` finds is taken off and its command executed. -/
theorem stepRunsTheFirstFrame : Obligations.StepRunsTheFirstFrame := by
  intro s turns i rest hw hsched hframe
  simp [step_of_command_turn hw hsched, runCommand, hframe]

/-- Settles O8: a reserved opcode is answered by `UnknownCommand`, and a partial frame waits. -/
theorem stepAnswersReservedAndWaitsForPartial : Obligations.StepAnswersReservedAndWaitsForPartial := by
  constructor
  · intro s turns op rest hw hsched hframe
    simp only [step_of_command_turn hw hsched, runCommand, hframe]
    rfl
  · intro s turns hw hsched hframe
    simp [step_of_command_turn hw hsched, runCommand, hframe]

/-- Settles O43: a mode up to 3, a larger one, another length. -/
theorem setAtSuppCompletes : Obligations.SetAtSuppCompletes := by
  intro s ops
  rcases execSetAtSupp_cases ops s with ⟨m, rfl, hm, g⟩ | ⟨m, rfl, hm, g⟩ | ⟨hlen, g⟩
  · exact g.trans (congrArg _ (if_pos hm).symm)
  · exact g.trans (congrArg _ (if_neg hm).symm)
  · split
    · exact absurd rfl hlen
    · exact g

/-- Settles O44: a colour code up to 15, a larger one, another length; the template has the length of IDLE_BASE. -/
theorem setColorCodeCompletes : Obligations.SetColorCodeCompletes := by
  refine ⟨fun s ops => ?_, fun s cc hw => Config.idleTemplate_length ((Config.wf_iff _).mp hw) cc⟩
  rcases execSetColorCode_cases ops s with ⟨cc, rfl, hcc, g⟩ | ⟨cc, rfl, hcc, g⟩ | ⟨hlen, g⟩
  · exact g.trans (congrArg _ (if_pos hcc).symm)
  · exact g.trans (congrArg _ (if_neg hcc).symm)
  · split
    · exact absurd rfl hlen
    · exact g

/-- Settles O46: no operand, or some. -/
theorem readFrameCountCompletes : Obligations.ReadFrameCountCompletes := by
  intro s ops
  rcases execReadFrameCount_cases ops s with ⟨rfl, g⟩ | ⟨hne, g⟩
  · rw [if_pos rfl, ← be32_eq_bigEndian]
    exact g
  · rw [if_neg hne]
    exact g

/-- Settles O47: each ring's id, another value, another length. -/
theorem pollOverflowCompletes : Obligations.PollOverflowCompletes := by
  intro s ops
  rcases execPollOverflow_cases ops s with ⟨b, q, rfl, hq, g⟩ | hfail
  · obtain rfl := ringOperand_some.mp hq
    rcases q with (_ | _ | _) | _ | _ <;> exact g
  · have hne : ∀ q : RingId, ops ≠ [BitVec.ofNat 8 q.code] := by
      rcases hfail with ⟨b, rfl, hq, -⟩ | ⟨hlen, -⟩
      · exact fun q => mt List.singleton_inj.mp (ringOperand_none.mp hq q)
      · exact fun q => ne_singleton hlen _
    dsimp only
    rw [if_neg (show ops ≠ [0] from hne (.sample .txq)), if_neg (show ops ≠ [1] from hne (.sample .rxq)),
      if_neg (show ops ≠ [2] from hne (.sample .rssiq)), if_neg (show ops ≠ [3] from hne (.fifo .slot0)),
      if_neg (show ops ≠ [4] from hne (.fifo .slot1))]
    rcases hfail with ⟨b, rfl, -, g⟩ | ⟨hlen, g⟩
    · exact g
    · rw [if_neg hlen]
      exact g

end Sys2Proof.Machine

/-! # Proofs: exceptions (spec/60_exceptions.md)

The one fault of the block, and the one operation that raises it (R274, R277). -/

namespace Sys2Proof.Machine

open Sys2Proof.Claims

section

variable {s : State} {i : Instr} {k tx rx : Slot} {f : Fault}

/-- R274, with the model's own readiness test. -/
theorem execBuildData_fault_iff :
    execBuildData k s = .fault f ↔
      f = .idleTemplateUnset k ∧ (s.poLen = 0 ∧ s.txState = dueState k) ∧ ¬ s.dataReady k = true ∧ s.idle = none := by
  rw [dueState_eq_dataState, ← State.dataEnabled_iff, execBuildData]
  by_cases he : s.dataEnabled k = true
  · cases s.dataReady k <;> cases s.idle <;> simp [he, eq_comm]
  · simp [he]

theorem execBuildCach_ne_fault : execBuildCach tx rx s ≠ .fault f := by
  unfold execBuildCach
  split <;> simp

theorem execBuildCal_ne_fault : execBuildCal s ≠ .fault f := by
  unfold execBuildCal
  split <;> simp

theorem execEmitByte_ne_fault : execEmitByte s ≠ .fault f := by
  unfold execEmitByte
  split <;> simp

/-- R277: a data build is the only operation that can fault. -/
theorem eq_buildData_of_fault (h : exec i s = .fault f) : ∃ k, i = .buildData k := by
  by_cases hb : isBuild i
  · obtain ⟨k, rfl⟩ | ⟨tx, rx, rfl⟩ | rfl := hb
    · exact ⟨k, rfl⟩
    · exact absurd h execBuildCach_ne_fault
    · exact absurd h execBuildCal_ne_fault
  · by_cases he : i = .emitByte
    · subst he
      exact absurd h execEmitByte_ne_fault
    · obtain ⟨t, ht⟩ := exec_next_of_not_build_emit hb he s
      cases ht.symm.trans h

end

/-! ## The statement -/

/-- Settles O26: only a data build faults, and `State.Inv.dataReady_iff` puts its readiness test in the words of R157. -/
theorem faultsExactlyOnTheUnwrittenTemplate : Obligations.FaultsExactlyOnTheUnwrittenTemplate := by
  intro i s f hinv
  constructor
  · intro h
    obtain ⟨k, rfl⟩ := eq_buildData_of_fault h
    obtain ⟨hf, ⟨hlen, hdue⟩, hready, hidle⟩ := execBuildData_fault_iff.mp h
    exact ⟨k, rfl, hf, hlen, hdue, mt hinv.dataReady_iff.mpr hready, hidle⟩
  · rintro ⟨k, rfl, hf, hlen, hdue, hready, hidle⟩
    exact execBuildData_fault_iff.mpr ⟨hf, ⟨hlen, hdue⟩, mt hinv.dataReady_iff.mp hready, hidle⟩

end Sys2Proof.Machine

/-! # Proofs: reset and hazards (spec/70_reset_and_hazards.md)

The registers reset leaves and what the host and the channel observe of them; and the boot contract, which every step keeps
and under which no step faults. -/

namespace Sys2Proof.Machine

open Sys2Proof.Claims

/-! ## The counter and the rings right after reset (R300) -/

section

variable (c : Config)

theorem State.resetWith_frameCount : (State.resetWith c).frameCount = 0#32 := rfl

theorem State.resetWith_sampleRing (q : SampleRing) :
    (State.resetWith c).sampleRing q = RingBuf.fresh (c.capacity (.sample q)) ⟨0, .none⟩ := by
  cases q <;> rfl

theorem State.resetWith_fifo (k : Slot) : (State.resetWith c).fifo.get k = RingBuf.fresh c.nFifo 0 := by
  cases k <;> rfl

theorem State.resetWith_ringFree_fifo (k : Slot) : (State.resetWith c).ringFree (.fifo k) = c.nFifo := by
  rw [State.ringFree, State.resetWith_fifo]
  rfl

theorem State.resetWith_ringOverflow (q : RingId) : (State.resetWith c).ringOverflow q = false := by
  cases q with
  | sample q => rw [State.ringOverflow, State.resetWith_sampleRing]; rfl
  | fifo k => rw [State.ringOverflow, State.resetWith_fifo]; rfl

/-- There is no latch to clear. -/
theorem State.resetWith_clearRingOverflow (q : RingId) :
    (State.resetWith c).clearRingOverflow q = State.resetWith c := by
  rcases q with (_ | _ | _) | _ | _ <;> rfl

end

/-! ## Commands with legal operands (R245-R247) -/

theorem RingId.exists_code_eq {n : Nat} (h : n ≤ 4) : ∃ q : RingId, q.code = n := by
  interval_cases n
  exacts [⟨.sample .txq, rfl⟩, ⟨.sample .rxq, rfl⟩, ⟨.sample .rssiq, rfl⟩, ⟨.fifo .slot0, rfl⟩, ⟨.fifo .slot1, rfl⟩]

theorem exists_ringOperand_of_le {r : Byte} (h : r.toNat ≤ 4) : ∃ q, ringOperand r = some q := by
  obtain ⟨q, hq⟩ := RingId.exists_code_eq h
  exact ⟨q, ringOperand_some.mpr (by rw [hq, BitVec.ofNat_toNat, BitVec.setWidth_eq])⟩

theorem exec_pollOverflow_of_ringOperand {b : Byte} {q : RingId} (h : ringOperand b = some q) (s : State) :
    exec (.pollOverflow [b]) s =
      .next ((s.clearRingOverflow q).answer .ok [if s.ringOverflow q then 0x01 else 0x00]) := by
  simp [exec, execPollOverflow, h]

theorem exec_readFreeSpace_of_slotSelector {b : Byte} {k : Slot} (h : slotSelector b = some k) (s : State) :
    exec (.readFreeSpace [b]) s = .next (answered s (0x00 :: bigEndian (s.ringFree (.fifo k)))) := by
  simp [exec, execReadFreeSpace, h, be32_ofNat, answered, State.answer, statusCode]

theorem bigEndian_zero : bigEndian 0 = [0, 0, 0, 0] := by decide

theorem exec_readFrameCount_nil (s : State) :
    exec (.readFrameCount []) s = .next (answered s (0x00 :: bigEndian s.frameCount.toNat)) := by
  rw [← be32_eq_bigEndian]
  rfl

/-! ## Faults and the boot contract (R274, R306) -/

section

variable {s t : State} {i : Instr} {f : Fault}

theorem idle_eq_none_of_exec_fault (h : exec i s = .fault f) : s.idle = none := by
  obtain ⟨k, rfl⟩ := eq_buildData_of_fault h
  obtain ⟨-, -, -, hidle⟩ := execBuildData_fault_iff.mp h
  exact hidle

/-- An agent's turn faults only in the operation it runs. -/
theorem idle_eq_none_of_runAgent_fault {a : AgentTurn} (h : runAgent a s = .fault f) : s.idle = none := by
  cases a with
  | arrive bytes => cases h
  | command =>
    simp only [runAgent, runCommand] at h
    split at h
    · cases h
    · cases h
    · have hidle := idle_eq_none_of_exec_fault h
      exact hidle
  | sequencer =>
    simp only [runAgent, runSequencer] at h
    split at h
    · cases h
    · exact idle_eq_none_of_exec_fault h
  | service rx rssi => exact idle_eq_none_of_exec_fault (i := .ioService rx rssi) h
  | receive q => exact idle_eq_none_of_exec_fault (i := .ringGet (inboundRing q)) h

theorem idle_eq_none_of_runTurn_fault {u : Turn} (h : runTurn u s = .fault f) : s.idle = none := by
  cases u with
  | agent a => exact idle_eq_none_of_runAgent_fault h
  | issue w operands =>
    rw [runTurn] at h
    split at h
    · exact idle_eq_none_of_exec_fault h
    · cases h

theorem idle_eq_none_of_step_fault (hw : s.cfg.wf = true) (h : step s = .fault f) : s.idle = none := by
  obtain ⟨turns, n, hturn⟩ := s.nextTurn_state
  rw [step_of_wf hw, hturn] at h
  have hidle := idle_eq_none_of_runTurn_fault h
  exact hidle

/-- SET_COLOR_CODE, the one writer of the template, writes one: no operation takes it back (R32, R244). -/
theorem Effect.idle_isSome (he : Effect s i t) (h : s.idle.isSome = true) : t.idle.isSome = true := by
  by_cases hkept : t.idle = s.idle
  · rwa [hkept]
  · obtain ⟨ops, rfl⟩ := he.writers.colour (.inl hkept)
    cases he with
    | answered => exact h
    | returned => exact h
    | coloured => rfl

theorem Effect.booted (he : Effect s i t) (h : s.Booted) : t.Booted := by
  obtain ⟨hw, hidle⟩ := h
  exact ⟨by rw [he.writers.cfg]; exact hw, he.idle_isSome hidle⟩

end

/-! ## The statements -/

/-- Settles O58: the rings are fresh, so both FIFOs have their whole capacity free, no latch is set and TXQ holds nothing. -/
theorem observationsAfterReset : Obligations.ObservationsAfterReset := by
  rintro c s hc rfl
  refine ⟨?_, ?_, ?_, fun r hr => ?_, fun rx rssi => ?_, State.sequencerStep_of_idle rfl⟩
  · rw [exec_readFrameCount_nil, State.resetWith_frameCount, BitVec.toNat_zero, bigEndian_zero]
  · rw [exec_readFreeSpace_of_slotSelector (k := .slot0) rfl, State.resetWith_ringFree_fifo]
  · rw [exec_readFreeSpace_of_slotSelector (k := .slot1) rfl, State.resetWith_ringFree_fifo]
  · obtain ⟨q, hq⟩ := exists_ringOperand_of_le hr
    rw [exec_pollOverflow_of_ringOperand hq, State.resetWith_ringOverflow, State.resetWith_clearRingOverflow]
    rfl
  · have hempty : txItems (State.resetWith c) = [] := RingBuf.items_fresh ..
    exact ⟨_, (State.resetWith_inv hc).exec_ioService rx rssi, by rw [hempty]; rfl, by rw [hempty]; rfl⟩

/-- Settles O59: a fault needs the template unwritten, and every effect an operation can have keeps the contract. -/
theorem bootedMachineNeverFaults : Obligations.BootedMachineNeverFaults := by
  intro s hbooted
  constructor
  · intro f hstep
    obtain ⟨hw, hidle⟩ := hbooted
    simp [idle_eq_none_of_step_fault hw hstep] at hidle
  · intro t hstep
    obtain ⟨-, turns, n, ⟨bytes, out, rfl⟩ | ⟨bytes, i, he, -⟩⟩ := step_next hstep
    · exact hbooted
    · exact (exec_effect he).booted hbooted

/-- Settles O57: the reset state is written with R300's values; of a ring's, whichever it is, R300 gives the cursors and
flags. -/
theorem resetValuesAreTheSpecs : Obligations.ResetValuesAreTheSpecs := by
  rintro c s rfl
  refine ⟨rfl, rfl, rfl, rfl, rfl, rfl, rfl, rfl, rfl, rfl, rfl, rfl, rfl, rfl, rfl, rfl, fun q => ?_, fun k => ?_⟩
  · rw [State.resetWith_sampleRing]
    exact ⟨rfl, rfl, rfl, rfl⟩
  · rw [State.resetWith_fifo]
    exact ⟨rfl, rfl, rfl, rfl⟩

end Sys2Proof.Machine
